-- ==== Sys2Proof/Word.lean ====
section
/-! DEFINITION. The word types of the Huffman core and their plainest arithmetic. -/

namespace Sys2Proof

/-- A 32-bit register or command word (rules R100, R300). -/
abbrev Word := BitVec 32

/-- One buffer byte, and a symbol: "one byte value, range 0–255" (rules R24, R200). -/
abbrev Byte := BitVec 8

/-- A bit string, its first bit at the head (rule R31). -/
abbrev Bits := List Bool

/-- The number whose binary digits are `p`, first bit most significant. -/
def natOfBits (p : Bits) : Nat := p.foldl (fun n b => 2 * n + b.toNat) 0

/-- `ceil_div(a, 8)` of rule R34. -/
def ceilDiv8 (a : Nat) : Nat := (a + 7) / 8

end Sys2Proof
end

