-- ==== Sys2Proof/Syntax.lean ====
section
/-! DEFINITION. The commands of the core, one constructor per row of the opcode map of rule R302 (spec/opcode_table.json). A
command has no operand in its word (rule R303), so no constructor has a field. -/

namespace Sys2Proof

/-- A legal command (rule R302). -/
inductive Instr where
  /-- NOP, 0x00 (rule R700) -/
  | nop
  /-- CLEAR, 0x01 (rule R705) -/
  | clear
  /-- ANALYZE, 0x10 (rule R400): the Frequency Analyzer -/
  | analyze
  /-- NORM, 0x11 (rule R420): the container's capacity limits -/
  | norm
  /-- BUILD, 0x20 (rule R450): the Tree Builder -/
  | build
  /-- GENCODE, 0x30 (rule R500): the Code Table Generator -/
  | gencode
  /-- PACK, 0x40 (rule R550): the Bit Packer -/
  | pack
  /-- UNPACK, 0x41 (rule R600): the Bit Unpacker -/
  | unpack
  /-- WRHDR, 0x50 (rule R650): the Container Codec, serialise -/
  | wrhdr
  /-- RDHDR, 0x51 (rule R670): the Container Codec, deserialise -/
  | rdhdr
  /-- COMPRESS, 0x60 (rule R720) -/
  | compress
  /-- DECOMPRESS, 0x61 (rule R730) -/
  | decompress
  deriving DecidableEq, Repr

end Sys2Proof
end

