-- ==== Sys2Proof/WellFormed.lean ====
section
/-! DEFINITION. Which commands and which command words are well formed (rules R300, R301). -/

namespace Sys2Proof

/-- The opcodes of rule R302. -/
def assignedOpcodes : List Byte :=
  [0x00, 0x01, 0x10, 0x11, 0x20, 0x30, 0x40, 0x41, 0x50, 0x51, 0x60, 0x61]

/-- Bits [31:8] of a command word "are reserved and must be 0" (rule R300). -/
def reservedClear (w : Word) : Bool := w.extractLsb' 8 24 == 0#24

/-- Bits [7:0] are "one of the twelve opcodes" (rule R301). -/
def opcodeAssigned (w : Word) : Bool := assignedOpcodes.contains (w.extractLsb' 0 8)

/-- "A command word is legal iff word[31:8] = 0 and word[7:0] is one of the twelve opcodes" (rule R301). -/
def legalWord (w : Word) : Bool := reservedClear w && opcodeAssigned w

/-- A command has no immediate and no register number (rule R303), so each is well formed as it stands. -/
def Instr.wellFormed : Instr → Bool
  | .nop | .clear | .analyze | .norm | .build | .gencode => true
  | .pack | .unpack | .wrhdr | .rdhdr | .compress | .decompress => true

end Sys2Proof
end

