-- ==== Sys2Proof/Decode.lean ====
section
/-! DEFINITION. The decoder of command words, total on all 2^32 of them, and after it the encoder (rules R300 to R304). -/

namespace Sys2Proof

/-- Why a command word is illegal (rule R301). Both reasons are the error IllegalCommand (rule R740). -/
inductive DecodeError where
  /-- some bit of [31:8] is set -/
  | reservedBits
  /-- [7:0] is none of the twelve opcodes -/
  | unknownOpcode
  deriving DecidableEq, Repr

/-- The opcode map of rule R302, row by row. -/
def opcodeTable : List (Byte × Instr) :=
  [(0x00, .nop), (0x01, .clear), (0x10, .analyze), (0x11, .norm), (0x20, .build), (0x30, .gencode),
   (0x40, .pack), (0x41, .unpack), (0x50, .wrhdr), (0x51, .rdhdr), (0x60, .compress), (0x61, .decompress)]

/-- OPCODE, bits [7:0] of the word (rule R300). -/
def opcodeField (w : Word) : Byte := w.extractLsb' 0 8

/-- The first row of a table with this opcode. -/
def lookupOpcode (op : Byte) : List (Byte × Instr) → Option Instr
  | [] => none
  | (o, i) :: rows => if op = o then some i else lookupOpcode op rows

/-- "The word is decoded once, when it is written" (rule R300): RES0 bits first, then the opcode map. -/
def decode (w : Word) : Except DecodeError Instr :=
  if w.extractLsb' 8 24 = 0#24 then
    match lookupOpcode (opcodeField w) opcodeTable with
    | some i => .ok i
    | none => .error .unknownOpcode
  else .error .reservedBits

/-- The command read from an instruction of `nbits` bits whose bits are `w`, numbered as the opcode table numbers them: a
command is one 32-bit word (rule R304), with no byte order of its own (rule R221). -/
def decodeTableWord (nbits w : Nat) : Option Instr :=
  match decode (BitVec.ofNat 32 (w % 2 ^ nbits)) with
  | .ok i => some i
  | .error _ => none

/-- The opcode of a command (rule R302). -/
def opcode : Instr → Byte
  | .nop => 0x00
  | .clear => 0x01
  | .analyze => 0x10
  | .norm => 0x11
  | .build => 0x20
  | .gencode => 0x30
  | .pack => 0x40
  | .unpack => 0x41
  | .wrhdr => 0x50
  | .rdhdr => 0x51
  | .compress => 0x60
  | .decompress => 0x61

/-- The word of a command: OPCODE in [7:0], zero in [31:8] (rule R300). -/
def encode (i : Instr) : Word := 0#24 ++ opcode i

end Sys2Proof
end

