-- ==== Sys2Proof/Config.lean ====
section
/-! DEFINITION. What an instance of the core fixes (rules R20 to R23), and the free values: constants with no body, so that
nothing in Lean can evaluate one or prove a value of one. -/

namespace Sys2Proof

/-- COUNT_POLICY (rule R21): what NORM does with a count above 255. -/
inductive CountPolicy where
  /-- encoded 0, the spec's default: such a count becomes 255 -/
  | saturate
  /-- encoded 1: such a count is CapacityExceeded -/
  | fault
  deriving DecidableEq, Repr, Inhabited

/-- The two byte buffers (rules R200, R201). -/
inductive Buffer where
  | ibuf
  | obuf
  deriving DecidableEq, Repr

/-- The parameters of a core instance, fixed for its life (rules R20 to R23, R910). A buffer size is an integer from 1 to
2^32 - 1; it is held as the buffer's highest address, 0 to 2^32 - 2. -/
structure Params where
  magic : Byte
  policy : CountPolicy
  ibufLast : Fin 4294967295
  obufLast : Fin 4294967295
  deriving DecidableEq, Repr, Inhabited

/-- IBUF_SIZE (rule R22). -/
def Params.ibufSize (p : Params) : Nat := p.ibufLast.val + 1

/-- OBUF_SIZE (rule R23). -/
def Params.obufSize (p : Params) : Nat := p.obufLast.val + 1

/-- The parameters of the instance that `State.reset` is the reset state of. The spec leaves every one open ("A model must not
assume any particular value", rule R20), so the constant has no body. Log entry 1. -/
opaque Config.params : Params

/-- FREE VALUE: the byte at an address of a buffer that nothing has written since reset number `epoch` (rule R204: "an
arbitrary value at reset (a draw)"). Log entry 5. -/
opaque Config.resetByte (b : Buffer) (epoch addr : Nat) : Byte

/-- FREE VALUE: the OBUF byte at an address inside the write range of a failed command, at draw number `d` (rule R821: "a
model gives each one an arbitrary value"). Log entry 6. -/
opaque Config.failByte (d addr : Nat) : Byte

/-- FREE VALUE: what a host read of a register other than STATUS, CTRL and CFG returns while BUSY = 1, at draw number `d`
(rule R942), its RES0 bits included. A reserved offset is no register and reads 0 (rule R140). Log entry 7. -/
opaque Config.busyWord (d : Nat) : Word

/-- FREE VALUE: what a host read of IBUF or OBUF returns while BUSY = 1, at draw number `d` (rule R951). Log entry 7. -/
opaque Config.busyByte (d : Nat) : Byte

/-- FREE VALUE: how many core steps lie between the start of a command, at draw number `d`, and its completion step (rule R940:
"A model admits every finite latency"), whether its word is legal or not. Log entries 3 and 4. -/
opaque Config.latency (d : Nat) : Nat

end Sys2Proof
end

