-- ==== Sys2Proof/Machine/State.lean ====
section
/-! DEFINITION. The state of the core and of its host, as plain data, and the state right after reset (rules R100 to R170, R900). -/

namespace Sys2Proof.Machine

/-- A byte buffer's written bytes: (address, byte) pairs, addresses strictly rising (`Memory.wf` in Ops). An address it does not
list has no known value (rule R204). -/
abbrev Memory := List Host.Cell

/-- A table with one entry per symbol 0 … 255. -/
abbrev Table (α : Type) := Vector α 256

/-- An entry of the node arena (rule R111). -/
structure Node where
  /-- LEAF: true for a leaf -/
  leaf : Bool
  /-- SYM: the symbol of a leaf, 0 in an internal node -/
  sym : Byte
  /-- NFREQ: a leaf's count, or an internal node's summed frequency -/
  nfreq : BitVec 40
  /-- LEFT: the arena index of the 0-child, 0 in a leaf -/
  left : BitVec 9
  /-- RIGHT: the arena index of the 1-child, 0 in a leaf -/
  right : BitVec 9
  deriving DecidableEq, Repr

/-- An entry with every field 0 (rules R111, R450, R705). -/
def Node.zero : Node := { leaf := false, sym := 0, nfreq := 0, left := 0, right := 0 }

/-- A command between its start and its completion step: the latched command word (rule R160) and how many core steps are still
to come before the completion step (rule R940). -/
structure InFlight where
  word : Word
  latency : Nat
  deriving DecidableEq, Repr

/-- The width of a host register access, any number of bits: 32 is the one legal width (rules R215, R216, R221). -/
structure AccessWidth where
  bits : Nat
  deriving DecidableEq, Repr

/-- A 32-bit access, the only one that is not a bus error (rule R215). -/
abbrev AccessWidth.word : AccessWidth := { bits := 32 }

/-- One thing the host does on its turn (rules R6, R320). Register offsets are the 12 bits of the 4096-byte register space (rule
R202), buffer addresses are 32 bits (rule R203). -/
inductive HostOp where
  /-- a register read, `rd REG` -/
  | readReg (width : AccessWidth) (off : BitVec 12)
  /-- a register write, `wr REG, v`; at a width other than 32 bits it is a bus error, and `v` goes nowhere (rule R205) -/
  | writeReg (width : AccessWidth) (off : BitVec 12) (v : Word)
  /-- a byte read of a buffer, `ob` -/
  | readByte (b : Buffer) (addr : Word)
  /-- a byte write of a buffer, `ib` -/
  | writeByte (b : Buffer) (addr : Word) (v : Byte)
  /-- `poll`: reads STATUS, again on each later turn until BUSY = 0 -/
  | poll
  /-- waits until irq = 1, instead of polling (rule R911, step 4) -/
  | awaitIrq
  /-- makes no access on this turn -/
  | pause
  /-- the platform asserts and releases the reset input (rule R900) -/
  | reset
  deriving DecidableEq, Repr

/-- The error kinds a command completes with (rule R800). -/
inductive ErrorKind where
  | emptyInput
  | formatError
  | capacityExceeded
  | corruptStream
  | ioFailure
  | invalidFrequencyTable
  | missingCode
  | notReady
  | illegalCommand
  deriving DecidableEq, Repr

/-- What stops a run. Every one is a fault of the HOST, which rules R205, R215 and R951 ask for; no command raises one. -/
inductive Fault where
  /-- raised by a host access of a buffer at an address at or above its size (rule R205, a bus error); safe -/
  | bufferRange (b : Buffer)
  /-- raised by a host register access at an offset that is not a multiple of 4 (rule R205, a bus error); safe -/
  | registerMisaligned
  /-- raised by a host register access narrower than 32 bits (rule R205, a bus error); safe -/
  | registerNarrow
  /-- raised by a host register access wider than 32 bits (rule R215: "Any other register access is a bus error"); safe -/
  | registerWide
  /-- raised by a host write of a buffer while BUSY = 1 (rule R951: "a fault of the host"); safe -/
  | bufferHazard (b : Buffer)
  deriving DecidableEq, Repr

/-- What the model gives no meaning to. -/
inductive Refusal where
  /-- raised by an arm of exec whose command has no meaning yet; safe. No arm raises it: every command has its meaning. -/
  | notModelled (mnemonic : String)
  deriving DecidableEq, Repr

/-- The state of the core (rules R110 to R160), of the host, and the model's counters of free values. -/
structure State where
  /-- the instance's parameters (rules R20 to R23), two of which CFG shows (rule R123); nothing ever writes them (log entry 1) -/
  params : Params
  /-- FREQ[0..255] (rule R110) -/
  freq : Table (BitVec 32)
  /-- NODE[0..510] (rule R111) -/
  node : Vector Node 511
  /-- ROOT (rule R112) -/
  root : BitVec 9
  /-- NNODES (rule R112) -/
  nnodes : BitVec 10
  /-- CODE_LEN[0..255] (rule R113) -/
  codeLen : Table (BitVec 8)
  /-- CODE[0..255] (rule R113) -/
  code : Table Bits
  /-- TREE_V (rule R114) -/
  treeV : Bool
  /-- CODE_V (rule R115) -/
  codeV : Bool
  /-- STATUS.DONE (rule R121) -/
  done : Bool
  /-- STATUS.OVR (rule R121) -/
  ovr : Bool
  /-- STATUS.ERRCODE (rules R121, R800) -/
  errcode : BitVec 8
  /-- CTRL.IE (rule R122) -/
  ie : Bool
  /-- IN_LEN (rule R124) -/
  inLen : Word
  /-- IN_OFF (rule R125) -/
  inOff : Word
  /-- OUT_OFF (rule R126) -/
  outOff : Word
  /-- OUT_LEN (rule R127) -/
  outLen : Word
  /-- ORIG_SIZE (rule R128) -/
  origSize : Word
  /-- PAD.PAD (rule R129) -/
  pad : BitVec 3
  /-- ERR_INFO (rule R131) -/
  errInfo : Word
  /-- NBITS (rule R132) -/
  nbits : BitVec 40
  /-- SEL.INDEX (rule R134) -/
  sel : BitVec 9
  /-- IBUF (rule R200) -/
  ibuf : Memory
  /-- OBUF (rule R201) -/
  obuf : Memory
  /-- the command in flight; STATUS.BUSY = 1 exactly while there is one (rules R121, R160) -/
  inflight : Option InFlight
  /-- the model's own: what the host has still to do (log entry 2) -/
  host : List HostOp
  /-- the model's own: what the host's last read returned (log entry 8) -/
  rdata : Word
  /-- the model's own: how many free values have been drawn (log entry 8) -/
  draws : Nat
  /-- the model's own: which reset the unwritten bytes of the buffers date from (log entry 5) -/
  epoch : Nat
  deriving DecidableEq, Repr

/-- The state right after reset (rules R170, R900, R901): every register and array 0 or empty, no command in flight, nothing
known of the buffers, and whatever parameters the instance has. The last four fields are the model's own (log entry 8). -/
def State.reset : State where
  params := Config.params
  freq := Vector.replicate 256 0
  node := Vector.replicate 511 Node.zero
  root := 0
  nnodes := 0
  codeLen := Vector.replicate 256 0
  code := Vector.replicate 256 []
  treeV := false
  codeV := false
  done := false
  ovr := false
  errcode := 0
  ie := false
  inLen := 0
  inOff := 0
  outOff := 0
  outLen := 0
  origSize := 0
  pad := 0
  errInfo := 0
  nbits := 0
  sel := 0
  ibuf := []
  obuf := []
  inflight := none
  host := []
  rdata := 0
  draws := 0
  epoch := 0

end Sys2Proof.Machine
end

