-- ==== Sys2Proof/Machine/Ops.lean ====
section
/-! DEFINITION. The named operations over buffers, tables and the command protocol: starting a command, completing it with success,
and completing it with an error (the core's only trap entry, rule R824). There is no return from an error (rule R825): the host
acknowledges it through STATUS.DONE (`State.ackStatus` in Flags) or starts the next command. -/

namespace Sys2Proof.Machine

/-! ### Buffers -/

/-- What a memory says of an address it does not list: no value is known (rule R204). Log entry 5. -/
def Memory.unlisted : Option Byte := none

/-- The byte a memory lists at an address. -/
def Memory.get : Memory → Nat → Option Byte
  | [], _ => Memory.unlisted
  | (k, b) :: m, a => if k = a then some b else Memory.get m a

/-- The memory with one byte written, its addresses still rising. No byte equals `Memory.unlisted`, so a write removes nothing. -/
def Memory.write : Memory → Nat → Byte → Memory
  | [], a, v => [(a, v)]
  | (k, b) :: m, a, v =>
    if a < k then (a, v) :: (k, b) :: m
    else if a = k then (a, v) :: m
    else (k, b) :: Memory.write m a v

/-- MemWrite of rule R32: consecutive bytes from `a`, the first at the lowest address. -/
def Memory.writeBytes : Memory → Nat → List Byte → Memory
  | m, _, [] => m
  | m, a, v :: vs => Memory.writeBytes (m.write a v) (a + 1) vs

/-- The canonical form: addresses strictly rising. -/
abbrev Memory.wf (m : Memory) : Prop := m.Pairwise (fun c d => c.1 < d.1)

/-- Every listed address is one of the `size` addresses of the buffer (rules R200, R201). -/
abbrev Memory.within (m : Memory) (size : Nat) : Prop := ∀ c ∈ m, c.1 < size

/-- The written bytes of a buffer. -/
def State.memory (s : State) : Buffer → Memory
  | .ibuf => s.ibuf
  | .obuf => s.obuf

/-- The byte at an address of a buffer (rule R32's `MemRead`): the byte written last, and where none was written since reset, the
free value of rule R204. -/
def State.byteAt (s : State) (b : Buffer) (a : Nat) : Byte :=
  ((s.memory b).get a).getD (Config.resetByte b s.epoch a)

/-- The core's own write of OBUF (rule R201): `MemWrite(OBUF, a, n, v)`. -/
def State.putBytes (s : State) (a : Nat) (bytes : List Byte) : State :=
  { s with obuf := s.obuf.writeBytes a bytes }

/-- The OBUF bytes of [lo, hi) below OBUF_SIZE take arbitrary values (rules R821, R206): one free value each. Log entry 6. -/
def State.spoil (s : State) (lo hi : Nat) : State :=
  { s with
    obuf := s.obuf.writeBytes lo ((List.range (min hi s.params.obufSize - lo)).map fun k => Config.failByte s.draws (lo + k))
    draws := s.draws + 1 }

/-! ### Tables indexed by symbol -/

/-- Entry `b` of a table. -/
def Table.entry {α : Type} (t : Table α) (b : Byte) : α := t[b.toNat]'b.isLt

/-- The table with entry `b` replaced. -/
def Table.put {α : Type} (t : Table α) (b : Byte) (v : α) : Table α := t.set b.toNat v b.isLt

/-- The symbols 0 … 255, ascending. -/
def symbols : List Byte := (List.range 256).map (BitVec.ofNat 8)

/-- The table whose entry `b` is `f b`. -/
def Table.tabulate {α : Type} (f : Byte → α) : Table α := Vector.mk (Array.mk (symbols.map f)) (by simp [symbols])

/-- The table with `f` applied to every entry. -/
def Table.mapValues {α β : Type} (f : α → β) (t : Table α) : Table β :=
  Vector.mk (Array.mk (t.toArray.toList.map f)) (by simp)

/-- The entries of a table with their symbols, ascending. -/
def Table.rows {α : Type} (t : Table α) : List (Byte × α) := symbols.zip t.toArray.toList

/-! ### Errors (rules R800, R810) -/

/-- The ERRCODE of an error kind (rule R800). -/
def ErrorKind.code : ErrorKind → BitVec 8
  | .emptyInput => 1
  | .formatError => 2
  | .capacityExceeded => 3
  | .corruptStream => 4
  | .ioFailure => 5
  | .invalidFrequencyTable => 6
  | .missingCode => 7
  | .notReady => 8
  | .illegalCommand => 9

/-- An error and its detail word, `raise E(info)` of rule R33. -/
structure Failure where
  kind : ErrorKind
  info : Word
  deriving DecidableEq, Repr

/-- How a command, or one step of a composite command, ends: its results committed, or an error raised. The state beside an error
holds the commits of the sub-steps before it (rule R820) and the spoiled OBUF bytes (rule R821), nothing else. -/
inductive Run where
  | ok (s : State)
  | raised (f : Failure) (s : State)
  deriving DecidableEq, Repr

/-- The next step of a composite command: it runs on what the step before committed, and not after an error (rules R720, R823). -/
def Run.andThen (r : Run) (k : State → Run) : Run :=
  match r with
  | .ok s => k s
  | .raised f s => .raised f s

/-! ### The command protocol -/

/-- STATUS.BUSY (rule R121): a command has started and not completed. Log entry 9. -/
def State.busy (s : State) : Bool := s.inflight.isSome

/-- Command start (rule R822): BUSY 1, DONE 0, ERRCODE 0, ERR_INFO 0, with the word latched (rule R160). -/
def State.accept (s : State) (w : Word) (latency : Nat) : State :=
  { s with inflight := some { word := w, latency := latency }, done := false, errcode := 0, errInfo := 0 }

/-- Successful completion (rule R822): BUSY 0, DONE 1, "leaving ERRCODE = 0 and ERR_INFO = 0". Log entry 14. -/
def State.succeed (s : State) : State := { s with inflight := none, done := true }

/-- The failure rule (rule R820), the core's taking of an exception: it "writes exactly" ERRCODE, ERR_INFO, OUT_LEN 0, BUSY 0 and
DONE 1. -/
def State.failCommand (s : State) (f : Failure) : State :=
  { s with errcode := f.kind.code, errInfo := f.info, outLen := 0, inflight := none, done := true }

/-- The completion step of a command (rules R820, R822, R940). -/
def Run.complete : Run → State
  | .ok s => s.succeed
  | .raised f s => s.failCommand f

end Sys2Proof.Machine
end

