-- ==== Sys2Proof/Machine/Operands.lean ====
section
/-! DEFINITION. The operand forms of the commands (rule R303): the input bytes, the frequency table's readings, bit strings and their
packing, payload bits, and big-endian words. -/

namespace Sys2Proof.Machine

/-- IBUF[0 … n − 1], in order (rule R200). -/
def State.input (s : State) (n : Nat) : List Byte := (List.range n).map (s.byteAt .ibuf)

/-- The present symbols, ascending: s is present iff FREQ[s] ≥ 1 (rule R110). -/
def present (t : Table (BitVec 32)) : List Byte := ((Table.rows t).filter fun r => decide (1 ≤ r.2.toNat)).map Prod.fst

/-- `popcount_present(FREQ)` (rule R34). -/
def popcountPresent (t : Table (BitVec 32)) : Nat := (present t).length

/-- The least symbol whose count exceeds 255, if there is one (rules R420, R650). -/
def firstOver (t : Table (BitVec 32)) : Option Byte := ((Table.rows t).find? fun r => decide (255 < r.2.toNat)).map Prod.fst

/-- The detail word of a count that exceeds the format's field: 0x80000000 + s (rule R810). -/
def overInfo (b : Byte) : Word := BitVec.ofNat 32 (0x80000000 + b.toNat)

/-- The first failing capacity check, in the order of rule R811: the alphabet. -/
def alphabetFailure (t : Table (BitVec 32)) : Failure :=
  { kind := .capacityExceeded, info := BitVec.ofNat 32 (popcountPresent t) }

/-- The header's length for this table: 6 + 2T (rule R310). -/
def headerLength (t : Table (BitVec 32)) : Nat := 6 + 2 * popcountPresent t

/-! ### Bit strings (rules R31, R211) -/

/-- The byte of eight bits, the first one at bit 7. -/
def byteOfBits (p : Bits) : Byte := BitVec.ofNat 8 (natOfBits p)

/-- The first `n` bytes of a bit string. -/
def takeBytes : Nat → Bits → List Byte
  | 0, _ => []
  | n + 1, p => byteOfBits (p.take 8) :: takeBytes n (p.drop 8)

/-- `bits_to_bytes(p)`, for |p| a multiple of 8 (rule R31). -/
def bitsToBytes (p : Bits) : List Byte := takeBytes (p.length / 8) p

/-- `(8 - (total mod 8)) mod 8` (rule R550). -/
def padCount (total : Nat) : Nat := (8 - total % 8) % 8

/-- The bit string followed by its zero padding (rules R315, R553). -/
def padded (p : Bits) : Bits := p ++ List.replicate (padCount p.length) false

/-- Payload bit `k`: bit 7 − (k mod 8) of IBUF[IN_OFF + ⌊k/8⌋] (rule R601). -/
def State.payloadBit (s : State) (k : Nat) : Bool :=
  (s.byteAt .ibuf (s.inOff.toNat + k / 8)).getLsbD (7 - k % 8)

/-- The first `n` payload bits, in order. -/
def State.payloadBits (s : State) (n : Nat) : Bits := (List.range n).map s.payloadBit

/-! ### Big-endian words and the byte of rule R212 -/

/-- The word whose four bytes, most significant first, stand at IBUF[a … a + 3] (rule R210). -/
def State.inputWord (s : State) (a : Nat) : Word :=
  BitVec.ofNat 32 ((s.byteAt .ibuf a).toNat * 2 ^ 24 + (s.byteAt .ibuf (a + 1)).toNat * 2 ^ 16
    + (s.byteAt .ibuf (a + 2)).toNat * 2 ^ 8 + (s.byteAt .ibuf (a + 3)).toNat)

/-- A word as four bytes, most significant first (rule R210). -/
def wordBytes (w : Word) : List Byte :=
  [w.extractLsb' 24 8, w.extractLsb' 16 8, w.extractLsb' 8 8, w.extractLsb' 0 8]

/-- The Padding+TableSize byte, `P·32 + T` (rule R313). -/
def padSizeByte (pad : BitVec 3) (t : Nat) : Byte := BitVec.ofNat 8 (pad.toNat * 32 + t)

/-- P, bits [7:5] of that byte (rule R212). -/
def padField (b : Byte) : BitVec 3 := b.extractLsb' 5 3

/-- T, bits [4:0] of that byte (rule R212). -/
def sizeField (b : Byte) : Nat := (b.extractLsb' 0 5).toNat

end Sys2Proof.Machine
end

