-- ==== Sys2Proof/Machine/CodeGen.lean ====
section
/-! DEFINITION. The Code Table Generator: GENCODE (rule R500). -/

namespace Sys2Proof.Machine

/-- The depth-first `visit(i, p)` of rule R500: the leaves below entry `i`, each with its path, `p` being the path to `i`. A path
in a tree BUILD built visits an entry at most once, so 511 is enough fuel; log entry 11 says what stands here for an arena no BUILD
built. -/
def visit (node : Vector Node 511) : Nat → BitVec 9 → Bits → List (Byte × Bits)
  | 0, _, _ => []
  | fuel + 1, i, p =>
    match node[i.toNat]? with
    | none => []
    | some n =>
      if n.leaf then [(n.sym, p)]
      else visit node fuel n.left (p ++ [false]) ++ visit node fuel n.right (p ++ [true])

/-- The codes of the tree: "0" for a single leaf (rule R503), else each leaf's path (rule R501). -/
def treeCodes (node : Vector Node 511) (root : BitVec 9) : List (Byte × Bits) :=
  match node[root.toNat]? with
  | none => []
  | some n => if n.leaf then [(n.sym, [false])] else visit node 511 root []

/-- C' of rule R500: empty for a symbol with no leaf. -/
def codeTable (cs : List (Byte × Bits)) : Table Bits :=
  cs.foldl (fun t c => Table.put t c.1 c.2) (Table.tabulate fun _ => [])

/-- L' of rule R500: the length of each code. -/
def codeLengths (t : Table Bits) : Table (BitVec 8) := Table.mapValues (fun p => BitVec.ofNat 8 p.length) t

/-- GENCODE (rule R500). -/
def gencode (s : State) : Run :=
  if s.treeV then
    .ok { s with
      codeLen := codeLengths (codeTable (treeCodes s.node s.root))
      code := codeTable (treeCodes s.node s.root)
      codeV := true }
  else .raised { kind := .notReady, info := 1 } s

/-- The command GENCODE. -/
def execGencode (s : State) : Host.Outcome State Fault Refusal := .next (gencode s).complete

end Sys2Proof.Machine
end

