-- ==== Sys2Proof/Machine/Flags.lean ====
section
/-! DEFINITION. The flags: what STATUS reads, what a write of it clears, the validity flags and the interrupt output (rules R114,
R115, R121, R155, R840). The core has no condition codes (rule R155). -/

namespace Sys2Proof.Machine

/-- STATUS.ERR: 1 iff ERRCODE ≠ 0 (rule R121). Log entry 9. -/
def State.err (s : State) : Bool := s.errcode != 0

/-- STATUS as the host reads it (rule R121). -/
def State.statusWord (s : State) : Word :=
  0#16 ++ s.errcode ++ 0#2 ++ BitVec.ofBool s.codeV ++ BitVec.ofBool s.treeV ++ BitVec.ofBool s.err ++ BitVec.ofBool s.ovr
    ++ BitVec.ofBool s.done ++ BitVec.ofBool s.busy

/-- A host write of STATUS: a 1 in bit 1 clears DONE, a 1 in bit 2 clears OVR, nothing else is written (rules R121, R950). -/
def State.ackStatus (s : State) (v : Word) : State :=
  { s with done := s.done && !v.getLsbD 1, ovr := s.ovr && !v.getLsbD 2 }

/-- FREQ has been written: neither the tree nor the code table is valid any more (rules R114, R115). -/
def State.invalidate (s : State) : State := { s with treeV := false, codeV := false }

/-- `irq = STATUS.DONE AND CTRL.IE` (rule R840). -/
def State.irq (s : State) : Bool := s.done && s.ie

end Sys2Proof.Machine
end

