-- ==== Sys2Proof/Machine/Container.lean ====
section
/-! DEFINITION. The Container Codec: WRHDR (rule R650) and RDHDR (rule R670), over container format L1 (rule R310). -/

namespace Sys2Proof.Machine

/-- The table's entries, ascending, symbol byte then count byte (rules R314, R651). -/
def entryBytes (t : Table (BitVec 32)) : List Byte := (present t).flatMap fun b => [b, (t.entry b).setWidth 8]

/-- The header of rule R310. -/
def headerBytes (magic : Byte) (origSize : Word) (pad : BitVec 3) (t : Table (BitVec 32)) : List Byte :=
  magic :: wordBytes origSize ++ padSizeByte pad (popcountPresent t) :: entryBytes t

/-- A WRHDR that fails: OBUF[0 … 6 + 2T − 1] is unspecified (rule R821). Log entry 6. -/
def wrhdrFails (s : State) (f : Failure) : Run := .raised f (s.spoil 0 (headerLength s.freq))

/-- WRHDR (rule R650). Its checks do not depend on COUNT_POLICY (rule R653). -/
def wrhdr (s : State) : Run :=
  if 31 < popcountPresent s.freq then wrhdrFails s (alphabetFailure s.freq)
  else
    match firstOver s.freq with
    | some b => wrhdrFails s { kind := .capacityExceeded, info := overInfo b }
    | none =>
      if s.params.obufSize < headerLength s.freq then wrhdrFails s { kind := .ioFailure, info := 1 }
      else
        .ok { s.putBytes 0 (headerBytes s.params.magic s.origSize s.pad s.freq) with
          outLen := BitVec.ofNat 32 (max s.outLen.toNat (headerLength s.freq)) }

/-- FormatError, with its subcode in [3:0] and the entry index in [12:8] (rule R810). -/
def formatFailure (subcode entry : Nat) : Failure :=
  { kind := .formatError, info := BitVec.ofNat 32 (subcode + 256 * entry) }

/-- The `t` table entries that follow the fixed bytes (rule R310). -/
def State.inputEntries (s : State) (t : Nat) : List (Byte × Byte) :=
  (List.range t).map fun j => (s.byteAt .ibuf (6 + 2 * j), s.byteAt .ibuf (7 + 2 * j))

/-- The entries from number `j` on, checked one by one, the zero count first (rule R674). -/
def readEntries : Nat → List (Byte × Byte) → List Byte → Table (BitVec 32) → Except Failure (Table (BitVec 32))
  | _, [], _, t => .ok t
  | j, (b, c) :: rest, seen, t =>
    if c = 0 then .error (formatFailure 3 j)
    else if seen.contains b then .error (formatFailure 4 j)
    else readEntries (j + 1) rest (b :: seen) (t.put b (c.setWidth 32))

/-- RDHDR (rule R670). -/
def rdhdr (s : State) : Run :=
  let size := sizeField (s.byteAt .ibuf 5)
  if s.params.ibufSize < s.inLen.toNat then .raised { kind := .ioFailure, info := 0 } s
  else if s.inLen.toNat < 1 then .raised (formatFailure 1 0) s
  else if s.byteAt .ibuf 0 ≠ s.params.magic then .raised (formatFailure 2 0) s
  else if s.inLen.toNat < 6 then .raised (formatFailure 1 0) s
  else if s.inLen.toNat < 6 + 2 * size then .raised (formatFailure 1 0) s
  else
    match readEntries 0 (s.inputEntries size) [] (Table.tabulate fun _ => 0) with
    | .error f => .raised f s
    | .ok t =>
      .ok { s.invalidate with
        freq := t
        origSize := s.inputWord 1
        pad := padField (s.byteAt .ibuf 5)
        inOff := BitVec.ofNat 32 (6 + 2 * size) }

/-- The command WRHDR. -/
def execWrhdr (s : State) : Host.Outcome State Fault Refusal := .next (wrhdr s).complete

/-- The command RDHDR. -/
def execRdhdr (s : State) : Host.Outcome State Fault Refusal := .next (rdhdr s).complete

end Sys2Proof.Machine
end

