-- ==== Sys2Proof/Machine/Frequency.lean ====
section
/-! DEFINITION. The Frequency Analyzer and the capacity normalisation: ANALYZE (rule R400) and NORM (rule R420). -/

namespace Sys2Proof.Machine

/-- `cnt[s]` for every symbol: every input byte counted once (rule R400). -/
def countBytes (xs : List Byte) : Table (BitVec 32) := Table.tabulate fun b => BitVec.ofNat 32 (xs.count b)

/-- ANALYZE (rule R400). -/
def analyze (s : State) : Run :=
  if s.params.ibufSize < s.inLen.toNat then .raised { kind := .ioFailure, info := 0 } s
  else if s.inLen = 0 then .raised { kind := .emptyInput, info := 0 } s
  else
    .ok { s with
      freq := countBytes (s.input s.inLen.toNat)
      origSize := s.inLen
      treeV := false
      codeV := false }

/-- `min(FREQ[s], 255)` for every symbol (rules R420, R421). -/
def saturate (t : Table (BitVec 32)) : Table (BitVec 32) :=
  Table.mapValues (fun c => if 255 < c.toNat then 255 else c) t

/-- NORM (rule R420). -/
def norm (s : State) : Run :=
  if 31 < popcountPresent s.freq then .raised (alphabetFailure s.freq) s
  else
    match s.params.policy with
    | .fault =>
      match firstOver s.freq with
      | some b => .raised { kind := .capacityExceeded, info := overInfo b } s
      | none => .ok s.invalidate
    | .saturate => .ok { s.invalidate with freq := saturate s.freq }

/-- The command ANALYZE. -/
def execAnalyze (s : State) : Host.Outcome State Fault Refusal := .next (analyze s).complete

/-- The command NORM. -/
def execNorm (s : State) : Host.Outcome State Fault Refusal := .next (norm s).complete

end Sys2Proof.Machine
end

