-- ==== Sys2Proof/Machine/Pack.lean ====
section
/-! DEFINITION. The Bit Packer: PACK (rule R550). -/

namespace Sys2Proof.Machine

/-- The codes of the input bytes, concatenated in input order (rule R551). -/
def codeStream (code : Table Bits) (xs : List Byte) : Bits := xs.flatMap fun b => code.entry b

/-- The packed payload: MSB first, zero padding (rules R552, R553). -/
def packBits (stream : Bits) : List Byte := bitsToBytes (padded stream)

/-- The least input offset whose byte has CODE_LEN = 0 (rule R554). -/
def firstMissing (codeLen : Table (BitVec 8)) (xs : List Byte) : Option Nat :=
  xs.findIdx? fun b => codeLen.entry b == 0

/-- A PACK that fails: OBUF[OUT_OFF … OUT_OFF + nbytes − 1] is unspecified (rules R557, R821), nbytes being what the codes as they
stand give for the bytes of the input that exist. Log entry 6. -/
def packFails (s : State) (f : Failure) : Run :=
  let total := (codeStream s.code (s.input (min s.inLen.toNat s.params.ibufSize))).length
  .raised f (s.spoil s.outOff.toNat (s.outOff.toNat + ceilDiv8 total))

/-- PACK (rule R550). -/
def pack (s : State) : Run :=
  if s.codeV = false then packFails s { kind := .notReady, info := 2 }
  else if s.params.ibufSize < s.inLen.toNat then packFails s { kind := .ioFailure, info := 0 }
  else
    let xs := s.input s.inLen.toNat
    match firstMissing s.codeLen xs with
    | some i => packFails s { kind := .missingCode, info := BitVec.ofNat 32 i }
    | none =>
      let stream := codeStream s.code xs
      let bytes := packBits stream
      if s.params.obufSize < s.outOff.toNat + bytes.length then packFails s { kind := .ioFailure, info := 1 }
      else
        .ok { s.putBytes s.outOff.toNat bytes with
          pad := BitVec.ofNat 3 (padCount stream.length)
          nbits := BitVec.ofNat 40 stream.length
          outLen := BitVec.ofNat 32 (s.outOff.toNat + bytes.length) }

/-- The command PACK. -/
def execPack (s : State) : Host.Outcome State Fault Refusal := .next (pack s).complete

end Sys2Proof.Machine
end

