-- ==== Sys2Proof/Machine/Tree.lean ====
section
/-! DEFINITION. The Tree Builder: BUILD (rule R450). -/

namespace Sys2Proof.Machine

/-- The leaf of a symbol with its count (rule R450). -/
def leafNode (t : Table (BitVec 32)) (b : Byte) : Node :=
  { leaf := true, sym := b, nfreq := (t.entry b).setWidth 40, left := 0, right := 0 }

/-- The leaves in ascending symbol order, leaf number k at index k (rule R451). -/
def leaves (t : Table (BitVec 32)) : List Node := (present t).map (leafNode t)

/-- `N'[i].NFREQ`. -/
def nodeFreq (arena : List Node) (i : Nat) : Nat := (arena.getD i Node.zero).nfreq.toNat

/-- The lexicographic order of the keys (NFREQ, sequence number) (rule R453). -/
def keyLess (arena : List Node) (i j : Nat) : Bool :=
  decide (nodeFreq arena i < nodeFreq arena j ∨ (nodeFreq arena i = nodeFreq arena j ∧ i < j))

/-- The index of least key among `i` and the list. -/
def leastFrom (arena : List Node) : Nat → List Nat → Nat
  | i, [] => i
  | i, j :: js => leastFrom arena (if keyLess arena j i then j else i) js

/-- The unmerged index of least key, if any is left (rule R453). -/
def leastOf (arena : List Node) : List Nat → Option Nat
  | [] => none
  | i :: is => some (leastFrom arena i is)

/-- The node that merges `a` and `b`: the first one removed is the 0-child (rule R454). -/
def mergedNode (arena : List Node) (a b : Nat) : Node :=
  { leaf := false
    sym := 0
    nfreq := BitVec.ofNat 40 (nodeFreq arena a + nodeFreq arena b)
    left := BitVec.ofNat 9 a
    right := BitVec.ofNat 9 b }

/-- The merge loop of rule R450, at most `fuel` merges: while two unmerged nodes are left, the two of least key become children of
the next arena entry (rule R452). -/
def mergeLoop : Nat → List Node → List Nat → List Node × List Nat
  | 0, arena, active => (arena, active)
  | fuel + 1, arena, active =>
    match leastOf arena active with
    | none => (arena, active)
    | some a =>
      match leastOf arena (active.erase a) with
      | none => (arena, active)
      | some b =>
        mergeLoop fuel (arena ++ [mergedNode arena a b]) ((active.erase a).erase b ++ [arena.length])

/-- The arena entries and the root of the tree of a frequency table; none for the empty table (rule R450). `n` leaves need
n − 1 merges (rule R456), so `n` is enough fuel. -/
def huffmanTree (t : Table (BitVec 32)) : Option (List Node × Nat) :=
  match leaves t with
  | [] => none
  | l :: ls =>
    let r := mergeLoop (ls.length + 1) (l :: ls) (List.range (ls.length + 1))
    some (r.1, r.2.headD 0)

/-- NODE as BUILD commits it: the entries used, and every other one zero (rules R450, R462). -/
def arenaOf (arena : List Node) : Vector Node 511 :=
  Vector.mk (Array.mk ((List.range 511).map fun i => arena.getD i Node.zero)) (by simp)

/-- BUILD (rule R450). -/
def build (s : State) : Run :=
  match huffmanTree s.freq with
  | none => .raised { kind := .invalidFrequencyTable, info := 0 } s
  | some (arena, r) =>
    .ok { s with
      node := arenaOf arena
      root := BitVec.ofNat 9 r
      nnodes := BitVec.ofNat 10 arena.length
      treeV := true
      codeV := false }

/-- The command BUILD. -/
def execBuild (s : State) : Host.Outcome State Fault Refusal := .next (build s).complete

end Sys2Proof.Machine
end

