-- ==== Sys2Proof/Machine/Unpack.lean ====
section
/-! DEFINITION. The Bit Unpacker: UNPACK (rule R600). -/

namespace Sys2Proof.Machine

/-- The decoding loop of rule R600 from cursor `cur`, with `n` symbols still to emit, over the meaningful bits not yet consumed: the
symbols it emits and how many bits it consumes. It stops at `n` symbols or at the end of the bits, "whichever comes first" (rule
R604). The arena has no entry 511 (rule R111): a cursor that would go there is the missing branch of rule R607, and the loop stops
short, which is CorruptStream. Log entry 11. -/
def decodeLoop (node : Vector Node 511) (root : BitVec 9) : Bits → BitVec 9 → Nat → List Byte × Nat
  | _, _, 0 => ([], 0)
  | [], _, _ + 1 => ([], 0)
  | bit :: bits, cur, n + 1 =>
    match node[cur.toNat]? with
    | none => ([], 0)
    | some c =>
      let next := if bit then c.right else c.left
      match node[next.toNat]? with
      | none => ([], 1)
      | some d =>
        if d.leaf then
          let r := decodeLoop node root bits root n
          (d.sym :: r.1, r.2 + 1)
        else
          let r := decodeLoop node root bits next (n + 1)
          (r.1, r.2 + 1)

/-- An UNPACK that fails: OBUF[0 … N − 1] is unspecified (rules R611, R821). Log entry 6. -/
def unpackFails (s : State) (f : Failure) : Run := .raised f (s.spoil 0 s.origSize.toNat)

/-- The commit of rule R600. -/
def unpackCommit (s : State) (out : List Byte) (consumed : Nat) : State :=
  { s.putBytes 0 out with nbits := BitVec.ofNat 40 consumed, outLen := s.origSize }

/-- UNPACK on a tree of two or more leaves: the geometry checks (rule R609), the loop, the shortfall (rule R606). -/
def unpackBits (s : State) : Run :=
  if s.inLen.toNat < s.inOff.toNat then unpackFails s { kind := .corruptStream, info := 0 }
  else if s.inLen.toNat - s.inOff.toNat = 0 ∧ s.pad ≠ 0 then unpackFails s { kind := .corruptStream, info := 0 }
  else
    let meaningful := 8 * (s.inLen.toNat - s.inOff.toNat) - s.pad.toNat
    let r := decodeLoop s.node s.root (s.payloadBits meaningful) s.root s.origSize.toNat
    if r.1.length < s.origSize.toNat then
      unpackFails s { kind := .corruptStream, info := BitVec.ofNat 32 r.1.length }
    else .ok (unpackCommit s r.1 r.2)

/-- Whether the tree is a single leaf, and its symbol (rule R605). -/
def singleLeaf (s : State) : Option Byte :=
  match s.node[s.root.toNat]? with
  | none => none
  | some n => if n.leaf then some n.sym else none

/-- UNPACK (rule R600). -/
def unpack (s : State) : Run :=
  if s.treeV = false then unpackFails s { kind := .notReady, info := 1 }
  else if s.params.ibufSize < s.inLen.toNat then unpackFails s { kind := .ioFailure, info := 0 }
  else if s.params.obufSize < s.origSize.toNat then unpackFails s { kind := .ioFailure, info := 1 }
  else
    match singleLeaf s with
    | some b => .ok (unpackCommit s (List.replicate s.origSize.toNat b) 0)
    | none => unpackBits s

/-- The command UNPACK. -/
def execUnpack (s : State) : Host.Outcome State Fault Refusal := .next (unpack s).complete

end Sys2Proof.Machine
end

