-- ==== Sys2Proof/Machine/Control.lean ====
section
/-! DEFINITION. NOP (rule R700), CLEAR (rule R705), the composite commands COMPRESS (rule R720) and DECOMPRESS (rule R730), and
what an illegal command word does (rule R740). -/

namespace Sys2Proof.Machine

/-- NOP commits nothing (rule R700). -/
def nop (s : State) : Run := .ok s

/-- CLEAR (rule R705): not CTRL, IN_LEN, IBUF or OBUF. -/
def clear (s : State) : Run :=
  .ok { s with
    freq := Table.tabulate fun _ => 0
    codeLen := Table.tabulate fun _ => 0
    code := Table.tabulate fun _ => []
    node := Vector.replicate 511 Node.zero
    root := 0
    nnodes := 0
    treeV := false
    codeV := false
    inOff := 0
    outOff := 0
    outLen := 0
    origSize := 0
    pad := 0
    nbits := 0
    sel := 0
    ovr := false }

/-- COMPRESS's own step: OUT_OFF <- 6 + 2*popcount_present(FREQ) (rule R720). -/
def setPayloadOffset (s : State) : Run := .ok { s with outOff := BitVec.ofNat 32 (headerLength s.freq) }

/-- COMPRESS: "each step is the named command's rule. It commits before the next step starts" (rule R720). -/
def compress (s : State) : Run :=
  (((((analyze s).andThen norm).andThen build).andThen gencode).andThen setPayloadOffset).andThen pack
    |>.andThen wrhdr

/-- DECOMPRESS (rule R730). -/
def decompress (s : State) : Run := ((rdhdr s).andThen build).andThen unpack

/-- An illegal command word: IllegalCommand, with the word as ERR_INFO (rule R740). -/
def illegalWord (w : Word) (s : State) : Run := .raised { kind := .illegalCommand, info := w } s

/-- The command NOP. -/
def execNop (s : State) : Host.Outcome State Fault Refusal := .next (nop s).complete

/-- The command CLEAR. -/
def execClear (s : State) : Host.Outcome State Fault Refusal := .next (clear s).complete

/-- The command COMPRESS. -/
def execCompress (s : State) : Host.Outcome State Fault Refusal := .next (compress s).complete

/-- The command DECOMPRESS. -/
def execDecompress (s : State) : Host.Outcome State Fault Refusal := .next (decompress s).complete

end Sys2Proof.Machine
end

