-- ==== Sys2Proof/Machine/Dispatch.lean ====
section
/-! DEFINITION. The meaning of each command, one arm per constructor of Instr. -/

namespace Sys2Proof.Machine

def exec (i : Instr) (s : State) : Host.Outcome State Fault Refusal :=
  match i with
  | .nop => Sys2Proof.Machine.execNop s
  | .clear => Sys2Proof.Machine.execClear s
  | .analyze => Sys2Proof.Machine.execAnalyze s
  | .norm => Sys2Proof.Machine.execNorm s
  | .build => Sys2Proof.Machine.execBuild s
  | .gencode => Sys2Proof.Machine.execGencode s
  | .pack => Sys2Proof.Machine.execPack s
  | .unpack => Sys2Proof.Machine.execUnpack s
  | .wrhdr => Sys2Proof.Machine.execWrhdr s
  | .rdhdr => Sys2Proof.Machine.execRdhdr s
  | .compress => Sys2Proof.Machine.execCompress s
  | .decompress => Sys2Proof.Machine.execDecompress s

end Sys2Proof.Machine
end

