-- ==== Sys2Proof/Machine/Registers.lean ====
section
/-! DEFINITION. The register block (section 3 of spec/10_state.md, rules R120 to R151): which register an offset is, what a read of
it returns and what a write of it does while the core is idle. -/

namespace Sys2Proof.Machine

/-- The registers of the register block. -/
inductive Reg where
  | cmd
  | status
  | ctrl
  | cfg
  | inLen
  | inOff
  | outOff
  | outLen
  | origSize
  | pad
  | tsize
  | errInfo
  | nbitsLo
  | nbitsHi
  | treeInfo
  | sel
  | codeLen
  | codeWord (k : Fin 8)
  | nodeKind
  | nodeFreqLo
  | nodeFreqHi
  | nodeChild
  | freq (b : Byte)
  | reserved
  deriving DecidableEq, Repr

/-- The single registers and their offsets, in the order of the spec's table. -/
def registerMap : List (Nat × Reg) :=
  [(0x000, .cmd), (0x004, .status), (0x008, .ctrl), (0x00C, .cfg), (0x010, .inLen), (0x014, .inOff), (0x018, .outOff),
   (0x01C, .outLen), (0x020, .origSize), (0x024, .pad), (0x028, .tsize), (0x02C, .errInfo), (0x030, .nbitsLo),
   (0x034, .nbitsHi), (0x038, .treeInfo), (0x040, .sel), (0x044, .codeLen), (0x068, .nodeKind), (0x06C, .nodeFreqLo),
   (0x070, .nodeFreqHi), (0x074, .nodeChild)]

/-- The register a map gives for an offset; every other offset is reserved (rule R140). -/
def lookupReg (off : Nat) : List (Nat × Reg) → Reg
  | [] => .reserved
  | (o, r) :: rows => if off = o then r else lookupReg off rows

/-- The register at an aligned offset. -/
def regAt (off : BitVec 12) : Reg :=
  if 0x400 ≤ off.toNat ∧ off.toNat < 0x800 then .freq (BitVec.ofNat 8 ((off.toNat - 0x400) / 4))
  else if 0x048 ≤ off.toNat ∧ off.toNat < 0x068 then .codeWord (Fin.ofNat 8 ((off.toNat - 0x048) / 4))
  else lookupReg off.toNat registerMap

/-- CFG.POLICY (rule R123). -/
def policyBit : CountPolicy → BitVec 1
  | .saturate => 0
  | .fault => 1

/-- The symbol the CODE window shows, if SEL.INDEX ≤ 255 (rule R134). -/
def State.selectedSymbol (s : State) : Option Byte := if s.sel.toNat ≤ 255 then some (s.sel.setWidth 8) else none

/-- The arena entry the NODE window shows, if SEL.INDEX < NNODES (rules R137 to R139). -/
def State.selectedNode (s : State) : Option Node :=
  if s.sel.toNat < s.nnodes.toNat then s.node[s.sel.toNat]? else none

/-- Code bit `j` of a symbol, 0 beyond its code's length (rule R136). -/
def State.codeBit (s : State) (b : Byte) (j : Nat) : Bool :=
  decide (j < (s.codeLen.entry b).toNat) && (s.code.entry b).getD j false

/-- CODE_Wk: code bit 32k + i at bit 31 − i (rule R136). -/
def State.codeWindow (s : State) (k : Nat) : Word :=
  match s.selectedSymbol with
  | none => 0
  | some b => BitVec.ofNat 32 (natOfBits ((List.range 32).map fun i => s.codeBit b (32 * k + i)))

/-- CODE_LEN_R (rule R135). -/
def State.codeLenWindow (s : State) : Word :=
  match s.selectedSymbol with
  | none => 0
  | some b => (s.codeLen.entry b).setWidth 32

/-- NODE_KIND (rule R137). -/
def State.nodeKindWord (s : State) : Word :=
  match s.selectedNode with
  | none => 0
  | some n => 0#16 ++ n.sym ++ 0#6 ++ BitVec.ofBool n.leaf ++ 1#1

/-- NODE_FREQ_LO (rule R138). -/
def State.nodeFreqLoWord (s : State) : Word :=
  match s.selectedNode with
  | none => 0
  | some n => n.nfreq.extractLsb' 0 32

/-- NODE_FREQ_HI (rule R138). -/
def State.nodeFreqHiWord (s : State) : Word :=
  match s.selectedNode with
  | none => 0
  | some n => 0#24 ++ n.nfreq.extractLsb' 32 8

/-- NODE_CHILD (rule R139). -/
def State.nodeChildWord (s : State) : Word :=
  match s.selectedNode with
  | none => 0
  | some n => 0#7 ++ n.right ++ 0#7 ++ n.left

/-- What a read of a register returns while the core is idle, with no side effect (rule R217). STATUS, CTRL and CFG read so while
it is busy too (rule R942), and so do the reserved offsets, which read 0 (rule R140). -/
def readReg (s : State) : Reg → Word
  | .cmd => 0
  | .status => s.statusWord
  | .ctrl => 0#31 ++ BitVec.ofBool s.ie
  | .cfg => 0#23 ++ policyBit s.params.policy ++ s.params.magic
  | .inLen => s.inLen
  | .inOff => s.inOff
  | .outOff => s.outOff
  | .outLen => s.outLen
  | .origSize => s.origSize
  | .pad => s.pad.setWidth 32
  | .tsize => BitVec.ofNat 32 (popcountPresent s.freq)
  | .errInfo => s.errInfo
  | .nbitsLo => s.nbits.extractLsb' 0 32
  | .nbitsHi => 0#24 ++ s.nbits.extractLsb' 32 8
  | .treeInfo => 0#6 ++ s.nnodes ++ 0#7 ++ s.root
  | .sel => s.sel.setWidth 32
  | .codeLen => s.codeLenWindow
  | .codeWord k => s.codeWindow k.val
  | .nodeKind => s.nodeKindWord
  | .nodeFreqLo => s.nodeFreqLoWord
  | .nodeFreqHi => s.nodeFreqHiWord
  | .nodeChild => s.nodeChildWord
  | .freq b => s.freq.entry b
  | .reserved => 0

/-- Whether a read of the offset returns its current value while BUSY = 1: the three registers of rule R942, and the reserved
offsets, which are no registers and read 0 at all times (rule R140; "Not unspecified", 93_implementation_defined.md 2.11). -/
def readableWhileBusy : Reg → Bool
  | .status | .ctrl | .cfg | .reserved => true
  | .cmd | .inLen | .inOff | .outOff | .outLen | .origSize | .pad | .tsize | .errInfo | .nbitsLo | .nbitsHi => false
  | .treeInfo | .sel | .codeLen | .codeWord _ | .nodeKind | .nodeFreqLo | .nodeFreqHi | .nodeChild => false
  | .freq _ => false

/-- A write of CMD while BUSY = 0 "is accepted. It starts the command … whether the word is legal or not" (rule R941). How many core
steps lie before its completion step is a free value, of every finite size, for a legal and an illegal word alike (rule R940). Log
entries 3 and 4. -/
def State.startCommand (s : State) (w : Word) : State :=
  { s.accept w (Config.latency s.draws) with draws := s.draws + 1 }

/-- A write of a register while the core is idle: "exactly the effects given in rule R120 to rule R150 and no other" (rule R151).
Read-only and reserved ones ignore it (rule R140). -/
def writeReg (s : State) (v : Word) : Reg → State
  | .cmd => s.startCommand v
  | .status => s.ackStatus v
  | .ctrl => { s with ie := v.getLsbD 0 }
  | .inLen => { s with inLen := v }
  | .inOff => { s with inOff := v }
  | .outOff => { s with outOff := v }
  | .origSize => { s with origSize := v }
  | .pad => { s with pad := v.extractLsb' 0 3 }
  | .sel => { s with sel := v.extractLsb' 0 9 }
  | .freq b => { s.invalidate with freq := s.freq.put b v }
  | .cfg | .outLen | .tsize | .errInfo | .nbitsLo | .nbitsHi | .treeInfo => s
  | .codeLen | .codeWord _ | .nodeKind | .nodeFreqLo | .nodeFreqHi | .nodeChild | .reserved => s

/-- A write of a register while BUSY = 1 (rule R950): STATUS is honoured, every other write is ignored and sets OVR. That a write of
a reserved offset, where no register is, sets OVR too is the model's reading of rule R140: log entry 21. -/
def writeRegBusy (s : State) (v : Word) : Reg → State
  | .status => s.ackStatus v
  | .cmd | .ctrl | .cfg | .inLen | .inOff | .outOff | .outLen | .origSize | .pad | .tsize => { s with ovr := true }
  | .errInfo | .nbitsLo | .nbitsHi | .treeInfo | .sel | .codeLen | .codeWord _ | .nodeKind => { s with ovr := true }
  | .nodeFreqLo | .nodeFreqHi | .nodeChild | .freq _ | .reserved => { s with ovr := true }

end Sys2Proof.Machine
end

