-- ==== Sys2Proof/Machine/HostAccess.lean ====
section
/-! DEFINITION. What one turn of the host does (rules R6, R205, R215, R230, R900, R942, R950, R951). -/

namespace Sys2Proof.Machine

/-- The size of a buffer (rules R22, R23). -/
def bufferSize (p : Params) : Buffer → Nat
  | .ibuf => p.ibufSize
  | .obuf => p.obufSize

/-- Why a register access is a bus error, if it is (rule R205): it "must be 32-bit and 4-byte aligned. Any other register access is a
bus error" (rule R215). -/
def registerFault (width : AccessWidth) (off : BitVec 12) : Option Fault :=
  if off.toNat % 4 ≠ 0 then some .registerMisaligned
  else if width.bits < 32 then some .registerNarrow
  else if 32 < width.bits then some .registerWide
  else none

/-- A register read: its value, or while BUSY = 1 a free value for every register but STATUS, CTRL and CFG (rule R942, log entry 7);
a reserved offset reads 0 then too (rule R140). That the free value is the whole word, the RES0 bits of the register included, is the
model's reading of rule R942: log entry 7. -/
def hostReadReg (s : State) (r : Reg) : State :=
  if s.busy && !readableWhileBusy r then { s with rdata := Config.busyWord s.draws, draws := s.draws + 1 }
  else { s with rdata := readReg s r }

/-- A register write (rules R151, R950). -/
def hostWriteReg (s : State) (r : Reg) (v : Word) : State :=
  if s.busy then writeRegBusy s v r else writeReg s v r

/-- A byte read of a buffer, or while BUSY = 1 a free value (rule R951). -/
def hostReadByte (s : State) (b : Buffer) (a : Nat) : State :=
  if s.busy then { s with rdata := (Config.busyByte s.draws).setWidth 32, draws := s.draws + 1 }
  else { s with rdata := (s.byteAt b a).setWidth 32 }

/-- A byte write of a buffer (rules R200, R201). -/
def hostWriteByte (s : State) (a : Nat) (v : Byte) : Buffer → State
  | .ibuf => { s with ibuf := s.ibuf.write a v }
  | .obuf => { s with obuf := s.obuf.write a v }

/-- The reset event (rules R170, R204, R900): every state element of the core at its reset value, a command in flight abandoned,
every buffer byte a new free value. The parameters are fixed (rule R910). What the host has still to do, and what it has read, are not the core's. Log entry 16. -/
def State.hostReset (s : State) : State :=
  { State.reset with params := s.params, host := s.host, rdata := s.rdata, draws := s.draws, epoch := s.epoch + 1 }

/-- `poll`: one read of STATUS, and again on the next turn while BUSY = 1 (rule R320). -/
def State.hostPoll (s : State) : State :=
  if s.busy then { s with rdata := s.statusWord, host := .poll :: s.host } else { s with rdata := s.statusWord }

/-- One thing the host does, `s.host` being what it does after it. A bus error (rule R205) is one while BUSY = 1 too, before the
rules for that case: log entry 15. -/
def hostAccess (op : HostOp) (s : State) : Host.Outcome State Fault Refusal :=
  match op with
  | .readReg width off =>
    match registerFault width off with
    | some f => .fault f
    | none => .next (hostReadReg s (regAt off))
  | .writeReg width off v =>
    match registerFault width off with
    | some f => .fault f
    | none => .next (hostWriteReg s (regAt off) v)
  | .readByte b a =>
    if bufferSize s.params b ≤ a.toNat then .fault (.bufferRange b) else .next (hostReadByte s b a.toNat)
  | .writeByte b a v =>
    if bufferSize s.params b ≤ a.toNat then .fault (.bufferRange b)
    else if s.busy then .fault (.bufferHazard b)
    else .next (hostWriteByte s a.toNat v b)
  | .poll => .next s.hostPoll
  | .awaitIrq => .next (if s.irq then s else { s with host := .awaitIrq :: s.host })
  | .pause => .next s
  | .reset => .next s.hostReset

/-- The host's turn: the first thing it has still to do, or nothing (rule R855: the core is idle "and needs nothing to wake it
except a CMD write"). -/
def hostTurn (s : State) : Host.Outcome State Fault Refusal :=
  match s.host with
  | [] => .next s
  | op :: ops => hostAccess op { s with host := ops }

end Sys2Proof.Machine
end

