-- ==== Sys2Proof/Machine/Sequencer.lean ====
section
/-! DEFINITION. Whose turn it is, and the completion step of the command in flight (rules R230, R940). -/

namespace Sys2Proof.Machine

/-- The completion step of a command word: the command it decodes to, or IllegalCommand (rules R301, R740). -/
def completeWord (w : Word) (s : State) : Host.Outcome State Fault Refusal :=
  match decode w with
  | .ok i => exec i s
  | .error _ => .next (illegalWord w s).complete

/-- One step: with no command in flight, or with some of its latency still to come, it is the host's turn; else the command in
flight completes (rule R940). -/
def advance (s : State) : Host.Outcome State Fault Refusal :=
  match s.inflight with
  | none => hostTurn s
  | some c =>
    match c.latency with
    | 0 => completeWord c.word s
    | n + 1 => hostTurn { s with inflight := some { word := c.word, latency := n } }

end Sys2Proof.Machine
end

