-- ==== Sys2Proof/Machine/Step.lean ====
section
/-! DEFINITION. One step of the machine, and the placing of a command where the next step runs it. -/

namespace Sys2Proof.Machine

/-- One step (rules R230, R940). -/
def step (s : State) : Host.Outcome State Fault Refusal := advance s

/-- The state in which the host has written CMD with the word whose bits are `w` and its latency has passed, so that the very
next step is that command's completion step (log entry 13). -/
def State.withFetchWord (s : State) (nbits w : Nat) : State := s.accept (BitVec.ofNat 32 (w % 2 ^ nbits)) 0

end Sys2Proof.Machine
end

