-- ==== Sys2Proof/Safety.lean ====
section
/-! DEFINITION. The terms claims about the core are stated in: its invariants, what a failure leaves, and plain readings of the
frequency table and of the tree. -/

namespace Sys2Proof.Machine

/-! ### Invariants -/

/-- Both buffers are in canonical form and hold no byte outside their size (rules R200, R201, R206). -/
abbrev State.BuffersOk (s : State) : Prop :=
  s.ibuf.wf ∧ s.obuf.wf ∧ s.ibuf.within s.params.ibufSize ∧ s.obuf.within s.params.obufSize

/-- The command protocol: while BUSY = 1, DONE, ERRCODE and ERR_INFO are 0 (rules R121, R131, R822); ERRCODE is no reserved value
(rule R800); ERR_INFO is 0 after a success (rule R131); OUT_LEN counts bytes of OBUF (rule R127). -/
abbrev State.ProtocolOk (s : State) : Prop :=
  (s.busy = true → s.done = false ∧ s.errcode = 0 ∧ s.errInfo = 0) ∧ s.errcode.toNat ≤ 9 ∧ (s.errcode = 0 → s.errInfo = 0)
    ∧ s.outLen.toNat ≤ s.params.obufSize

/-- The tree BUILD makes of a frequency table, as the arena, ROOT and NNODES hold it. -/
def treeOf (t : Table (BitVec 32)) : Option (Vector Node 511 × BitVec 9 × BitVec 10) :=
  (huffmanTree t).map fun r => (arenaOf r.1, BitVec.ofNat 9 r.2, BitVec.ofNat 10 r.1.length)

/-- What the validity flags claim: TREE_V, that the arena holds "a tree that BUILD built from the current FREQ contents" (rule
R114); CODE_V, that the code table is the one "GENCODE derived from the current tree" (rule R115). -/
abbrev State.ValidityOk (s : State) : Prop :=
  (s.treeV = true → treeOf s.freq = some (s.node, s.root, s.nnodes))
    ∧ (s.codeV = true → s.treeV = true ∧ s.code = codeTable (treeCodes s.node s.root) ∧ s.codeLen = codeLengths s.code)

/-- "The entries from NNODES to 510 are" zero (rule R462). -/
abbrev State.ArenaTailZero (s : State) : Prop := ∀ i < 511, s.nnodes.toNat ≤ i → s.node[i]? = some Node.zero

/-- CODE[s] is a bit string "of length CODE_LEN[s]" (rule R113). -/
abbrev State.CodeLengthsAgree (s : State) : Prop :=
  ∀ k < 256, (s.codeLen.entry (BitVec.ofNat 8 k)).toNat = (s.code.entry (BitVec.ofNat 8 k)).length

/-! ### Plain readings -/

/-- `#{ s ∈ 0..255 : FREQ[s] ≥ 1 }` (rule R34), counted symbol by symbol. -/
def presentCount (t : Table (BitVec 32)) : Nat :=
  (List.range 256).countP fun k => decide (1 ≤ (t.entry (BitVec.ofNat 8 k)).toNat)

/-- How many present symbols are less than `b`: the place of `b` among the entries written in ascending order (rule R651). -/
def presentBelow (t : Table (BitVec 32)) (b : Byte) : Nat :=
  (List.range b.toNat).countP fun k => decide (1 ≤ (t.entry (BitVec.ofNat 8 k)).toNat)

/-- How many of the first IN_LEN bytes of IBUF equal `b` (rule R400). -/
def State.inputCount (s : State) (b : Byte) : Nat :=
  (List.range s.inLen.toNat).countP fun i => s.byteAt .ibuf i == b

/-- How many different byte values the input holds (rule R401). -/
def State.inputDistinct (s : State) : Nat :=
  (List.range 256).countP fun k => decide (1 ≤ s.inputCount (BitVec.ofNat 8 k))

/-- Entry `i` of the arena, all fields 0 beyond its end. -/
def State.entryAt (s : State) (i : Nat) : Node := (s.node[i]?).getD Node.zero

/-- Entry `j` is not yet a child of an internal entry below `i`: unmerged when entry `i` is created (rule R453). -/
def State.UnmergedAt (s : State) (i j : Nat) : Prop :=
  j < i ∧ ∀ k < i, (s.entryAt k).leaf = false → (s.entryAt k).left.toNat ≠ j ∧ (s.entryAt k).right.toNat ≠ j

/-- The lexicographic order of the keys (NFREQ, sequence number) (rule R453). -/
def State.KeyBefore (s : State) (i j : Nat) : Prop :=
  (s.entryAt i).nfreq.toNat < (s.entryAt j).nfreq.toNat ∨ ((s.entryAt i).nfreq = (s.entryAt j).nfreq ∧ i < j)

/-- The entry reached from entry `i` by a bit string, 0 to the left and 1 to the right, if no leaf is left on the way (rule R501). -/
def State.follow (s : State) : BitVec 9 → Bits → Option (BitVec 9)
  | i, [] => some i
  | i, b :: p => if (s.entryAt i.toNat).leaf then none
      else State.follow s (if b then (s.entryAt i.toNat).right else (s.entryAt i.toNat).left) p

/-- What a command that fails with this ERRCODE and ERR_INFO "writes exactly" (rule R820). -/
def State.failedWith (s : State) (code : BitVec 8) (info : Word) : State :=
  { s with errcode := code, errInfo := info, outLen := 0, done := true, inflight := none }

/-- A command has failed so, and left every OBUF byte outside [lo, hi) alone; what it left inside is unspecified (rule R821). -/
def State.FailedSpoiling (s t : State) (code : BitVec 8) (info : Word) (lo hi : Nat) : Prop :=
  t = { s.failedWith code info with obuf := t.obuf, draws := t.draws }
    ∧ ∀ a, a < lo ∨ hi ≤ a → t.byteAt .obuf a = s.byteAt .obuf a

end Sys2Proof.Machine
end

