-- ==== Sys2Proof/Certificates/Slice0/Obligations.lean ====
section
/-! DEFINITION. The statements for the provers. -/

open Sys2Proof Sys2Proof.Machine

/-! ### Command words -/

/-- The opcode map of rule R302, row by row: each of the twelve words decodes to its command. -/
def Obligations.SpecWordsDecode : Prop :=
  decode 0x00000000 = .ok .nop ∧ decode 0x00000001 = .ok .clear ∧ decode 0x00000010 = .ok .analyze
    ∧ decode 0x00000011 = .ok .norm ∧ decode 0x00000020 = .ok .build ∧ decode 0x00000030 = .ok .gencode
    ∧ decode 0x00000040 = .ok .pack ∧ decode 0x00000041 = .ok .unpack ∧ decode 0x00000050 = .ok .wrhdr
    ∧ decode 0x00000051 = .ok .rdhdr ∧ decode 0x00000060 = .ok .compress ∧ decode 0x00000061 = .ok .decompress

/-- Decoding and encoding agree, both ways, over all 2^32 words: every well-formed command's word decodes to it, and a word that
decodes to a command is that command's word, so no bit of a word is ignored (rules R300 to R302). -/
def Obligations.DecodeAndEncodeAgree : Prop :=
  ∀ (i : Instr) (w : Word), i.wellFormed = true → (decode w = .ok i ↔ w = encode i)

/-- A word that is no command's (rule R740): written to CMD while idle it starts like any other; its completion step fails with
IllegalCommand, ERRCODE 9, and the word as ERR_INFO, and changes nothing else than the failure rule does. That its latency is as free
as any command's, "at once" being no bound, is the model's reading (log entries 3 and 4); the count of free values is the model's own
(log entry 8). -/
def Obligations.IllegalWordsFailWithTheWord : Prop :=
  ∀ (s : State) (w : Word), (∀ i, w ≠ encode i) →
    (s.inflight = none → ∃ n, hostAccess (.writeReg .word 0x000 w) s = .next { s with
        inflight := some { word := w, latency := n }, done := false, errcode := 0, errInfo := 0, draws := s.draws + 1 })
      ∧ (s.inflight = some { word := w, latency := 0 } → step s = .next (s.failedWith 9 w))

/-! ### Steps: who moves, how a command starts and completes -/

/-- When the command in flight has no latency left and its word decodes to a command, the step is that command's meaning on that
state, with nothing added (rule R940). -/
def Obligations.StepRunsTheDecodedCommand : Prop :=
  ∀ (s : State) (w : Word) (i : Instr), s.inflight = some { word := w, latency := 0 } → decode w = .ok i → step s = exec i s

/-- While no command is in flight, or the one in flight has latency left, the step is the host's first pending access, which leaves
the list, and the latency counts down by one; with nothing pending the step only counts down (rules R6, R230, R855, R940). -/
def Obligations.StepGivesTheHostItsTurn : Prop :=
  ∀ (s : State),
    (s.inflight = none → s.host = [] → step s = .next s)
      ∧ (∀ op ops, s.inflight = none → s.host = op :: ops → step s = hostAccess op { s with host := ops })
      ∧ (∀ w n, s.inflight = some { word := w, latency := n + 1 } → s.host = [] →
          step s = .next { s with inflight := some { word := w, latency := n } })
      ∧ (∀ w n op ops, s.inflight = some { word := w, latency := n + 1 } → s.host = op :: ops →
          step s = hostAccess op { s with host := ops, inflight := some { word := w, latency := n } })

/-- A host write of CMD while idle starts the command: BUSY 1, DONE 0, ERRCODE 0, ERR_INFO 0, and nothing else of the core changes
(rules R941, R822). The latency is free (log entry 3); the count of free values that goes up by one is the model's own (log entry
8). -/
def Obligations.CmdWriteStartsACommand : Prop :=
  ∀ (s : State) (w : Word), s.inflight = none →
    ∃ n, hostAccess (.writeReg .word 0x000 w) s = .next { s with
      inflight := some { word := w, latency := n }, done := false, errcode := 0, errInfo := 0, draws := s.draws + 1 }

/-- "every started command eventually completes" (rule R940): while the host only waits (polls, awaits the interrupt or makes no
access), a command in flight with latency n has completed after n + 1 steps. -/
def Obligations.StartedCommandCompletes : Prop :=
  ∀ (s : State) (w : Word) (n : Nat), s.inflight = some { word := w, latency := n } →
    (∀ op ∈ s.host, op = .poll ∨ op = .awaitIrq ∨ op = .pause) →
    ∃ t, Host.Core.run core (n + 1) s = .next t ∧ t.inflight = none ∧ t.done = true

/-- Every command, from every state, completes: BUSY 0 and DONE 1 in one step, the run neither faulting nor refusing (rules R820,
R822, R940). -/
def Obligations.EveryCommandCompletes : Prop :=
  ∀ (i : Instr) (s : State), ∃ t, exec i s = .next t ∧ t.busy = false ∧ t.done = true
    ∧ (t.errcode = s.errcode ∧ t.errInfo = s.errInfo ∨ 1 ≤ t.errcode.toNat ∧ t.errcode.toNat ≤ 8 ∧ t.outLen = 0)

/-- What no command writes: CTRL, the parameters, IN_LEN, IBUF, the host's pending accesses and what it has read (rules R122, R123,
R124, R200, R403). -/
def Obligations.CommandsNeverWriteTheHostsInputs : Prop :=
  ∀ (i : Instr) (s t : State), exec i s = .next t →
    t.ie = s.ie ∧ t.params = s.params ∧ t.inLen = s.inLen ∧ t.ibuf = s.ibuf ∧ t.host = s.host ∧ t.rdata = s.rdata
      ∧ t.epoch = s.epoch

/-- "no command other than BUILD and CLEAR writes NODE, ROOT or NNODES. No host access writes them" (rule R116); COMPRESS and
DECOMPRESS run BUILD as a sub-step, and the reset event is no access. -/
def Obligations.OnlyBuildAndClearWriteTheTree : Prop :=
  (∀ (i : Instr) (s t : State), i ≠ .build → i ≠ .clear → i ≠ .compress → i ≠ .decompress → exec i s = .next t →
      t.node = s.node ∧ t.root = s.root ∧ t.nnodes = s.nnodes)
    ∧ ∀ (op : HostOp) (s t : State), op ≠ .reset → hostAccess op s = .next t →
      t.node = s.node ∧ t.root = s.root ∧ t.nnodes = s.nnodes

/-! ### NOP and CLEAR -/

/-- NOP commits nothing: only BUSY and DONE change (rules R700, R822). -/
def Obligations.NopOnlyCompletes : Prop :=
  ∀ s : State, exec .nop s = .next { s with done := true, inflight := none }

/-- CLEAR puts every element it writes at its reset value and changes nothing else: not CTRL, IN_LEN, CFG, IBUF or OBUF (rule
R705). -/
def Obligations.ClearRestoresResetValues : Prop :=
  ∀ s : State, exec .clear s = .next { State.reset with
    params := s.params, done := true, errcode := s.errcode, errInfo := s.errInfo, ie := s.ie, inLen := s.inLen, ibuf := s.ibuf
    obuf := s.obuf, host := s.host, rdata := s.rdata, draws := s.draws, epoch := s.epoch }

/-! ### ANALYZE and NORM -/

/-- ANALYZE (rule R400): its two failures in order, and on success every counter holds how many of the first IN_LEN bytes of IBUF
equal its symbol, ORIG_SIZE is IN_LEN, TREE_V and CODE_V are cleared, and nothing else changes. -/
def Obligations.AnalyzeCountsTheInput : Prop :=
  ∀ s : State,
    (s.params.ibufSize < s.inLen.toNat → exec .analyze s = .next (s.failedWith 5 0))
      ∧ (s.inLen = 0 → exec .analyze s = .next (s.failedWith 1 0))
      ∧ (1 ≤ s.inLen.toNat → s.inLen.toNat ≤ s.params.ibufSize → ∃ t, exec .analyze s = .next t
          ∧ (∀ b, (t.freq.entry b).toNat = s.inputCount b)
          ∧ t = { s with
              freq := t.freq, origSize := s.inLen, treeV := false, codeV := false, done := true, inflight := none })

/-- NORM (rule R420): more than 31 present symbols fail with T; under FAULT a count above 255 fails with the least such symbol;
otherwise it succeeds, clearing TREE_V and CODE_V, under FAULT with FREQ as it was and under SATURATE with every count cut to 255. -/
def Obligations.NormAppliesTheCapacityLimits : Prop :=
  ∀ s : State,
    (31 < presentCount s.freq → exec .norm s = .next (s.failedWith 3 (BitVec.ofNat 32 (presentCount s.freq))))
      ∧ (∀ b, presentCount s.freq ≤ 31 → s.params.policy = .fault → 255 < (s.freq.entry b).toNat →
          (∀ c, c.toNat < b.toNat → (s.freq.entry c).toNat ≤ 255) →
          exec .norm s = .next (s.failedWith 3 (BitVec.ofNat 32 (0x80000000 + b.toNat))))
      ∧ (presentCount s.freq ≤ 31 → s.params.policy = .fault → (∀ b, (s.freq.entry b).toNat ≤ 255) →
          exec .norm s = .next { s with treeV := false, codeV := false, done := true, inflight := none })
      ∧ (presentCount s.freq ≤ 31 → s.params.policy = .saturate → ∃ t, exec .norm s = .next t
          ∧ (∀ b, (t.freq.entry b).toNat = min (s.freq.entry b).toNat 255)
          ∧ t = { s with freq := t.freq, treeV := false, codeV := false, done := true, inflight := none })

/-- After a successful NORM at most 31 symbols are present and every count is at most 255, so WRHDR's capacity checks cannot fail on
that table: with OBUF large enough WRHDR then succeeds (rule R423). -/
def Obligations.NormMakesTheHeaderWritable : Prop :=
  ∀ s t : State, s.errcode = 0 → exec .norm s = .next t → t.errcode = 0 →
    presentCount t.freq ≤ 31 ∧ (∀ b, (t.freq.entry b).toNat ≤ 255)
      ∧ (6 + 2 * presentCount t.freq ≤ t.params.obufSize → ∃ u, exec .wrhdr t = .next u ∧ u.errcode = 0)

/-! ### BUILD -/

/-- BUILD on an empty table fails with InvalidFrequencyTable; with n ≥ 1 present symbols it succeeds, with ROOT = 2n − 2 and
NNODES = 2n − 1 (for n = 1 that is 0 and 1), TREE_V set, CODE_V cleared, and nothing written but the arena, ROOT and NNODES (rules
R450, R455, R459). -/
def Obligations.BuildCompletesWithRootAndCount : Prop :=
  ∀ s : State,
    (presentCount s.freq = 0 → exec .build s = .next (s.failedWith 6 0))
      ∧ (1 ≤ presentCount s.freq → ∃ t, exec .build s = .next t
          ∧ t.root.toNat = 2 * presentCount s.freq - 2 ∧ t.nnodes.toNat = 2 * presentCount s.freq - 1
          ∧ t = { s with
              node := t.node, root := t.root, nnodes := t.nnodes, treeV := true, codeV := false, done := true
              inflight := none })

/-- BUILD's leaves come first, one per present symbol in ascending symbol order, each with its symbol's count; the entries from
NNODES on are zero (rules R451, R462). -/
def Obligations.BuildPutsLeavesFirstInSymbolOrder : Prop :=
  ∀ s t : State, 1 ≤ presentCount s.freq → exec .build s = .next t →
    (∀ b, 1 ≤ (s.freq.entry b).toNat → t.entryAt (presentBelow s.freq b) =
        { leaf := true, sym := b, nfreq := (s.freq.entry b).setWidth 40, left := 0, right := 0 })
      ∧ (∀ i < t.nnodes.toNat, ((t.entryAt i).leaf = true ↔ i < presentCount s.freq))
      ∧ t.ArenaTailZero

/-- The tree BUILD leaves is a tree (rule R458): every internal entry has two different children, both with lower indices; a leaf has
none; every entry but ROOT is the child of exactly one internal entry; the leaves are exactly the present symbols, one each; and,
child indices being lower than their parent's, it is acyclic. -/
def Obligations.BuildMakesATree : Prop :=
  ∀ s t : State, 1 ≤ presentCount s.freq → exec .build s = .next t →
    (∀ i < t.nnodes.toNat, (t.entryAt i).leaf = false →
        (t.entryAt i).left ≠ (t.entryAt i).right ∧ (t.entryAt i).left.toNat < i ∧ (t.entryAt i).right.toNat < i)
      ∧ (∀ i < t.nnodes.toNat, (t.entryAt i).leaf = true → (t.entryAt i).left = 0 ∧ (t.entryAt i).right = 0)
      ∧ (∀ j < t.nnodes.toNat, j ≠ t.root.toNat → ∃! i, i < t.nnodes.toNat ∧ (t.entryAt i).leaf = false
          ∧ ((t.entryAt i).left.toNat = j ∨ (t.entryAt i).right.toNat = j))
      ∧ (∀ b, 1 ≤ (s.freq.entry b).toNat ↔ ∃! i, i < t.nnodes.toNat ∧ (t.entryAt i).leaf = true ∧ (t.entryAt i).sym = b)

/-- BUILD is greedy (rules R453, R454): the children of each internal entry i are the two unmerged entries of least key
(NFREQ, index) at that time, the least one on the left, and its NFREQ is the exact sum of theirs; so the root's is the sum of all
counts, with no overflow of the 40 bits (rule R457). -/
def Obligations.BuildMergesTheTwoLeastKeys : Prop :=
  ∀ s t : State, 1 ≤ presentCount s.freq → exec .build s = .next t →
    (∀ i < t.nnodes.toNat, presentCount s.freq ≤ i →
      let l := (t.entryAt i).left.toNat
      let r := (t.entryAt i).right.toNat
      t.UnmergedAt i l ∧ (∀ j, t.UnmergedAt i j → j ≠ l → t.KeyBefore l j)
        ∧ t.UnmergedAt i r ∧ r ≠ l ∧ (∀ j, t.UnmergedAt i j → j ≠ l → j ≠ r → t.KeyBefore r j)
        ∧ (t.entryAt i).nfreq.toNat = (t.entryAt l).nfreq.toNat + (t.entryAt r).nfreq.toNat)
      ∧ (t.entryAt t.root.toNat).nfreq.toNat
        = ((List.range 256).map fun k => (s.freq.entry (BitVec.ofNat 8 k)).toNat).sum

/-! ### GENCODE -/

/-- GENCODE without a valid tree fails with NotReady(1); with one it succeeds, sets CODE_V and writes nothing but the code table
(rules R500, R509); for a single-leaf root the code is "0" (rule R503). -/
def Obligations.GencodeWritesOnlyTheCodeTable : Prop :=
  ∀ s : State,
    (s.treeV = false → exec .gencode s = .next (s.failedWith 8 1))
      ∧ (s.treeV = true → ∃ t, exec .gencode s = .next t
          ∧ (∀ n, s.node[s.root.toNat]? = some n → n.leaf = true →
              t.code.entry n.sym = [false] ∧ ∀ b, b ≠ n.sym → t.code.entry b = [])
          ∧ (∀ b, t.codeLen.entry b = BitVec.ofNat 8 (t.code.entry b).length)
          ∧ t = { s with codeLen := t.codeLen, code := t.code, codeV := true, done := true, inflight := none })

/-- With two or more leaves, the code of a present symbol is the path from the root to its leaf, 0 to the left and 1 to the right
(rule R501). -/
def Obligations.CodesAreRootToLeafPaths : Prop :=
  ∀ s t : State, s.ValidityOk → s.treeV = true → 2 ≤ presentCount s.freq → exec .gencode s = .next t →
    ∀ b, 1 ≤ (s.freq.entry b).toNat →
      ∃ i, s.follow s.root (t.code.entry b) = some i ∧ (s.entryAt i.toNat).leaf = true ∧ (s.entryAt i.toNat).sym = b

/-- CODE_LEN[b] ≥ 1 iff b is present in the FREQ the tree was built from, and 0 for every other b (rule R502). -/
def Obligations.ExactlyPresentSymbolsHaveCodes : Prop :=
  ∀ s t : State, s.ValidityOk → s.treeV = true → exec .gencode s = .next t →
    ∀ b, (1 ≤ (t.codeLen.entry b).toNat ↔ 1 ≤ (s.freq.entry b).toNat)

/-- "no code is a prefix of another code" (rule R504). -/
def Obligations.CodesArePrefixFree : Prop :=
  ∀ s t : State, s.ValidityOk → s.treeV = true → exec .gencode s = .next t →
    ∀ b c, b ≠ c → 1 ≤ (t.codeLen.entry b).toNat → 1 ≤ (t.codeLen.entry c).toNat →
      ¬ t.code.entry b <+: t.code.entry c

/-- With n ≥ 2 leaves every code has 1 to n − 1 bits, so CODE_LEN cannot overflow: it is the length of CODE for every symbol
(rules R506, R113). -/
def Obligations.CodeLengthsAreBounded : Prop :=
  ∀ s t : State, s.ValidityOk → s.treeV = true → 2 ≤ presentCount s.freq → exec .gencode s = .next t →
    t.CodeLengthsAgree ∧ ∀ b, (t.code.entry b).length ≤ presentCount s.freq - 1

/-- With n ≥ 2 leaves the code is complete: Σ 2^(−CODE_LEN[b]) over the present b is 1 (rule R507), stated without fractions. -/
def Obligations.CodeIsComplete : Prop :=
  ∀ s t : State, s.ValidityOk → s.treeV = true → 2 ≤ presentCount s.freq → exec .gencode s = .next t →
    ((List.range 256).map fun k =>
      if 1 ≤ (s.freq.entry (BitVec.ofNat 8 k)).toNat then 2 ^ (255 - (t.codeLen.entry (BitVec.ofNat 8 k)).toNat) else 0).sum
      = 2 ^ 255

/-! ### PACK -/

/-- PACK on success (rules R550 to R553, R555): payload bit k is bit 7 − (k mod 8) of OBUF[OUT_OFF + ⌊k/8⌋]; the bits are the codes
of the input bytes in input order, then zeros; every other OBUF byte and every other register is unchanged; PAD, NBITS and OUT_LEN
hold the padding, the code bits and the end of the payload exactly. -/
def Obligations.PackWritesTheCodesMsbFirst : Prop :=
  ∀ s : State,
    let stream := (List.range s.inLen.toNat).flatMap fun i => s.code.entry (s.byteAt .ibuf i)
    let nbytes := (stream.length + 7) / 8
    s.codeV = true → s.inLen.toNat ≤ s.params.ibufSize →
    (∀ i < s.inLen.toNat, s.codeLen.entry (s.byteAt .ibuf i) ≠ 0) → s.outOff.toNat + nbytes ≤ s.params.obufSize →
    ∃ t, exec .pack s = .next t
      ∧ (∀ k < 8 * nbytes, (t.byteAt .obuf (s.outOff.toNat + k / 8)).getLsbD (7 - k % 8) = stream.getD k false)
      ∧ (∀ a, a < s.outOff.toNat ∨ s.outOff.toNat + nbytes ≤ a → t.byteAt .obuf a = s.byteAt .obuf a)
      ∧ t.pad.toNat = 8 * nbytes - stream.length ∧ t.nbits.toNat = stream.length ∧ t.outLen.toNat = s.outOff.toNat + nbytes
      ∧ t = { s with
          obuf := t.obuf, pad := t.pad, nbits := t.nbits, outLen := t.outLen, done := true, inflight := none }

/-- PACK's failures, in the order of rule R811: NotReady(2), IOFailure(0), MissingCode at the least offset without a code,
IOFailure(1); each leaves everything but the completion state alone outside the OBUF range of the payload (rules R554, R557, R820).
That an early failure's range is the payload of the bytes that exist is the model's reading, log entry 6; and so is IOFailure(1) for
IN_LEN = 0 with OUT_OFF > OBUF_SIZE, against the success rule R558 states without a condition, log entry 18. -/
def Obligations.PackReportsItsFirstFailure : Prop :=
  ∀ s : State,
    let stream := (List.range (min s.inLen.toNat s.params.ibufSize)).flatMap fun i => s.code.entry (s.byteAt .ibuf i)
    let last := s.outOff.toNat + (stream.length + 7) / 8
    (s.codeV = false → ∃ t, exec .pack s = .next t ∧ s.FailedSpoiling t 8 2 s.outOff.toNat last)
      ∧ (s.codeV = true → s.params.ibufSize < s.inLen.toNat →
          ∃ t, exec .pack s = .next t ∧ s.FailedSpoiling t 5 0 s.outOff.toNat last)
      ∧ (∀ i, s.codeV = true → s.inLen.toNat ≤ s.params.ibufSize → i < s.inLen.toNat →
          s.codeLen.entry (s.byteAt .ibuf i) = 0 → (∀ j < i, s.codeLen.entry (s.byteAt .ibuf j) ≠ 0) →
          ∃ t, exec .pack s = .next t ∧ s.FailedSpoiling t 7 (BitVec.ofNat 32 i) s.outOff.toNat last)
      ∧ (s.codeV = true → s.inLen.toNat ≤ s.params.ibufSize →
          (∀ i < s.inLen.toNat, s.codeLen.entry (s.byteAt .ibuf i) ≠ 0) → s.params.obufSize < last →
          ∃ t, exec .pack s = .next t ∧ s.FailedSpoiling t 5 1 s.outOff.toNat last)

/-! ### UNPACK -/

/-- A single-leaf tree: UNPACK writes its symbol ORIG_SIZE times, consumes no bit, and looks at no payload byte, IN_OFF or PAD;
nothing else changes (rules R605, R610, R611). -/
def Obligations.UnpackRepeatsASingleLeaf : Prop :=
  ∀ (s : State) (n : Node), s.treeV = true → s.inLen.toNat ≤ s.params.ibufSize → s.origSize.toNat ≤ s.params.obufSize →
    s.node[s.root.toNat]? = some n → n.leaf = true →
    ∃ t, exec .unpack s = .next t
      ∧ (∀ k < s.origSize.toNat, t.byteAt .obuf k = n.sym)
      ∧ (∀ k, s.origSize.toNat ≤ k → t.byteAt .obuf k = s.byteAt .obuf k)
      ∧ t = { s with obuf := t.obuf, nbits := 0, outLen := s.origSize, done := true, inflight := none }

/-- UNPACK decodes (rules R600 to R604, R608, R610, R611): on a valid tree of two or more leaves, if the meaningful payload bits begin
with the codes of N = ORIG_SIZE present symbols, OBUF[0 … N − 1] become those symbols, NBITS the bits of their codes, OUT_LEN is N,
what follows in the payload does not matter, and nothing else changes. The codes are those GENCODE derives from the tree. -/
def Obligations.UnpackDecodesTheCodes : Prop :=
  ∀ (s g : State) (xs : List Byte) (rest : Bits), s.ValidityOk → s.treeV = true → 2 ≤ presentCount s.freq →
    exec .gencode s = .next g →
    s.inLen.toNat ≤ s.params.ibufSize → s.origSize.toNat ≤ s.params.obufSize → s.inOff.toNat ≤ s.inLen.toNat →
    (s.inOff.toNat = s.inLen.toNat → s.pad = 0) →
    xs.length = s.origSize.toNat → (∀ x ∈ xs, 1 ≤ (s.freq.entry x).toNat) →
    ((List.range (8 * (s.inLen.toNat - s.inOff.toNat) - s.pad.toNat)).map fun k =>
        (s.byteAt .ibuf (s.inOff.toNat + k / 8)).getLsbD (7 - k % 8)) = (xs.flatMap fun x => g.code.entry x) ++ rest →
    ∃ t, exec .unpack s = .next t
      ∧ (∀ k < s.origSize.toNat, some (t.byteAt .obuf k) = xs[k]?)
      ∧ (∀ k, s.origSize.toNat ≤ k → t.byteAt .obuf k = s.byteAt .obuf k)
      ∧ t.nbits.toNat = (xs.flatMap fun x => g.code.entry x).length
      ∧ t = { s with obuf := t.obuf, nbits := t.nbits, outLen := s.origSize, done := true, inflight := none }

/-- The shortfall (rule R606): if the meaningful bits are the codes of fewer than ORIG_SIZE symbols and then no whole code, UNPACK
fails with CorruptStream and the number of symbols decoded. -/
def Obligations.UnpackReportsAShortfall : Prop :=
  ∀ (s g : State) (xs : List Byte) (rest : Bits), s.ValidityOk → s.treeV = true → 2 ≤ presentCount s.freq →
    exec .gencode s = .next g →
    s.inLen.toNat ≤ s.params.ibufSize → s.origSize.toNat ≤ s.params.obufSize → s.inOff.toNat ≤ s.inLen.toNat →
    (s.inOff.toNat = s.inLen.toNat → s.pad = 0) →
    xs.length < s.origSize.toNat → (∀ x ∈ xs, 1 ≤ (s.freq.entry x).toNat) →
    (∀ x, 1 ≤ (s.freq.entry x).toNat → ¬ g.code.entry x <+: rest) →
    ((List.range (8 * (s.inLen.toNat - s.inOff.toNat) - s.pad.toNat)).map fun k =>
        (s.byteAt .ibuf (s.inOff.toNat + k / 8)).getLsbD (7 - k % 8)) = (xs.flatMap fun x => g.code.entry x) ++ rest →
    ∃ t, exec .unpack s = .next t ∧ s.FailedSpoiling t 4 (BitVec.ofNat 32 xs.length) 0 s.origSize.toNat

/-- UNPACK's checks before any bit is read, in the order of rule R811: NotReady(1), IOFailure(0), IOFailure(1), and for a tree of two
or more leaves the geometry of rule R609; each leaves OBUF from N upward alone (rule R611). -/
def Obligations.UnpackReportsItsFirstFailure : Prop :=
  ∀ s : State,
    (s.treeV = false → ∃ t, exec .unpack s = .next t ∧ s.FailedSpoiling t 8 1 0 s.origSize.toNat)
      ∧ (s.treeV = true → s.params.ibufSize < s.inLen.toNat →
          ∃ t, exec .unpack s = .next t ∧ s.FailedSpoiling t 5 0 0 s.origSize.toNat)
      ∧ (s.treeV = true → s.inLen.toNat ≤ s.params.ibufSize → s.params.obufSize < s.origSize.toNat →
          ∃ t, exec .unpack s = .next t ∧ s.FailedSpoiling t 5 1 0 s.origSize.toNat)
      ∧ (∀ n, s.treeV = true → s.inLen.toNat ≤ s.params.ibufSize → s.origSize.toNat ≤ s.params.obufSize →
          s.node[s.root.toNat]? = some n → n.leaf = false →
          s.inLen.toNat < s.inOff.toNat ∨ s.inLen.toNat = s.inOff.toNat ∧ s.pad ≠ 0 →
          ∃ t, exec .unpack s = .next t ∧ s.FailedSpoiling t 4 0 0 s.origSize.toNat)

/-- For a tree of two or more leaves, "a successful UNPACK therefore has N ≤ consumed ≤ B, and an input with B < N always fails with
CorruptStream" (rule R615). -/
def Obligations.UnpackNeedsABitPerSymbol : Prop :=
  ∀ (s : State) (n : Node), s.treeV = true → s.node[s.root.toNat]? = some n → n.leaf = false → s.errcode = 0 →
    ∃ t, exec .unpack s = .next t
      ∧ (t.errcode = 0 → s.origSize.toNat ≤ t.nbits.toNat
          ∧ t.nbits.toNat ≤ 8 * (s.inLen.toNat - s.inOff.toNat) - s.pad.toNat)
      ∧ (s.inLen.toNat ≤ s.params.ibufSize → s.origSize.toNat ≤ s.params.obufSize →
          8 * (s.inLen.toNat - s.inOff.toNat) - s.pad.toNat < s.origSize.toNat → t.errcode = 4)

/-! ### WRHDR and RDHDR -/

/-- WRHDR on success (rules R650 to R652, R654, R655): the header of rule R310 stands in OBUF[0 … 6 + 2T − 1], the entries in
ascending symbol order; OUT_LEN is max(old, 6 + 2T); nothing else changes. -/
def Obligations.WrhdrWritesTheHeader : Prop :=
  ∀ s : State,
    let size := presentCount s.freq
    size ≤ 31 → (∀ b, (s.freq.entry b).toNat ≤ 255) → 6 + 2 * size ≤ s.params.obufSize →
    ∃ t, exec .wrhdr s = .next t
      ∧ t.byteAt .obuf 0 = s.params.magic
      ∧ (t.byteAt .obuf 1).toNat * 2 ^ 24 + (t.byteAt .obuf 2).toNat * 2 ^ 16 + (t.byteAt .obuf 3).toNat * 2 ^ 8
          + (t.byteAt .obuf 4).toNat = s.origSize.toNat
      ∧ (t.byteAt .obuf 5).toNat = s.pad.toNat * 32 + size
      ∧ (∀ b, 1 ≤ (s.freq.entry b).toNat → t.byteAt .obuf (6 + 2 * presentBelow s.freq b) = b
          ∧ (t.byteAt .obuf (7 + 2 * presentBelow s.freq b)).toNat = (s.freq.entry b).toNat)
      ∧ (∀ a, 6 + 2 * size ≤ a → t.byteAt .obuf a = s.byteAt .obuf a)
      ∧ t.outLen.toNat = max s.outLen.toNat (6 + 2 * size)
      ∧ t = { s with obuf := t.obuf, outLen := t.outLen, done := true, inflight := none }

/-- WRHDR's failures, in the order of rule R811 and whatever COUNT_POLICY is: more than 31 symbols, a count above 255 (the least such
symbol), a header that does not fit OBUF; the model's spoiled range for the first two is 6 + 2T too, log entry 6. -/
def Obligations.WrhdrReportsItsFirstFailure : Prop :=
  ∀ s : State,
    let size := presentCount s.freq
    (31 < size → ∃ t, exec .wrhdr s = .next t ∧ s.FailedSpoiling t 3 (BitVec.ofNat 32 size) 0 (6 + 2 * size))
      ∧ (∀ b, size ≤ 31 → 255 < (s.freq.entry b).toNat → (∀ c, c.toNat < b.toNat → (s.freq.entry c).toNat ≤ 255) →
          ∃ t, exec .wrhdr s = .next t
            ∧ s.FailedSpoiling t 3 (BitVec.ofNat 32 (0x80000000 + b.toNat)) 0 (6 + 2 * size))
      ∧ (size ≤ 31 → (∀ b, (s.freq.entry b).toNat ≤ 255) → s.params.obufSize < 6 + 2 * size →
          ∃ t, exec .wrhdr s = .next t ∧ s.FailedSpoiling t 5 1 0 (6 + 2 * size))

/-- RDHDR on success (rules R670, R673, R675, R676): FREQ holds the table's entries, in whatever order they stand, and 0 for every
other symbol; ORIG_SIZE is the big-endian size, PAD and IN_OFF come from byte 5; TREE_V and CODE_V are cleared; nothing else changes. -/
def Obligations.RdhdrReadsTheHeader : Prop :=
  ∀ s : State,
    let size := (s.byteAt .ibuf 5).toNat % 32
    s.inLen.toNat ≤ s.params.ibufSize → s.byteAt .ibuf 0 = s.params.magic → 6 + 2 * size ≤ s.inLen.toNat →
    (∀ j < size, s.byteAt .ibuf (7 + 2 * j) ≠ 0) →
    (∀ j < size, ∀ k < j, s.byteAt .ibuf (6 + 2 * k) ≠ s.byteAt .ibuf (6 + 2 * j)) →
    ∃ t, exec .rdhdr s = .next t
      ∧ (∀ j < size, (t.freq.entry (s.byteAt .ibuf (6 + 2 * j))).toNat = (s.byteAt .ibuf (7 + 2 * j)).toNat)
      ∧ (∀ b, (∀ j < size, s.byteAt .ibuf (6 + 2 * j) ≠ b) → t.freq.entry b = 0)
      ∧ t.origSize.toNat = (s.byteAt .ibuf 1).toNat * 2 ^ 24 + (s.byteAt .ibuf 2).toNat * 2 ^ 16
          + (s.byteAt .ibuf 3).toNat * 2 ^ 8 + (s.byteAt .ibuf 4).toNat
      ∧ t.pad.toNat = (s.byteAt .ibuf 5).toNat / 32 ∧ t.inOff.toNat = 6 + 2 * size
      ∧ t = { s with
          freq := t.freq, origSize := t.origSize, pad := t.pad, inOff := t.inOff, treeV := false, codeV := false, done := true
          inflight := none }

/-- RDHDR's checks of length and magic, in the order of rule R811: IOFailure(0); truncation at 0 bytes; bad magic, before the length-6
check (rule R672); truncation below 6 bytes and below 6 + 2T (rule R671). Each changes nothing but the completion state. -/
def Obligations.RdhdrChecksLengthAndMagicInOrder : Prop :=
  ∀ s : State,
    (s.params.ibufSize < s.inLen.toNat → exec .rdhdr s = .next (s.failedWith 5 0))
      ∧ (s.inLen = 0 → exec .rdhdr s = .next (s.failedWith 2 1))
      ∧ (1 ≤ s.inLen.toNat → s.inLen.toNat ≤ s.params.ibufSize → s.byteAt .ibuf 0 ≠ s.params.magic →
          exec .rdhdr s = .next (s.failedWith 2 2))
      ∧ (1 ≤ s.inLen.toNat → s.inLen.toNat ≤ s.params.ibufSize → s.byteAt .ibuf 0 = s.params.magic → s.inLen.toNat < 6 →
          exec .rdhdr s = .next (s.failedWith 2 1))
      ∧ (6 ≤ s.inLen.toNat → s.inLen.toNat ≤ s.params.ibufSize → s.byteAt .ibuf 0 = s.params.magic →
          s.inLen.toNat < 6 + 2 * ((s.byteAt .ibuf 5).toNat % 32) → exec .rdhdr s = .next (s.failedWith 2 1))

/-- RDHDR's first bad entry j (rule R674): a zero count is FormatError 3 + 256j, a symbol that repeats an earlier entry's is
FormatError 4 + 256j, the zero count checked first; nothing but the completion state changes. -/
def Obligations.RdhdrReportsItsFirstBadEntry : Prop :=
  ∀ (s : State) (j : Nat),
    let size := (s.byteAt .ibuf 5).toNat % 32
    let repeats := fun j => ∃ k < j, s.byteAt .ibuf (6 + 2 * k) = s.byteAt .ibuf (6 + 2 * j)
    s.inLen.toNat ≤ s.params.ibufSize → s.byteAt .ibuf 0 = s.params.magic → 6 + 2 * size ≤ s.inLen.toNat → j < size →
    (∀ i < j, s.byteAt .ibuf (7 + 2 * i) ≠ 0 ∧ ¬ repeats i) →
    (s.byteAt .ibuf (7 + 2 * j) = 0 → exec .rdhdr s = .next (s.failedWith 2 (BitVec.ofNat 32 (3 + 256 * j))))
      ∧ (s.byteAt .ibuf (7 + 2 * j) ≠ 0 → repeats j →
          exec .rdhdr s = .next (s.failedWith 2 (BitVec.ofNat 32 (4 + 256 * j))))

/-- The inverse property (rule R678): RDHDR reads back from the bytes WRHDR wrote the table, size and padding it wrote, and IN_OFF is
6 + 2T. -/
def Obligations.RdhdrInvertsWrhdr : Prop :=
  ∀ s t u : State, s.errcode = 0 → exec .wrhdr s = .next t → t.errcode = 0 →
    u.params.magic = s.params.magic → u.inLen.toNat ≤ u.params.ibufSize → 6 + 2 * presentCount s.freq ≤ u.inLen.toNat →
    (∀ a < 6 + 2 * presentCount s.freq, u.byteAt .ibuf a = t.byteAt .obuf a) →
    ∃ v, exec .rdhdr u = .next v ∧ v.errcode = u.errcode ∧ v.freq = s.freq ∧ v.origSize = s.origSize ∧ v.pad = s.pad
      ∧ v.inOff.toNat = 6 + 2 * presentCount s.freq

/-! ### COMPRESS and DECOMPRESS -/

/-- COMPRESS is its sub-steps (rule R720): running ANALYZE, NORM, BUILD, GENCODE, then OUT_OFF <- 6 + 2T, PACK and WRHDR one after
the other, up to the first that fails, ends in the state COMPRESS ends in. Only ANALYZE, NORM and PACK can fail there. ERRCODE is 0
from a command's start on (StepKeepsTheProtocol), so a sub-step has failed exactly if it leaves ERRCODE ≠ 0. -/
def Obligations.CompressRunsItsSteps : Prop :=
  ∀ s a b c d e f : State, s.errcode = 0 → exec .analyze s = .next a →
    (a.errcode ≠ 0 → exec .compress s = .next a)
      ∧ (a.errcode = 0 → exec .norm a = .next b →
          (b.errcode ≠ 0 → exec .compress s = .next b)
            ∧ (b.errcode = 0 → exec .build b = .next c → exec .gencode c = .next d →
                exec .pack { d with outOff := BitVec.ofNat 32 (6 + 2 * presentCount d.freq) } = .next e →
                (e.errcode ≠ 0 → exec .compress s = .next e)
                  ∧ (e.errcode = 0 → exec .wrhdr e = .next f → f.errcode = 0 ∧ exec .compress s = .next f)))

/-- COMPRESS succeeds within the format's capacity (rules R721, R722): a non-empty input of at most 31 different bytes, counts at most
255 under FAULT, and an OBUF of at least 68 + 4·IN_LEN bytes, which is enough since after NORM no code exceeds 30 bits. Then TREE_V
and CODE_V are 1, OUT_OFF is 6 + 2T and OUT_LEN is 6 + 2T + ⌈NBITS/8⌉, and ORIG_SIZE is IN_LEN; OBUF from OUT_LEN on, and whatever
no sub-step writes, is unchanged. -/
def Obligations.CompressSucceedsWithinCapacity : Prop :=
  ∀ s : State, s.errcode = 0 → 1 ≤ s.inLen.toNat → s.inLen.toNat ≤ s.params.ibufSize → s.inputDistinct ≤ 31 →
    (s.params.policy = .fault → ∀ b, s.inputCount b ≤ 255) → 68 + 4 * s.inLen.toNat ≤ s.params.obufSize →
    ∃ t, exec .compress s = .next t ∧ t.errcode = 0 ∧ t.treeV = true ∧ t.codeV = true ∧ t.origSize = s.inLen
      ∧ t.outOff.toNat = 6 + 2 * s.inputDistinct ∧ t.outLen.toNat = 6 + 2 * s.inputDistinct + (t.nbits.toNat + 7) / 8
      ∧ s.inLen.toNat ≤ t.nbits.toNat ∧ t.byteAt .obuf 0 = s.params.magic
      ∧ (∀ a, t.outLen.toNat ≤ a → t.byteAt .obuf a = s.byteAt .obuf a)
      ∧ t = { s with
          freq := t.freq, node := t.node, root := t.root, nnodes := t.nnodes, codeLen := t.codeLen, code := t.code
          treeV := true, codeV := true, origSize := t.origSize, outOff := t.outOff, obuf := t.obuf, pad := t.pad
          nbits := t.nbits, outLen := t.outLen, done := true, inflight := none }

/-- "The bytes COMPRESS writes and its final register values depend only on IN_LEN, IBUF[0 … IN_LEN − 1], MAGIC and COUNT_POLICY"
(rule R723): two runs that agree on these and both succeed write the same bytes and leave the same tables and registers, whatever
the state was before. -/
def Obligations.CompressDependsOnItsInputOnly : Prop :=
  ∀ s s' t t' : State, s.inLen = s'.inLen → (∀ i < s.inLen.toNat, s.byteAt .ibuf i = s'.byteAt .ibuf i) →
    s.params.magic = s'.params.magic → s.params.policy = s'.params.policy → s.errcode = 0 → s'.errcode = 0 →
    exec .compress s = .next t → exec .compress s' = .next t' → t.errcode = 0 → t'.errcode = 0 →
    (∀ a < t.outLen.toNat, t.byteAt .obuf a = t'.byteAt .obuf a)
      ∧ t.outLen = t'.outLen ∧ t.outOff = t'.outOff ∧ t.origSize = t'.origSize ∧ t.pad = t'.pad ∧ t.nbits = t'.nbits
      ∧ t.freq = t'.freq ∧ t.node = t'.node ∧ t.root = t'.root ∧ t.nnodes = t'.nnodes ∧ t.codeLen = t'.codeLen
      ∧ t.code = t'.code ∧ t.treeV = t'.treeV ∧ t.codeV = t'.codeV

/-- DECOMPRESS is its sub-steps (rule R730): running RDHDR, BUILD and UNPACK one after the other, up to the first that fails, ends in
the state DECOMPRESS ends in. -/
def Obligations.DecompressRunsItsSteps : Prop :=
  ∀ s a b c : State, s.errcode = 0 → exec .rdhdr s = .next a →
    (a.errcode ≠ 0 → exec .decompress s = .next a)
      ∧ (a.errcode = 0 → exec .build a = .next b →
          (b.errcode ≠ 0 → exec .decompress s = .next b)
            ∧ (b.errcode = 0 → exec .unpack b = .next c → exec .decompress s = .next c))

/-- A container with one table entry decompresses to OriginalSize copies of its symbol, whatever payload follows (rules R605, R730):
TREE_V is 1 and CODE_V is 0; OBUF beyond, and whatever no sub-step writes, is unchanged. -/
def Obligations.DecompressRepeatsASingleSymbol : Prop :=
  ∀ s : State, 8 ≤ s.inLen.toNat → s.inLen.toNat ≤ s.params.ibufSize → s.byteAt .ibuf 0 = s.params.magic →
    (s.byteAt .ibuf 5).toNat % 32 = 1 → s.byteAt .ibuf 7 ≠ 0 →
    let size := (s.byteAt .ibuf 1).toNat * 2 ^ 24 + (s.byteAt .ibuf 2).toNat * 2 ^ 16 + (s.byteAt .ibuf 3).toNat * 2 ^ 8
      + (s.byteAt .ibuf 4).toNat
    size ≤ s.params.obufSize →
    ∃ t, exec .decompress s = .next t ∧ t.outLen.toNat = size
      ∧ (∀ k < size, t.byteAt .obuf k = s.byteAt .ibuf 6) ∧ (∀ k, size ≤ k → t.byteAt .obuf k = s.byteAt .obuf k)
      ∧ t = { s with
          freq := t.freq, node := t.node, root := t.root, nnodes := t.nnodes, treeV := true, codeV := false
          origSize := t.origSize, pad := t.pad, inOff := 8, obuf := t.obuf, nbits := 0, outLen := t.outLen, done := true
          inflight := none }

/-- PACK and UNPACK round trip (rule R612): UNPACK, with the tree the codes came from, writes the bytes PACK encoded. NBITS is PACK's
for a tree of two or more leaves, and 0 for a single leaf (rule R610). -/
def Obligations.UnpackInvertsPack : Prop :=
  ∀ s t u : State, s.ValidityOk → s.codeV = true → s.errcode = 0 → exec .pack s = .next t → t.errcode = 0 →
    u.treeV = true → u.node = s.node → u.root = s.root → u.inLen.toNat ≤ u.params.ibufSize →
    u.inLen.toNat = u.inOff.toNat + (t.outLen.toNat - s.outOff.toNat) →
    (∀ k < t.outLen.toNat - s.outOff.toNat,
      u.byteAt .ibuf (u.inOff.toNat + k) = t.byteAt .obuf (s.outOff.toNat + k)) →
    u.origSize = s.inLen → u.pad = t.pad → s.inLen.toNat ≤ u.params.obufSize →
    ∃ v, exec .unpack u = .next v ∧ v.errcode = u.errcode ∧ v.outLen = s.inLen
      ∧ (∀ k < s.inLen.toNat, v.byteAt .obuf k = s.byteAt .ibuf k)
      ∧ ((s.entryAt s.root.toNat).leaf = false → v.nbits = t.nbits)

/-- The round trip (rule R731): DECOMPRESS of the file a successful COMPRESS wrote gives the input back, whatever else the two states
hold. -/
def Obligations.DecompressInvertsCompress : Prop :=
  ∀ s t u : State, s.errcode = 0 → exec .compress s = .next t → t.errcode = 0 →
    u.params.magic = s.params.magic → u.inLen = t.outLen → t.outLen.toNat ≤ u.params.ibufSize →
    (∀ a < t.outLen.toNat, u.byteAt .ibuf a = t.byteAt .obuf a) → s.inLen.toNat ≤ u.params.obufSize →
    ∃ v, exec .decompress u = .next v ∧ v.errcode = u.errcode ∧ v.outLen = s.inLen
      ∧ ∀ k < s.inLen.toNat, v.byteAt .obuf k = s.byteAt .ibuf k

/-! ### Registers and host accesses -/

/-- What the single registers read, field by field (rules R120 to R134, R140): STATUS has BUSY, DONE, OVR, ERR (1 iff ERRCODE ≠ 0),
TREE_V, CODE_V, and ERRCODE in [15:8]; CFG has MAGIC and POLICY; TSIZE is the number of present symbols as FREQ stands; every
bit outside a field, CMD and every reserved offset read 0. -/
def Obligations.RegistersReadTheirFields : Prop :=
  ∀ s : State,
    let w := readReg s (regAt 0x004)
    (w.getLsbD 0 = s.inflight.isSome ∧ w.getLsbD 1 = s.done ∧ w.getLsbD 2 = s.ovr ∧ (w.getLsbD 3 = true ↔ s.errcode ≠ 0)
        ∧ w.getLsbD 4 = s.treeV ∧ w.getLsbD 5 = s.codeV ∧ w.getLsbD 6 = false ∧ w.getLsbD 7 = false
        ∧ w.extractLsb' 8 8 = s.errcode ∧ w.extractLsb' 16 16 = 0)
      ∧ (readReg s (regAt 0x008)).toNat = s.ie.toNat
      ∧ (readReg s (regAt 0x00C)).toNat = s.params.magic.toNat + (if s.params.policy = .fault then 256 else 0)
      ∧ readReg s (regAt 0x010) = s.inLen ∧ readReg s (regAt 0x014) = s.inOff ∧ readReg s (regAt 0x018) = s.outOff
      ∧ readReg s (regAt 0x01C) = s.outLen ∧ readReg s (regAt 0x020) = s.origSize
      ∧ (readReg s (regAt 0x024)).toNat = s.pad.toNat ∧ (readReg s (regAt 0x028)).toNat = presentCount s.freq
      ∧ readReg s (regAt 0x02C) = s.errInfo
      ∧ (readReg s (regAt 0x030)).toNat + 2 ^ 32 * (readReg s (regAt 0x034)).toNat = s.nbits.toNat
      ∧ (readReg s (regAt 0x038)).toNat = s.root.toNat + 2 ^ 16 * s.nnodes.toNat
      ∧ (readReg s (regAt 0x040)).toNat = s.sel.toNat
      ∧ readReg s (regAt 0x000) = 0
      ∧ ∀ off : BitVec 12, off = 0x03C ∨ (0x078 ≤ off.toNat ∧ off.toNat < 0x400) ∨ 0x800 ≤ off.toNat →
          readReg s (regAt off) = 0

/-- The CODE and NODE windows (rules R134 to R139). With SEL.INDEX = s ≤ 255, bit 31 − i of CODE_Wk is code bit 32k + i of s, 0 beyond
CODE_LEN[s], and CODE_LEN_R is CODE_LEN[s]; with SEL.INDEX ≥ 256 they read 0. With SEL.INDEX < NNODES the node registers show the
entry's fields; otherwise they read 0. -/
def Obligations.WindowsShowTheSelectedEntries : Prop :=
  ∀ s : State,
    let b : Byte := s.sel.setWidth 8
    let kind := readReg s (regAt 0x068)
    let child := readReg s (regAt 0x074)
    (s.sel.toNat ≤ 255 → (readReg s (regAt 0x044)).toNat = (s.codeLen.entry b).toNat
        ∧ ∀ k < 8, ∀ i < 32, (readReg s (regAt (BitVec.ofNat 12 (0x048 + 4 * k)))).getLsbD (31 - i)
          = (decide (32 * k + i < (s.codeLen.entry b).toNat) && (s.code.entry b).getD (32 * k + i) false))
      ∧ (256 ≤ s.sel.toNat → readReg s (regAt 0x044) = 0
          ∧ ∀ k < 8, readReg s (regAt (BitVec.ofNat 12 (0x048 + 4 * k))) = 0)
      ∧ (∀ n, s.node[s.sel.toNat]? = some n → s.sel.toNat < s.nnodes.toNat →
          kind.toNat = 1 + 2 * n.leaf.toNat + 256 * n.sym.toNat
            ∧ (readReg s (regAt 0x06C)).toNat + 2 ^ 32 * (readReg s (regAt 0x070)).toNat = n.nfreq.toNat
            ∧ child.toNat = n.left.toNat + 2 ^ 16 * n.right.toNat)
      ∧ (s.nnodes.toNat ≤ s.sel.toNat →
          kind = 0 ∧ readReg s (regAt 0x06C) = 0 ∧ readReg s (regAt 0x070) = 0 ∧ child = 0)

/-- FREQ_s (rule R150): at offset 0x400 + 4s a read returns FREQ[s], and a write while idle sets it, clears TREE_V and CODE_V and
changes nothing else; it is 0 at reset. -/
def Obligations.FreqWindowWritesInvalidateTheTree : Prop :=
  ∀ (s : State) (b : Byte) (v : Word), s.inflight = none →
    hostAccess (.readReg .word (BitVec.ofNat 12 (0x400 + 4 * b.toNat))) s = .next { s with rdata := s.freq.entry b }
      ∧ ∃ t, hostAccess (.writeReg .word (BitVec.ofNat 12 (0x400 + 4 * b.toNat)) v) s = .next t
        ∧ t.freq.entry b = v ∧ (∀ c, c ≠ b → t.freq.entry c = s.freq.entry c)
        ∧ t = { s with freq := t.freq, treeV := false, codeV := false } ∧ State.reset.freq.entry b = 0

/-- Register writes while idle have "exactly the effects given" (rule R151; rules R121 to R134, R140): STATUS clears DONE and OVR where
the written word has a 1, CTRL takes IE, IN_LEN, IN_OFF, OUT_OFF, ORIG_SIZE, PAD and SEL take the value, and none of these clears
TREE_V or CODE_V or starts anything; a write of a read-only register or a reserved offset changes nothing at all. CMD is
CmdWriteStartsACommand's, FREQ_s is FreqWindowWritesInvalidateTheTree's. -/
def Obligations.RegisterWritesHaveNoOtherEffect : Prop :=
  ∀ (s : State) (v : Word), s.inflight = none →
    hostAccess (.writeReg .word 0x004 v) s = .next { s with done := s.done && !v.getLsbD 1, ovr := s.ovr && !v.getLsbD 2 }
      ∧ hostAccess (.writeReg .word 0x008 v) s = .next { s with ie := v.getLsbD 0 }
      ∧ hostAccess (.writeReg .word 0x010 v) s = .next { s with inLen := v }
      ∧ hostAccess (.writeReg .word 0x014 v) s = .next { s with inOff := v }
      ∧ hostAccess (.writeReg .word 0x018 v) s = .next { s with outOff := v }
      ∧ hostAccess (.writeReg .word 0x020 v) s = .next { s with origSize := v }
      ∧ hostAccess (.writeReg .word 0x024 v) s = .next { s with pad := BitVec.ofNat 3 (v.toNat % 8) }
      ∧ hostAccess (.writeReg .word 0x040 v) s = .next { s with sel := BitVec.ofNat 9 (v.toNat % 512) }
      ∧ ∀ off : BitVec 12, off.toNat % 4 = 0 → off.toNat < 0x400 ∨ 0x800 ≤ off.toNat →
          off.toNat ∉ [0x000, 0x004, 0x008, 0x010, 0x014, 0x018, 0x020, 0x024, 0x040] →
          hostAccess (.writeReg .word off v) s = .next s

/-- While BUSY = 1, a write of any register other than STATUS is ignored and sets OVR; a write of STATUS clears DONE and OVR where it
has a 1, and nothing else (rule R950). That a write of a reserved offset sets OVR too is the model's reading, log entry 21. -/
def Obligations.BusyRegisterWritesOnlySetOvr : Prop :=
  ∀ (s : State) (off : BitVec 12) (v : Word), s.busy = true → off.toNat % 4 = 0 →
    (off ≠ 0x004 → hostAccess (.writeReg .word off v) s = .next { s with ovr := true })
      ∧ hostAccess (.writeReg .word 0x004 v) s
        = .next { s with done := s.done && !v.getLsbD 1, ovr := s.ovr && !v.getLsbD 2 }

/-- "No register read has a side effect" (rule R217), and neither has a read of a buffer: a read changes only what the host has read,
and while BUSY = 1 the model's count of free values; STATUS, CTRL and CFG read their current values then too (rule R942), and the
reserved offsets read 0 at all times (rule R140). -/
def Obligations.ReadsHaveNoSideEffect : Prop :=
  (∀ (s t : State) (off : BitVec 12), hostAccess (.readReg .word off) s = .next t →
      t = { s with rdata := t.rdata, draws := t.draws }
        ∧ (s.busy = false ∨ off = 0x004 ∨ off = 0x008 ∨ off = 0x00C → t = { s with rdata := readReg s (regAt off) })
        ∧ (off = 0x03C ∨ 0x078 ≤ off.toNat ∧ off.toNat < 0x400 ∨ 0x800 ≤ off.toNat → t = { s with rdata := 0 }))
    ∧ ∀ (s t : State) (b : Buffer) (a : Word), hostAccess (.readByte b a) s = .next t →
      t = { s with rdata := t.rdata, draws := t.draws } ∧ (s.busy = false → t = { s with rdata := (s.byteAt b a.toNat).setWidth 32 })

/-- Bus errors and the buffer hazard stop the run as faults of the host: a register access that is misaligned, or narrower or wider
than 32 bits (rules R205, R215), a buffer access out of range (rule R205), a buffer write while BUSY = 1 (rule R951). The bus-error
clauses hold while BUSY = 1 too: that rule R205 comes before rules R942, R950 and R951 there is the model's reading, log entry 15. -/
def Obligations.HostFaultsStopTheRun : Prop :=
  (∀ (s : State) (width : AccessWidth) (off : BitVec 12) (v : Word), off.toNat % 4 ≠ 0 ∨ width ≠ .word →
      (∃ f, hostAccess (.readReg width off) s = .fault f) ∧ ∃ f, hostAccess (.writeReg width off v) s = .fault f)
    ∧ (∀ (s : State) (a : Word) (v : Byte), s.params.ibufSize ≤ a.toNat →
        hostAccess (.readByte .ibuf a) s = .fault (.bufferRange .ibuf)
          ∧ hostAccess (.writeByte .ibuf a v) s = .fault (.bufferRange .ibuf))
    ∧ (∀ (s : State) (a : Word) (v : Byte), s.params.obufSize ≤ a.toNat →
        hostAccess (.readByte .obuf a) s = .fault (.bufferRange .obuf)
          ∧ hostAccess (.writeByte .obuf a v) s = .fault (.bufferRange .obuf))
    ∧ ∀ (s : State) (b : Buffer) (a : Word) (v : Byte), s.busy = true → ∃ f, hostAccess (.writeByte b a v) s = .fault f

/-- A host byte write while idle writes that byte of that buffer and nothing else (rules R200, R201, R217). -/
def Obligations.HostByteWritesOneByte : Prop :=
  ∀ (s : State) (b c : Buffer) (a : Word) (v : Byte), s.inflight = none → a.toNat < bufferSize s.params b →
    ∃ t, hostAccess (.writeByte b a v) s = .next t ∧ t.byteAt b a.toNat = v
      ∧ (∀ k, c ≠ b ∨ k ≠ a.toNat → t.byteAt c k = s.byteAt c k) ∧ t = { s with ibuf := t.ibuf, obuf := t.obuf }

/-- The interrupt output (rule R840): irq is DONE and IE, so it is 0 after reset and from the start of a command on, and the completion
of any command raises it exactly if CTRL.IE is 1; writing 1 to STATUS.DONE, or 0 to CTRL.IE, clears it. -/
def Obligations.InterruptFollowsDoneAndEnable : Prop :=
  (∀ s : State, s.irq = true ↔ s.done = true ∧ s.ie = true) ∧ State.reset.irq = false
    ∧ (∀ (i : Instr) (s t : State), exec i s = .next t → t.irq = s.ie)
    ∧ (∀ (s t : State) (w : Word), s.inflight = none → hostAccess (.writeReg .word 0x000 w) s = .next t → t.irq = false)
    ∧ (∀ (s t : State) (v : Word), hostAccess (.writeReg .word 0x004 v) s = .next t → v.getLsbD 1 = true → t.irq = false)
    ∧ ∀ (s t : State) (v : Word), s.inflight = none → hostAccess (.writeReg .word 0x008 v) s = .next t →
      v.getLsbD 0 = false → t.irq = false

/-! ### Reset -/

/-- After reset, and after the reset event in any state (rules R170, R900, R901): every register and array of the core at 0 or empty,
no command in flight, irq 0, and no byte of either buffer known (log entry 5); the reset event leaves the parameters (rule R910). -/
def Obligations.ResetLeavesTheResetValues : Prop :=
  (∀ s : State, ∃ t, hostAccess .reset s = .next t ∧ t.params = s.params)
    ∧ ∀ t : State, (t = State.reset ∨ ∃ s, hostAccess .reset s = .next t) →
    (∀ b, t.freq.entry b = 0 ∧ t.codeLen.entry b = 0 ∧ t.code.entry b = []) ∧ (∀ i < 511, t.node[i]? = some Node.zero)
    ∧ t.root = 0 ∧ t.nnodes = 0 ∧ t.treeV = false ∧ t.codeV = false ∧ t.busy = false ∧ t.done = false ∧ t.ovr = false
    ∧ t.errcode = 0 ∧ t.ie = false ∧ t.inLen = 0 ∧ t.inOff = 0 ∧ t.outOff = 0 ∧ t.outLen = 0 ∧ t.origSize = 0 ∧ t.pad = 0
    ∧ t.errInfo = 0 ∧ t.nbits = 0 ∧ t.sel = 0 ∧ t.irq = false ∧ t.ibuf = [] ∧ t.obuf = []

/-- The invariants hold right after reset. -/
def Obligations.ResetMeetsTheInvariants : Prop :=
  State.reset.BuffersOk ∧ State.reset.ProtocolOk ∧ State.reset.ValidityOk ∧ State.reset.ArenaTailZero
    ∧ State.reset.CodeLengthsAgree

/-! ### Invariants every step keeps -/

/-- Every step keeps both buffers in canonical form and within their size: the core "never accesses IBUF or OBUF out of range" (rule
R206); and no step changes the parameters, "fixed for the life of a core instance" (rules R20, R21, R910). -/
def Obligations.StepKeepsTheBuffers : Prop :=
  ∀ s t : State, s.BuffersOk → step s = .next t → t.BuffersOk ∧ t.params = s.params

/-- Every step keeps the command protocol (rules R121, R127, R131, R800, R822). -/
def Obligations.StepKeepsTheProtocol : Prop :=
  ∀ s t : State, s.ProtocolOk → step s = .next t → t.ProtocolOk

/-- Every step keeps what the validity flags claim: no command or host access leaves TREE_V = 1 with a tree that is not the one BUILD
makes of FREQ, or CODE_V = 1 with codes that are not that tree's (rules R114, R115). -/
def Obligations.StepKeepsTheValidityFlags : Prop :=
  ∀ s t : State, s.ValidityOk → step s = .next t → t.ValidityOk

/-- Every step keeps the arena zero from NNODES on, and keeps CODE_LEN the length of CODE (rules R462, R113); the second needs the
validity flags' invariant, since GENCODE runs on the tree that TREE_V promises. -/
def Obligations.StepKeepsTheArrays : Prop :=
  ∀ s t : State, s.ValidityOk → s.ArenaTailZero → s.CodeLengthsAgree → step s = .next t → t.ArenaTailZero ∧ t.CodeLengthsAgree
end

