-- ==== Sys2Proof/Laws/Bits.lean ====
section
/-! SUPPORT. Bit strings and their packing into bytes (rules R31, R211, R553). -/

namespace Sys2Proof.Machine

/-- Bit 7 − k of a byte of eight bits is the k-th of them. -/
theorem byteOfBits_getLsbD (p : Bits) (hp : p.length = 8) (k : Nat) (hk : k < 8) :
    (byteOfBits p).getLsbD (7 - k) = p.getD k false := by
  match p, hp with
  | [a, b, c, d, e, f, g, h], _ =>
    have : ∀ a b c d e f g h : Bool, ∀ k < 8,
        (byteOfBits [a, b, c, d, e, f, g, h]).getLsbD (7 - k) = [a, b, c, d, e, f, g, h].getD k false := by decide +kernel
    exact this a b c d e f g h k hk

@[simp] theorem takeBytes_length (n : Nat) (p : Bits) : (takeBytes n p).length = n := by
  induction n generalizing p with
  | zero => rfl
  | succ n ih => simp [takeBytes, ih]

/-- Bit k of a packed bit string is bit 7 − (k mod 8) of byte ⌊k/8⌋ (rules R31, R211). -/
theorem takeBytes_getLsbD (n : Nat) (p : Bits) (hp : 8 * n ≤ p.length) (k : Nat) (hk : k < 8 * n) :
    ((takeBytes n p)[k / 8]'(by simp; omega)).getLsbD (7 - k % 8) = p.getD k false := by
  induction n generalizing p k with
  | zero => omega
  | succ n ih =>
    by_cases h8 : k < 8
    · have h0 : k / 8 = 0 := by omega
      have hm : k % 8 = k := by omega
      have hl : (p.take 8).length = 8 := by simp; omega
      simp only [takeBytes, h0, hm, List.getElem_cons_zero]
      rw [byteOfBits_getLsbD _ hl k h8]
      simp [List.getD_eq_getElem?_getD, h8]
    · have h0 : k / 8 = (k - 8) / 8 + 1 := by omega
      have hm : k % 8 = (k - 8) % 8 := by omega
      have := ih (p.drop 8) (by simp; omega) (k - 8) (by omega)
      simp only [takeBytes, h0, hm, List.getElem_cons_succ]
      rw [this]
      simp only [List.getD_eq_getElem?_getD, List.getElem?_drop]
      congr 2
      omega

theorem padded_length (p : Bits) : (padded p).length = 8 * ceilDiv8 p.length := by
  simp [padded, padCount, ceilDiv8]
  omega

theorem padCount_eq (n : Nat) : padCount n = 8 * ceilDiv8 n - n := by
  simp [padCount, ceilDiv8]
  omega

theorem packBits_length (p : Bits) : (packBits p).length = ceilDiv8 p.length := by
  simp [packBits, bitsToBytes, padded_length]

/-- The packed payload holds the stream and then zeros (rules R552, R553). -/
theorem packBits_getLsbD (p : Bits) (k : Nat) (hk : k < 8 * ceilDiv8 p.length) :
    ((packBits p)[k / 8]'(by rw [packBits_length]; omega)).getLsbD (7 - k % 8) = p.getD k false := by
  have h8 : (padded p).length / 8 = ceilDiv8 p.length := by rw [padded_length]; omega
  refine (takeBytes_getLsbD ((padded p).length / 8) (padded p) (by omega) k (by rw [h8]; exact hk)).trans ?_
  by_cases hl : k < p.length
  · simp [padded, List.getD_eq_getElem?_getD, List.getElem?_append_left hl]
  · rw [padded, List.getD_eq_getElem?_getD, List.getElem?_append_right (by omega), List.getD_eq_getElem?_getD,
      List.getElem?_eq_none (by omega : p.length ≤ k)]
    simp [List.getElem?_replicate]
    split <;> rfl

end Sys2Proof.Machine
end

