-- ==== Sys2Proof/Laws/Table.lean ====
section
/-! SUPPORT. Tables indexed by symbol, and the readings of the frequency table. -/

namespace Sys2Proof.Machine

@[simp] theorem Table.entry_tabulate {α : Type} (f : Byte → α) (b : Byte) : (Table.tabulate f).entry b = f b := by
  simp [Table.entry, Table.tabulate, symbols]

@[simp] theorem Table.entry_mapValues {α β : Type} (f : α → β) (t : Table α) (b : Byte) :
    (Table.mapValues f t).entry b = f (t.entry b) := by
  simp [Table.entry, Table.mapValues]

theorem Table.entry_put {α : Type} (t : Table α) (b c : Byte) (v : α) :
    (Table.put t b v).entry c = if c = b then v else t.entry c := by
  by_cases h : c = b
  · simp [Table.entry, Table.put, h]
  · have : b.toNat ≠ c.toNat := fun e => h (BitVec.eq_of_toNat_eq e.symm)
    simp [Table.entry, Table.put, h, this]

/-- Two tables with the same entries are equal. -/
theorem Table.ext {α : Type} {t u : Table α} (h : ∀ b, t.entry b = u.entry b) : t = u := by
  apply Vector.ext
  intro i hi
  have := h (BitVec.ofNat 8 i)
  simpa [Table.entry, Nat.mod_eq_of_lt hi] using this

@[simp] theorem Table.entry_replicate {α : Type} (v : α) (b : Byte) : Table.entry (Vector.replicate 256 v) b = v := by
  simp [Table.entry]

theorem Table.tabulate_const {α : Type} (v : α) : Table.tabulate (fun _ => v) = Vector.replicate 256 v :=
  Table.ext fun b => by simp

/-- The rows of a table, symbol by symbol. -/
theorem Table.rows_eq {α : Type} (t : Table α) : Table.rows t = symbols.map fun b => (b, t.entry b) := by
  apply List.ext_getElem
  · simp [Table.rows, symbols]
  · intro i h1 h2
    have hi : i < 256 := by simpa [symbols] using h2
    simp [Table.rows, symbols, Table.entry, Nat.mod_eq_of_lt hi]

theorem mem_symbols (b : Byte) : b ∈ symbols := by
  simp only [symbols, List.mem_map, List.mem_range]
  exact ⟨b.toNat, b.isLt, by simp⟩

theorem present_eq (t : Table (BitVec 32)) : present t = symbols.filter fun b => decide (1 ≤ (t.entry b).toNat) := by
  simp [present, Table.rows_eq, List.filter_map, Function.comp_def]

/-- A symbol is present iff its count is at least 1 (rule R110). -/
theorem mem_present {t : Table (BitVec 32)} {b : Byte} : b ∈ present t ↔ 1 ≤ (t.entry b).toNat := by
  simp [present_eq, mem_symbols]

/-- The model's count of the present symbols is rule R34's. -/
theorem popcountPresent_eq (t : Table (BitVec 32)) : popcountPresent t = presentCount t := by
  simp [popcountPresent, presentCount, present_eq, symbols, List.filter_map, List.countP_eq_length_filter, Function.comp_def]

theorem headerLength_eq (t : Table (BitVec 32)) : headerLength t = 6 + 2 * presentCount t := by
  simp [headerLength, popcountPresent_eq]

theorem symbols_pairwise : symbols.Pairwise fun b c => b.toNat < c.toNat := by
  rw [symbols, List.pairwise_map]
  refine List.Pairwise.imp_of_mem ?_ (List.pairwise_lt_range (n := 256))
  intro a b ha hb h
  have ha := List.mem_range.mp ha
  have hb := List.mem_range.mp hb
  simp only [BitVec.toNat_ofNat]
  omega

/-- The present symbols are in ascending order (rule R451). -/
theorem present_pairwise (t : Table (BitVec 32)) : (present t).Pairwise fun b c => b.toNat < c.toNat := by
  rw [present_eq]
  exact symbols_pairwise.filter _

theorem present_nodup (t : Table (BitVec 32)) : (present t).Nodup :=
  (present_pairwise t).imp fun h e => by subst e; omega

theorem presentCount_le (t : Table (BitVec 32)) : presentCount t ≤ 256 := by
  simpa [presentCount] using List.countP_le_length (p := fun k => decide (1 ≤ (t.entry (BitVec.ofNat 8 k)).toNat)) (l := List.range 256)

theorem firstOver_eq (t : Table (BitVec 32)) : firstOver t = symbols.find? fun b => decide (255 < (t.entry b).toNat) := by
  simp [firstOver, Table.rows_eq, List.find?_map, Function.comp_def]

/-- No count exceeds 255. -/
theorem firstOver_eq_none {t : Table (BitVec 32)} : firstOver t = none ↔ ∀ b, (t.entry b).toNat ≤ 255 := by
  simp [firstOver_eq, mem_symbols]

/-- The least symbol whose count exceeds 255 (rules R420, R650). -/
theorem firstOver_eq_some {t : Table (BitVec 32)} {b : Byte} (hb : 255 < (t.entry b).toNat)
    (hc : ∀ c : Byte, c.toNat < b.toNat → (t.entry c).toNat ≤ 255) : firstOver t = some b := by
  rw [firstOver_eq]
  cases h : symbols.find? fun b => decide (255 < (t.entry b).toNat) with
  | none =>
    have := List.find?_eq_none.mp h b (mem_symbols b)
    simp at this
    omega
  | some c =>
    have hp : 255 < (t.entry c).toNat := by simpa using List.find?_some h
    obtain ⟨_, as, bs, hab, hall⟩ := List.find?_eq_some_iff_append.mp h
    have hmem : b ∈ as ++ c :: bs := hab ▸ mem_symbols b
    rcases List.mem_append.mp hmem with hm | hm
    · have := hall b hm
      simp at this
      omega
    · rcases List.mem_cons.mp hm with rfl | hm
      · rfl
      · have hpw := symbols_pairwise
        rw [hab] at hpw
        have := (List.pairwise_append.mp hpw).2.1
        have := (List.pairwise_cons.mp this).1 b hm
        have := hc c this
        omega

/-- The place of a present symbol among the present ones, counted from below. -/
theorem present_getElem {t : Table (BitVec 32)} {b : Byte} (hb : 1 ≤ (t.entry b).toNat) :
    (present t)[presentBelow t b]? = some b := by
  have hs : List.range 256 = List.range b.toNat ++ (List.range (256 - b.toNat)).map (b.toNat + ·) := by
    have := b.isLt
    rw [← List.range_add]
    congr 1
    omega
  have hlen : presentBelow t b = (((List.range b.toNat).map (BitVec.ofNat 8)).filter
      fun b => decide (1 ≤ (t.entry b).toNat)).length := by
    simp [presentBelow, List.filter_map, List.countP_eq_length_filter, Function.comp_def]
  rw [present_eq, symbols, hs, List.map_append, List.filter_append, hlen, List.getElem?_append_right (Nat.le_refl _),
    Nat.sub_self]
  have h0 : 256 - b.toNat = (255 - b.toNat) + 1 := by have := b.isLt; omega
  rw [h0, List.range_succ_eq_map]
  simp [hb]

end Sys2Proof.Machine
end

