-- ==== Sys2Proof/Laws/Tree.lean ====
section
/-! SUPPORT. Everything the merge loop of BUILD can do, said once: the arenas and active lists it passes through (`Merges`), and what
holds of each of them (rules R450 to R457). -/

namespace Sys2Proof.Machine

/-! ### The least key -/

theorem keyLess_iff {arena : List Node} {i j : Nat} : keyLess arena i j = true ↔
    nodeFreq arena i < nodeFreq arena j ∨ (nodeFreq arena i = nodeFreq arena j ∧ i < j) := by
  simp [keyLess]

theorem leastFrom_mem (arena : List Node) (is : List Nat) (i : Nat) : leastFrom arena i is ∈ i :: is := by
  induction is generalizing i with
  | nil => simp [leastFrom]
  | cons j js ih =>
    simp only [leastFrom]
    have := ih (if keyLess arena j i then j else i)
    split at this <;> rename_i hk <;> simp only [hk, if_true, Bool.false_eq_true, if_false, List.mem_cons] at this ⊢ <;> tauto

/-- The least key is less than every other key, or equal to it at the same index. -/
theorem leastFrom_le (arena : List Node) (is : List Nat) (i : Nat) :
    ∀ j ∈ i :: is, j = leastFrom arena i is ∨ keyLess arena (leastFrom arena i is) j = true := by
  induction is generalizing i with
  | nil => simp [leastFrom]
  | cons k ks ih =>
    intro j hj
    simp only [leastFrom]
    have ih' := ih (if keyLess arena k i then k else i)
    have hhead := ih' _ List.mem_cons_self
    simp only [List.mem_cons] at hj
    by_cases hk : keyLess arena k i = true
    · simp only [hk, if_true] at ih' hhead ⊢
      rcases hj with rfl | rfl | hj
      · rw [keyLess_iff] at hk
        rcases hhead with h | h
        · right; rw [← h, keyLess_iff]; exact hk
        · right; rw [keyLess_iff] at h ⊢; omega
      · exact ih' _ List.mem_cons_self
      · exact ih' _ (List.mem_cons_of_mem _ hj)
    · simp only [hk] at ih' hhead ⊢
      rcases hj with rfl | rfl | hj
      · exact ih' _ List.mem_cons_self
      · rw [keyLess_iff] at hk
        by_cases hji : j = i
        · exact hji ▸ hhead
        · right
          simp only [Bool.false_eq_true, if_false] at hhead ⊢
          rcases hhead with h | h
          · rw [← h, keyLess_iff]; omega
          · rw [keyLess_iff] at h ⊢; omega
      · exact ih' _ (List.mem_cons_of_mem _ hj)

/-- `leastOf` answers a member whose key is less than that of every other member (rule R453), or the list is empty. -/
theorem leastOf_cases (arena : List Node) (is : List Nat) :
    (is = [] ∧ leastOf arena is = none)
      ∨ ∃ a, leastOf arena is = some a ∧ a ∈ is ∧ ∀ j ∈ is, j ≠ a → keyLess arena a j = true := by
  cases is with
  | nil => exact .inl ⟨rfl, rfl⟩
  | cons i is =>
    refine .inr ⟨_, rfl, leastFrom_mem arena is i, fun j hj hne => ?_⟩
    exact (leastFrom_le arena is i j hj).resolve_left hne

theorem leastOf_some {arena : List Node} {is : List Nat} {a : Nat} (h : leastOf arena is = some a) :
    a ∈ is ∧ ∀ j ∈ is, j ≠ a → keyLess arena a j = true := by
  rcases leastOf_cases arena is with ⟨_, h'⟩ | ⟨b, h', hb⟩
  · simp [h'] at h
  · obtain rfl : b = a := by simpa [h'] using h
    exact hb

/-! ### The loop -/

/-- The arenas and active lists that the merge loop of rule R450 passes through from the leaves `ls` on. -/
inductive Merges (ls : List Node) : List Node → List Nat → Prop where
  | start : Merges ls ls (List.range ls.length)
  | merge {arena active a b} : Merges ls arena active → leastOf arena active = some a →
      leastOf arena (active.erase a) = some b →
      Merges ls (arena ++ [mergedNode arena a b]) ((active.erase a).erase b ++ [arena.length])

/-- With enough fuel the loop ends in an arena of `Merges` with at most one active entry. -/
theorem mergeLoop_merges {ls arena : List Node} {active : List Nat} (fuel : Nat) (h : Merges ls arena active) :
    Merges ls (mergeLoop fuel arena active).1 (mergeLoop fuel arena active).2
      ∧ (active.length ≤ fuel + 1 → (mergeLoop fuel arena active).2.length ≤ 1) := by
  induction fuel generalizing arena active with
  | zero => exact ⟨h, fun hl => hl⟩
  | succ fuel ih =>
    simp only [mergeLoop]
    rcases leastOf_cases arena active with ⟨rfl, ha⟩ | ⟨a, ha, hm, _⟩
    · simp only [ha]
      exact ⟨h, fun _ => by simp⟩
    · simp only [ha]
      have hlen := List.length_erase_of_mem hm
      rcases leastOf_cases arena (active.erase a) with ⟨he, hb⟩ | ⟨b, hb, hm', _⟩
      · simp only [hb]
        refine ⟨h, fun _ => ?_⟩
        rw [he] at hlen
        simp only [List.length_nil] at hlen
        omega
      · simp only [hb]
        obtain ⟨h1, h2⟩ := ih (Merges.merge h ha hb)
        refine ⟨h1, fun hl => h2 ?_⟩
        have hlen' := List.length_erase_of_mem hm'
        have := List.length_pos_of_mem hm'
        simp only [List.length_append, List.length_singleton]
        omega

variable {ls arena : List Node} {active : List Nat}

/-- Each merge adds one entry and leaves one active entry less (rule R456). -/
theorem Merges.length (h : Merges ls arena active) : arena.length + active.length = 2 * ls.length := by
  induction h with
  | start => simp; omega
  | merge _ ha hb ih =>
    have h1 := List.length_erase_of_mem (leastOf_some ha).1
    have h2 := List.length_erase_of_mem (leastOf_some hb).1
    have h3 := List.length_pos_of_mem (leastOf_some hb).1
    simp only [List.length_append, List.length_singleton]
    omega

theorem Merges.length_active (h : Merges ls arena active) (hn : 1 ≤ ls.length) : 1 ≤ active.length := by
  cases h with
  | start => simpa using hn
  | merge => simp

/-- The newest entry is active. -/
theorem Merges.last_active (h : Merges ls arena active) (hn : 1 ≤ ls.length) : arena.length - 1 ∈ active := by
  cases h with
  | start => simpa using by omega
  | merge => simp

/-- The leaves stay where they are, at the front (rules R451, R452). -/
theorem Merges.leaves_front (h : Merges ls arena active) : ls <+: arena := by
  induction h with
  | start => exact List.prefix_rfl
  | merge _ _ _ ih => exact ih.trans (List.prefix_append _ _)

/-- The active indices are strictly rising, and all are entries of the arena. -/
theorem Merges.active_rising (h : Merges ls arena active) :
    active.Pairwise (· < ·) ∧ ∀ i ∈ active, i < arena.length := by
  induction h with
  | start => exact ⟨List.pairwise_lt_range, fun i hi => by simpa using hi⟩
  | merge _ _ _ ih =>
    rename_i arena' act a b _ _ _
    obtain ⟨h1, h2⟩ := ih
    have h3 : ∀ i ∈ (act.erase a).erase b, i < arena'.length :=
      fun i hi => h2 i (List.mem_of_mem_erase (List.mem_of_mem_erase hi))
    refine ⟨List.pairwise_append.mpr ⟨(h1.erase _).erase _, List.pairwise_singleton _ _, fun i hi j hj => ?_⟩, fun i hi => ?_⟩
    · obtain rfl : j = _ := by simpa using hj
      exact h3 i hi
    · simp only [List.length_append, List.length_singleton]
      rcases List.mem_append.mp hi with hi | hi
      · have := h3 i hi
        omega
      · obtain rfl : i = _ := by simpa using hi
        omega

theorem Merges.active_nodup (h : Merges ls arena active) : active.Nodup :=
  h.active_rising.1.imp fun hlt he => by omega

/-- Where an internal entry came from: the arena before it, the active list of that time, and its two children, the first of least
key and the second of least key among the rest (rules R453, R454). -/
theorem Merges.history (h : Merges ls arena active) {i : Nat} (h1 : ls.length ≤ i) (h2 : i < arena.length) :
    ∃ act a b, Merges ls (arena.take i) act ∧ leastOf (arena.take i) act = some a
      ∧ leastOf (arena.take i) (act.erase a) = some b ∧ arena[i]? = some (mergedNode (arena.take i) a b) := by
  induction h with
  | start => omega
  | merge hm ha hb ih =>
    rename_i arena' act a b
    simp only [List.length_append, List.length_singleton] at h2
    by_cases hi : i < arena'.length
    · rw [List.take_append_of_le_length (by omega), List.getElem?_append_left hi]
      exact ih hi
    · obtain rfl : i = arena'.length := by omega
      refine ⟨act, a, b, ?_⟩
      rw [List.take_append_of_le_length (Nat.le_refl _), List.take_length, List.getElem?_concat_length]
      exact ⟨hm, ha, hb, rfl⟩

/-- The two children of a merge are different active entries, in the order of their keys, and every other active entry's key is
greater than both (rule R453). -/
theorem Merges.children (h : Merges ls arena active) {a b : Nat} (ha : leastOf arena active = some a)
    (hb : leastOf arena (active.erase a) = some b) :
    a ∈ active ∧ b ∈ active ∧ a ≠ b ∧ (∀ j ∈ active, j ≠ a → keyLess arena a j = true)
      ∧ ∀ j ∈ active, j ≠ a → j ≠ b → keyLess arena b j = true := by
  obtain ⟨ha1, ha2⟩ := leastOf_some ha
  obtain ⟨hb1, hb2⟩ := leastOf_some hb
  have hmem : ∀ j, j ∈ active.erase a ↔ j ≠ a ∧ j ∈ active := fun j => h.active_nodup.mem_erase_iff
  have hb' := (hmem b).mp hb1
  exact ⟨ha1, hb'.2, fun he => hb'.1 he.symm, ha2, fun j hj hja hjb => hb2 j ((hmem j).mpr ⟨hja, hj⟩) hjb⟩

/-- The frequency of an entry is its own, whatever is appended to the arena after it. -/
theorem nodeFreq_append {arena more : List Node} {i : Nat} (h : i < arena.length) :
    nodeFreq (arena ++ more) i = nodeFreq arena i := by
  simp [nodeFreq, List.getD_eq_getElem?_getD, List.getElem?_append_left h]

/-- The frequencies of the active entries always sum to the leaves', if that sum fits NFREQ's 40 bits (rule R457). -/
theorem Merges.sum (h : Merges ls arena active) (hfit : (ls.map fun n => n.nfreq.toNat).sum < 2 ^ 40) :
    (active.map (nodeFreq arena)).sum = (ls.map fun n => n.nfreq.toNat).sum := by
  induction h with
  | start =>
    congr 1
    apply List.ext_getElem
    · simp
    · intro i h1 h2
      simp only [List.length_map, List.length_range] at h1
      simp [nodeFreq, List.getD_eq_getElem?_getD, h1]
  | merge hm ha hb ih =>
    rename_i arena' act a b
    have hlt := hm.active_rising.2
    obtain ⟨hma, hmb, _⟩ := hm.children ha hb
    have ha' := List.sum_map_erase (nodeFreq arena') hma
    have hb' := List.sum_map_erase (nodeFreq arena') (leastOf_some hb).1
    have hkeep : ((act.erase a).erase b).map (nodeFreq (arena' ++ [mergedNode arena' a b]))
        = ((act.erase a).erase b).map (nodeFreq arena') :=
      List.map_congr_left fun i hi => nodeFreq_append (hlt i (List.mem_of_mem_erase (List.mem_of_mem_erase hi)))
    have hnew : nodeFreq (arena' ++ [mergedNode arena' a b]) arena'.length = nodeFreq arena' a + nodeFreq arena' b := by
      simp only [nodeFreq, List.getD_eq_getElem?_getD, List.getElem?_concat_length, Option.getD_some, mergedNode]
      rw [BitVec.toNat_ofNat, Nat.mod_eq_of_lt]
      simp only [nodeFreq, List.getD_eq_getElem?_getD] at ha' hb' ih
      omega
    rw [List.map_append, List.sum_append, hkeep]
    simp only [List.map_cons, List.map_nil, List.sum_cons, List.sum_nil, hnew]
    omega

/-! ### Parents -/

/-- Entry `j` is a child of the internal entry `k`. -/
def ChildOf (ls arena : List Node) (j k : Nat) : Prop :=
  ls.length ≤ k ∧ k < arena.length ∧ ((arena.getD k Node.zero).left.toNat = j ∨ (arena.getD k Node.zero).right.toNat = j)

/-- With at most 256 leaves the arena never exceeds its 511 entries (rule R450: "n = 256 uses all 511 arena entries"). -/
theorem Merges.length_le (h : Merges ls arena active) (h1 : 1 ≤ ls.length) (hn : ls.length ≤ 256) : arena.length ≤ 511 := by
  have := h.length
  have := h.length_active h1
  omega

theorem mergedNode_left {a b : Nat} (ha : a < 512) : (mergedNode arena a b).left.toNat = a := by
  simp [mergedNode, Nat.mod_eq_of_lt ha]

theorem mergedNode_right {a b : Nat} (hb : b < 512) : (mergedNode arena a b).right.toNat = b := by
  simp [mergedNode, Nat.mod_eq_of_lt hb]

/-- An internal entry has two different children, both before it (rule R458 (a)). -/
theorem Merges.child_lt (h : Merges ls arena active) (h1 : 1 ≤ ls.length) (hn : ls.length ≤ 256) {i : Nat} (hi : ls.length ≤ i)
    (hi' : i < arena.length) : (arena.getD i Node.zero).leaf = false ∧ (arena.getD i Node.zero).left.toNat < i
      ∧ (arena.getD i Node.zero).right.toNat < i
      ∧ (arena.getD i Node.zero).left.toNat ≠ (arena.getD i Node.zero).right.toNat := by
  obtain ⟨act, a, b, hm, ha, hb, he⟩ := h.history hi hi'
  have hle := hm.length_le h1 hn
  have hlen : (arena.take i).length = i := by simp; omega
  obtain ⟨hma, hmb, hab, _⟩ := hm.children ha hb
  have h3 := hm.active_rising.2 a hma
  have h4 := hm.active_rising.2 b hmb
  rw [hlen] at h3 h4 hle
  simp only [List.getD_eq_getElem?_getD, he, Option.getD_some]
  rw [mergedNode_left (by omega), mergedNode_right (by omega)]
  exact ⟨by simp [mergedNode], h3, h4, hab⟩

theorem childOf_append {n : Node} {j k : Nat} (hl : ls.length ≤ arena.length) : ChildOf ls (arena ++ [n]) j k ↔
    ChildOf ls arena j k ∨ (k = arena.length ∧ (n.left.toNat = j ∨ n.right.toNat = j)) := by
  unfold ChildOf
  simp only [List.length_append, List.length_singleton, List.getD_eq_getElem?_getD]
  by_cases hk : k < arena.length
  · rw [List.getElem?_append_left hk]
    constructor
    · rintro ⟨h1, _, h2⟩
      exact .inl ⟨h1, hk, h2⟩
    · rintro (⟨h1, _, h2⟩ | ⟨h, _⟩)
      · exact ⟨h1, by omega, h2⟩
      · omega
  · by_cases he : k = arena.length
    · subst he
      simp only [List.getElem?_concat_length, Option.getD_some]
      constructor
      · rintro ⟨_, _, h⟩
        exact .inr ⟨trivial, h⟩
      · rintro (⟨_, h, _⟩ | ⟨_, h⟩)
        · omega
        · exact ⟨hl, by omega, h⟩
    · constructor
      · rintro ⟨_, h, _⟩
        omega
      · rintro (⟨_, h, _⟩ | ⟨h, _⟩) <;> omega

/-- Every entry is either active, and no entry's child, or no longer active, and the child of exactly one (rule R458 (c)). -/
theorem Merges.parents (h : Merges ls arena active) (h1 : 1 ≤ ls.length) (hn : ls.length ≤ 256) :
    ∀ j < arena.length, (j ∈ active ∧ ∀ k, ¬ ChildOf ls arena j k) ∨ (j ∉ active ∧ ∃! k, ChildOf ls arena j k) := by
  induction h with
  | start => exact fun j hj => .inl ⟨by simpa using hj, fun k hk => by have := hk.1; have := hk.2.1; omega⟩
  | merge hm ha hb ih =>
    rename_i arena' act a b
    intro j hj
    have hfront := hm.leaves_front.length_le
    have hle := hm.length_le h1 hn
    obtain ⟨hma, hmb, hab, _⟩ := hm.children ha hb
    have hlta := hm.active_rising.2 a hma
    have hltb := hm.active_rising.2 b hmb
    have hiff : ∀ j k, ChildOf ls (arena' ++ [mergedNode arena' a b]) j k
        ↔ ChildOf ls arena' j k ∨ (k = arena'.length ∧ (a = j ∨ b = j)) := by
      intro j k
      rw [childOf_append hfront, mergedNode_left (by omega), mergedNode_right (by omega)]
    have hact : ∀ j, j ∈ (act.erase a).erase b ++ [arena'.length] ↔ (j ≠ b ∧ j ≠ a ∧ j ∈ act) ∨ j = arena'.length := by
      intro j
      rw [List.mem_append, List.mem_singleton, (hm.active_nodup.erase a).mem_erase_iff, hm.active_nodup.mem_erase_iff]
    simp only [List.length_append, List.length_singleton] at hj
    by_cases hjL : j = arena'.length
    · subst hjL
      refine .inl ⟨(hact _).mpr (.inr rfl), fun k hk => ?_⟩
      rcases (hiff _ _).mp hk with hk | ⟨_, hk⟩
      · obtain ⟨_, h3, h4, _⟩ := hm.child_lt h1 hn hk.1 hk.2.1
        have := hk.2.1
        rcases hk.2.2 with h | h <;> omega
      · omega
    · have hjlt : j < arena'.length := by omega
      by_cases hjab : a = j ∨ b = j
      · have hjact : j ∈ act := by rcases hjab with rfl | rfl <;> assumption
        refine .inr ⟨fun hmem => ?_, arena'.length, (hiff _ _).mpr (.inr ⟨rfl, hjab⟩), fun k hk => ?_⟩
        · rcases (hact _).mp hmem with h | h <;> omega
        · rcases (hiff _ _).mp hk with hk | ⟨hk, _⟩
          · rcases ih j hjlt with ⟨_, h⟩ | ⟨h, _⟩
            · exact absurd hk (h k)
            · exact absurd hjact h
          · exact hk
      · rcases ih j hjlt with ⟨hja, hno⟩ | ⟨hja, k, hk, huniq⟩
        · refine .inl ⟨(hact _).mpr (.inl ⟨by omega, by omega, hja⟩), fun k hk => ?_⟩
          rcases (hiff _ _).mp hk with hk | ⟨_, hk⟩
          · exact hno k hk
          · exact hjab hk
        · refine .inr ⟨fun hmem => ?_, k, (hiff _ _).mpr (.inl hk), fun k' hk' => ?_⟩
          · rcases (hact _).mp hmem with h | h
            · exact hja h.2.2
            · omega
          · rcases (hiff _ _).mp hk' with hk' | ⟨_, hk'⟩
            · exact huniq k' hk'
            · exact absurd hk' hjab

/-! ### The tree of a frequency table -/

theorem leaves_length (t : Table (BitVec 32)) : (leaves t).length = presentCount t := by
  rw [← popcountPresent_eq]
  simp [leaves, popcountPresent]

/-- BUILD's computation fails exactly on the empty table (rule R450). -/
theorem huffmanTree_eq_none {t : Table (BitVec 32)} : huffmanTree t = none ↔ presentCount t = 0 := by
  rw [← leaves_length]
  unfold huffmanTree
  cases leaves t <;> simp

/-- Everything `huffmanTree` can answer: an arena the merge loop passes through, with one active entry left, the last one
(rules R450, R456, R459). -/
theorem huffmanTree_some {t : Table (BitVec 32)} {arena : List Node} {r : Nat} (h : huffmanTree t = some (arena, r)) :
    1 ≤ presentCount t ∧ Merges (leaves t) arena [r] ∧ arena.length = 2 * presentCount t - 1 ∧ r = 2 * presentCount t - 2 := by
  have hlen := leaves_length t
  unfold huffmanTree at h
  cases hl : leaves t with
  | nil => simp [hl] at h
  | cons l ls =>
    rw [hl] at h
    simp only [Option.some.injEq, Prod.mk.injEq] at h
    obtain ⟨h2, h3⟩ := mergeLoop_merges (ls.length + 1) (Merges.start (ls := l :: ls))
    simp only [List.length_cons, List.length_range] at h2 h3
    have h3 := h3 (by omega)
    have h4 := h2.length_active (by simp)
    rw [h.1] at h2
    obtain ⟨hr⟩ : ∃ hr : (mergeLoop (ls.length + 1) (l :: ls) (List.range (ls.length + 1))).2 = [r], True := by
      refine ⟨?_, trivial⟩
      have hr := h.2
      revert h3 h4 hr
      cases (mergeLoop (ls.length + 1) (l :: ls) (List.range (ls.length + 1))).2 with
      | nil => simp
      | cons x xs => cases xs <;> simp
    rw [hr] at h2
    have h5 := h2.length
    rw [← hl] at h5 h2 ⊢
    simp only [List.length_singleton] at h5
    have hpos : 1 ≤ presentCount t := by rw [← hlen, hl]; simp
    have h6 := h2.last_active (by omega)
    simp only [List.mem_singleton] at h6
    exact ⟨hpos, h2, by omega, by omega⟩

end Sys2Proof.Machine
end

