-- ==== Sys2Proof/Laws/CodeTree.lean ====
section
/-! SUPPORT. The tree an arena holds, as an inductive type; what BUILD's arena holds (rules R450, R458); and everything GENCODE's
traversal and UNPACK's loop do on it (rules R500 to R507, R600 to R607). -/

namespace Sys2Proof.Machine

/-- A binary tree with a symbol at every leaf; `zero` is the LEFT child, `one` the RIGHT child. -/
inductive CodeTree where
  | leaf (b : Byte)
  | node (zero one : CodeTree)
  deriving DecidableEq, Repr

namespace CodeTree

/-- The symbols of the leaves, left to right. -/
def syms : CodeTree → List Byte
  | .leaf b => [b]
  | .node l r => l.syms ++ r.syms

/-- The leaves with their paths (rule R501), left to right. -/
def paths : CodeTree → List (Byte × Bits)
  | .leaf b => [(b, [])]
  | .node l r => l.paths.map (fun c => (c.1, false :: c.2)) ++ r.paths.map (fun c => (c.1, true :: c.2))

/-- The length of the longest path. -/
def depth : CodeTree → Nat
  | .leaf _ => 0
  | .node l r => max l.depth r.depth + 1

theorem paths_syms (t : CodeTree) : t.paths.map Prod.fst = t.syms := by
  induction t with
  | leaf b => rfl
  | node l r hl hr => simp [paths, syms, ← hl, ← hr, Function.comp_def]

theorem syms_pos (t : CodeTree) : 1 ≤ t.syms.length := by
  induction t with
  | leaf b => simp [syms]
  | node l r hl hr => simp only [syms, List.length_append]; omega

/-- A tree of n leaves has paths of at most n − 1 bits (rule R506). -/
theorem depth_lt (t : CodeTree) : t.depth < t.syms.length := by
  induction t with
  | leaf b => simp [depth, syms]
  | node l r hl hr =>
    have := l.syms_pos
    have := r.syms_pos
    simp only [depth, syms, List.length_append]
    omega

theorem path_le_depth (t : CodeTree) : ∀ c ∈ t.paths, c.2.length ≤ t.depth := by
  induction t with
  | leaf b => simp [paths, depth]
  | node l r hl hr =>
    intro c hc
    simp only [paths, List.mem_append, List.mem_map] at hc
    rcases hc with ⟨d, hd, rfl⟩ | ⟨d, hd, rfl⟩
    · have := hl d hd
      simp only [depth, List.length_cons]
      omega
    · have := hr d hd
      simp only [depth, List.length_cons]
      omega

/-- No path is a prefix of another leaf's path (rule R504). -/
theorem paths_prefixFree (t : CodeTree) : t.paths.Pairwise fun c d => ¬ c.2 <+: d.2 ∧ ¬ d.2 <+: c.2 := by
  induction t with
  | leaf b => exact List.pairwise_singleton _ _
  | node l r hl hr =>
    simp only [paths, List.pairwise_append, List.pairwise_map, List.cons_prefix_cons, true_and, List.mem_map]
    refine ⟨hl, hr, ?_⟩
    rintro c ⟨c', _, rfl⟩ d ⟨d', _, rfl⟩
    simp [List.cons_prefix_cons]

/-- The paths are complete (rule R507), stated without fractions. -/
theorem paths_complete (t : CodeTree) {m : Nat} (h : t.depth ≤ m) : (t.paths.map fun c => 2 ^ (m - c.2.length)).sum = 2 ^ m := by
  induction t generalizing m with
  | leaf b => simp [paths]
  | node l r hl hr =>
    simp only [depth] at h
    obtain ⟨k, rfl⟩ : ∃ k, m = k + 1 := ⟨m - 1, by omega⟩
    have h1 := hl (m := k) (by omega)
    have h2 := hr (m := k) (by omega)
    simp only [paths, List.map_append, List.map_map, List.sum_append, Function.comp_def, List.length_cons, Nat.add_sub_add_right,
      h1, h2]
    rw [pow_succ]
    omega

end CodeTree

/-! ### The tree an arena holds -/

/-- Entry `i` of an arena, looked up by `look`, is the root of the tree. -/
inductive Grows (look : Nat → Option Node) : Nat → CodeTree → Prop where
  | leaf {i n} : look i = some n → n.leaf = true → Grows look i (.leaf n.sym)
  | node {i n l r} : look i = some n → n.leaf = false → Grows look n.left.toNat l → Grows look n.right.toNat r →
      Grows look i (.node l r)

/-- A tree stays what it is when entries are added to the arena. -/
theorem Grows.mono {look look' : Nat → Option Node} {i : Nat} {t : CodeTree} (h : Grows look i t)
    (hl : ∀ j n, look j = some n → look' j = some n) : Grows look' i t := by
  induction h with
  | leaf h1 h2 => exact .leaf (hl _ _ h1) h2
  | node h1 h2 _ _ ih1 ih2 => exact .node (hl _ _ h1) h2 ih1 ih2

/-- Every active entry of the merge loop is the root of a tree, and together their leaves are the leaves of the table. -/
theorem Merges.trees {ls arena : List Node} {active : List Nat} (h : Merges ls arena active) (h1 : 1 ≤ ls.length)
    (hn : ls.length ≤ 256) (hleaf : ∀ n ∈ ls, n.leaf = true) :
    ∃ f : Nat → CodeTree, (∀ i ∈ active, Grows (fun j => arena[j]?) i (f i))
      ∧ (active.flatMap fun i => (f i).syms).Perm (ls.map Node.sym) := by
  induction h with
  | start =>
    refine ⟨fun i => .leaf (ls.getD i Node.zero).sym, fun i hi => ?_, ?_⟩
    · have hi : i < ls.length := by simpa using hi
      have hg : ls[i]? = some ls[i] := List.getElem?_eq_getElem hi
      simp only [List.getD_eq_getElem?_getD, hg, Option.getD_some]
      exact .leaf hg (hleaf _ (List.getElem_mem hi))
    · refine List.Perm.of_eq ?_
      simp only [CodeTree.syms]
      rw [← List.map_eq_flatMap]
      apply List.ext_getElem
      · simp
      · intro i h2 h3
        simp only [List.length_map, List.length_range] at h2
        simp [List.getD_eq_getElem?_getD, h2]
  | merge hm ha hb ih =>
    rename_i arena' act a b
    obtain ⟨f, hf, hp⟩ := ih
    obtain ⟨hma, hmb, hab, _⟩ := hm.children ha hb
    have hlt := hm.active_rising.2
    have hle := hm.length_le h1 hn
    have hlta := hlt a hma
    have hltb := hlt b hmb
    have hmono : ∀ (j : Nat) (n : Node), arena'[j]? = some n → (arena' ++ [mergedNode arena' a b])[j]? = some n := by
      intro j n hj
      rw [List.getElem?_append_left (List.getElem?_eq_some_iff.mp hj).1]
      exact hj
    refine ⟨fun i => if i = arena'.length then .node (f a) (f b) else f i, fun i hi => ?_, ?_⟩
    · by_cases hiL : i = arena'.length
      · subst hiL
        simp only [if_true]
        refine .node (n := mergedNode arena' a b) (by simp) rfl ?_ ?_
        · rw [mergedNode_left (by omega)]
          exact (hf a hma).mono hmono
        · rw [mergedNode_right (by omega)]
          exact (hf b hmb).mono hmono
      · simp only [hiL, if_false]
        rw [List.mem_append, List.mem_singleton] at hi
        have hi := hi.resolve_right hiL
        exact (hf i (List.mem_of_mem_erase (List.mem_of_mem_erase hi))).mono hmono
    · rw [List.flatMap_append]
      have hsame : (((act.erase a).erase b).flatMap fun i =>
          (if i = arena'.length then CodeTree.node (f a) (f b) else f i).syms)
            = ((act.erase a).erase b).flatMap fun i => (f i).syms := by
        simp only [List.flatMap]
        congr 1
        refine List.map_congr_left fun i hi => ?_
        have := hlt i (List.mem_of_mem_erase (List.mem_of_mem_erase hi))
        rw [if_neg (by omega)]
      rw [hsame]
      have hperm : act.Perm (a :: b :: (act.erase a).erase b) :=
        (List.perm_cons_erase hma).trans (List.Perm.cons _ (List.perm_cons_erase (leastOf_some hb).1))
      refine List.Perm.trans ?_ hp
      refine List.Perm.trans ?_ (hperm.flatMap_right fun i => (f i).syms).symm
      simp only [List.flatMap_cons, List.flatMap_nil, List.append_nil, if_true, CodeTree.syms]
      rw [← List.append_assoc (f a).syms]
      exact List.perm_append_comm

/-- The committed arena holds the entries of the computed one, and zero beyond them. -/
theorem arenaOf_getElem? (arena : List Node) {i : Nat} (h : i < 511) : (arenaOf arena)[i]? = some (arena.getD i Node.zero) := by
  simp [arenaOf, h]

/-- What BUILD leaves, as a tree: its leaves are the present symbols, one each (rule R458). -/
theorem huffmanTree_grows {t : Table (BitVec 32)} {arena : List Node} {r : Nat} (h : huffmanTree t = some (arena, r)) :
    ∃ tree, Grows (fun j => (arenaOf arena)[j]?) r tree ∧ tree.syms.Perm (present t) := by
  obtain ⟨hpos, hm, hlen, _⟩ := huffmanTree_some h
  have hle := presentCount_le t
  have hll := leaves_length t
  obtain ⟨f, hf, hp⟩ := hm.trees (by omega) (by omega) (fun n hn => by
    obtain ⟨b, _, rfl⟩ := List.mem_map.mp hn
    rfl)
  refine ⟨f r, (hf r (by simp)).mono fun j n hj => ?_, ?_⟩
  · have hj' := (List.getElem?_eq_some_iff.mp hj).1
    rw [arenaOf_getElem? arena (by omega), List.getD_eq_getElem?_getD, hj]
    rfl
  · simpa [leaves, leafNode, Function.comp_def] using hp

/-- The tree TREE_V promises (rule R114): `State.ValidityOk` read as a tree over the present symbols. -/
theorem State.ValidityOk.tree {s : State} (h : s.ValidityOk) (ht : s.treeV = true) :
    1 ≤ presentCount s.freq ∧ ∃ tree, Grows (fun j => s.node[j]?) s.root.toNat tree ∧ tree.syms.Perm (present s.freq) := by
  have h := h.1 ht
  unfold treeOf at h
  cases hh : huffmanTree s.freq with
  | none => simp [hh] at h
  | some p =>
    obtain ⟨arena, r⟩ := p
    simp only [hh, Option.map_some, Option.some.injEq, Prod.mk.injEq] at h
    obtain ⟨hn, hr, _⟩ := h
    obtain ⟨hpos, _, _, hrr⟩ := huffmanTree_some hh
    have hle := presentCount_le s.freq
    obtain ⟨tree, hg, hp⟩ := huffmanTree_grows hh
    refine ⟨hpos, tree, ?_, hp⟩
    rw [← hn, ← hr, BitVec.toNat_ofNat, Nat.mod_eq_of_lt (by omega)]
    exact hg

/-- Two or more symbols make an internal root, and one symbol a leaf. -/
theorem tree_node {tree : CodeTree} (h : 2 ≤ tree.syms.length) : ∃ l r, tree = .node l r := by
  cases tree with
  | leaf b => simp [CodeTree.syms] at h
  | node l r => exact ⟨l, r, rfl⟩

/-! ### GENCODE's traversal -/

/-- The traversal from an entry gives the paths of its tree, each behind the path to the entry (rules R500, R501). -/
theorem visit_grows {node : Vector Node 511} {i : BitVec 9} {tree : CodeTree} (h : Grows (fun j => node[j]?) i.toNat tree) :
    ∀ fuel p, tree.depth < fuel → visit node fuel i p = tree.paths.map fun c => (c.1, p ++ c.2) := by
  generalize hi : i.toNat = k at h
  induction h generalizing i with
  | leaf h1 h2 =>
    intro fuel p hd
    obtain ⟨fuel, rfl⟩ : ∃ f, fuel = f + 1 := ⟨fuel - 1, by omega⟩
    rw [← hi] at h1
    simp [visit, h1, h2, CodeTree.paths]
  | node h1 h2 _ _ ih1 ih2 =>
    intro fuel p hd
    simp only [CodeTree.depth] at hd
    obtain ⟨fuel, rfl⟩ : ∃ f, fuel = f + 1 := ⟨fuel - 1, by omega⟩
    rw [← hi] at h1
    simp only [visit, h1, h2, Bool.false_eq_true, if_false, CodeTree.paths, List.map_append, List.map_map, Function.comp_def]
    rw [ih1 rfl fuel _ (by omega), ih2 rfl fuel _ (by omega)]
    simp

/-- The codes of a tree: "0" for a single leaf (rule R503), else the paths from the root (rule R501). -/
theorem treeCodes_grows {node : Vector Node 511} {root : BitVec 9} {tree : CodeTree}
    (h : Grows (fun j => node[j]?) root.toNat tree) (hd : tree.depth < 511) :
    treeCodes node root = match tree with
      | .leaf b => [(b, [false])]
      | .node l r => (CodeTree.node l r).paths := by
  have hv := visit_grows h 511 [] hd
  unfold treeCodes
  cases h with
  | leaf h1 h2 => simp [h1, h2]
  | node h1 h2 _ _ => simp [h1, h2, hv]

/-- A symbol's entry of the code table is its code, if it has one (rule R502). -/
theorem codeTable_entry {cs : List (Byte × Bits)} (hnd : (cs.map Prod.fst).Nodup) {b : Byte} {p : Bits} (h : (b, p) ∈ cs) :
    (codeTable cs).entry b = p := by
  unfold codeTable
  generalize Table.tabulate (fun _ : Byte => ([] : Bits)) = t
  induction cs generalizing t with
  | nil => simp at h
  | cons c cs ih =>
    simp only [List.map_cons, List.nodup_cons, List.foldl_cons] at hnd ⊢
    rcases List.mem_cons.mp h with rfl | h
    · have hno : ∀ (cs : List (Byte × Bits)) (t : Table Bits), b ∉ cs.map Prod.fst →
          (cs.foldl (fun t c => Table.put t c.1 c.2) t).entry b = t.entry b := by
        intro cs
        induction cs with
        | nil => intro t _; rfl
        | cons d cs ih =>
          intro t hd
          simp only [List.map_cons, List.mem_cons, not_or] at hd
          rw [List.foldl_cons, ih _ hd.2, Table.entry_put, if_neg hd.1]
      rw [hno cs _ hnd.1, Table.entry_put, if_pos rfl]
    · exact ih hnd.2 h _

/-- A symbol with no leaf has no code (rule R502). -/
theorem codeTable_entry_absent {cs : List (Byte × Bits)} {b : Byte} (h : b ∉ cs.map Prod.fst) : (codeTable cs).entry b = [] := by
  have hno : ∀ (cs : List (Byte × Bits)) (t : Table Bits), b ∉ cs.map Prod.fst →
      (cs.foldl (fun t c => Table.put t c.1 c.2) t).entry b = t.entry b := by
    intro cs
    induction cs with
    | nil => intro t _; rfl
    | cons d cs ih =>
      intro t hd
      simp only [List.map_cons, List.mem_cons, not_or] at hd
      rw [List.foldl_cons, ih _ hd.2, Table.entry_put, if_neg hd.1]
  unfold codeTable
  rw [hno cs _ h, Table.entry_tabulate]

/-! ### UNPACK's loop -/

/-- The loop on a path of the tree at the cursor: it emits that leaf's symbol, consumes the path, and goes on from the root (rules
R602, R603). -/
theorem decodeLoop_path {node : Vector Node 511} {root i : BitVec 9} {tree : CodeTree}
    (h : Grows (fun j => node[j]?) i.toNat tree) {b : Byte} {q : Bits} (hq : (b, q) ∈ tree.paths) (hne : q ≠ [])
    (rest : Bits) (n : Nat) :
    decodeLoop node root (q ++ rest) i (n + 1)
      = (b :: (decodeLoop node root rest root n).1, (decodeLoop node root rest root n).2 + q.length) := by
  generalize hi : i.toNat = k at h
  induction h generalizing i q with
  | leaf h1 h2 => simp [CodeTree.paths] at hq; exact absurd hq.2 hne
  | node h1 h2 hg1 hg2 ih1 ih2 =>
    rename_i k nd l r
    rw [← hi] at h1
    simp only [CodeTree.paths, List.mem_append, List.mem_map] at hq
    have key : ∀ (next : BitVec 9) (sub : CodeTree) (q' : Bits), Grows (fun j => node[j]?) next.toNat sub → (b, q') ∈ sub.paths →
        (∀ {i : BitVec 9} {q : Bits}, (b, q) ∈ sub.paths → q ≠ [] → i.toNat = next.toNat → decodeLoop node root (q ++ rest) i (n + 1)
          = (b :: (decodeLoop node root rest root n).1, (decodeLoop node root rest root n).2 + q.length)) →
        ∀ bit : Bool, (if bit then nd.right else nd.left) = next →
        decodeLoop node root (bit :: q' ++ rest) i (n + 1)
          = (b :: (decodeLoop node root rest root n).1, (decodeLoop node root rest root n).2 + (bit :: q').length) := by
      intro next sub q' hg hq' ih bit hbit
      simp only [List.cons_append, decodeLoop, h1, hbit]
      cases hg with
      | leaf h3 h4 =>
        simp only [CodeTree.paths, List.mem_singleton, Prod.mk.injEq] at hq'
        obtain ⟨rfl, rfl⟩ := hq'
        simp [h3, h4]
      | node h3 h4 h5 h6 =>
        have hne' : q' ≠ [] := by
          rintro rfl
          simp [CodeTree.paths] at hq'
        simp only [h3, h4, Bool.false_eq_true, if_false]
        rw [ih hq' hne' rfl]
        simp [Nat.add_assoc]
    rcases hq with ⟨⟨b', q'⟩, hm, he⟩ | ⟨⟨b', q'⟩, hm, he⟩
    · obtain ⟨rfl, rfl⟩ : b' = b ∧ false :: q' = q := by simpa using he
      exact key _ _ q' hg1 hm (fun h1 h2 h3 => ih1 h1 h2 h3) false rfl
    · obtain ⟨rfl, rfl⟩ : b' = b ∧ true :: q' = q := by simpa using he
      exact key _ _ q' hg2 hm (fun h1 h2 h3 => ih2 h1 h2 h3) true rfl

/-- The loop on bits that begin with no path of the tree at the cursor: it emits nothing and consumes them all (rule R606). -/
theorem decodeLoop_short {node : Vector Node 511} {root i : BitVec 9} {tree : CodeTree}
    (h : Grows (fun j => node[j]?) i.toNat tree) (rest : Bits) (hno : ∀ c ∈ tree.paths, ¬ c.2 <+: rest) (n : Nat) :
    decodeLoop node root rest i (n + 1) = ([], rest.length) := by
  generalize hi : i.toNat = k at h
  induction h generalizing i rest with
  | leaf h1 h2 => exact absurd List.nil_prefix (hno _ List.mem_cons_self)
  | node h1 h2 hg1 hg2 ih1 ih2 =>
    rename_i k nd l r
    rw [← hi] at h1
    cases rest with
    | nil => simp [decodeLoop]
    | cons bit rest =>
      have key : ∀ (next : BitVec 9) (sub : CodeTree), Grows (fun j => node[j]?) next.toNat sub →
          (∀ c ∈ sub.paths, ¬ c.2 <+: rest) → (if bit then nd.right else nd.left) = next →
          decodeLoop node root rest next (n + 1) = ([], rest.length) →
          decodeLoop node root (bit :: rest) i (n + 1) = ([], (bit :: rest).length) := by
        intro next sub hg hno' hbit ih
        simp only [decodeLoop, h1, hbit]
        cases hg with
        | leaf h3 h4 => exact absurd List.nil_prefix (hno' _ List.mem_cons_self)
        | node h3 h4 _ _ => simp [h3, h4, ih]
      cases bit with
      | false =>
        have hno' : ∀ c ∈ l.paths, ¬ c.2 <+: rest := fun c hc hp =>
          hno (c.1, false :: c.2) (by simp [CodeTree.paths, hc]) (by simpa [List.cons_prefix_cons] using hp)
        exact key _ _ hg1 hno' rfl (ih1 rest hno' rfl)
      | true =>
        have hno' : ∀ c ∈ r.paths, ¬ c.2 <+: rest := fun c hc hp =>
          hno (c.1, true :: c.2) (by simp [CodeTree.paths, hc]) (by simpa [List.cons_prefix_cons] using hp)
        exact key _ _ hg2 hno' rfl (ih2 rest hno' rfl)

end Sys2Proof.Machine
end

