-- ==== Sys2Proof/Laws/State.lean ====
section
/-! SUPPORT. What each named update of the state leaves in each field, one lemma per field per update, each true by rfl. -/

namespace Sys2Proof.Machine

/-! ### State.accept -/

@[simp] theorem State.accept_params (s : State) (w : Word) (n : Nat) : (s.accept w n).params = s.params := rfl
@[simp] theorem State.accept_freq (s : State) (w : Word) (n : Nat) : (s.accept w n).freq = s.freq := rfl
@[simp] theorem State.accept_node (s : State) (w : Word) (n : Nat) : (s.accept w n).node = s.node := rfl
@[simp] theorem State.accept_root (s : State) (w : Word) (n : Nat) : (s.accept w n).root = s.root := rfl
@[simp] theorem State.accept_nnodes (s : State) (w : Word) (n : Nat) : (s.accept w n).nnodes = s.nnodes := rfl
@[simp] theorem State.accept_codeLen (s : State) (w : Word) (n : Nat) : (s.accept w n).codeLen = s.codeLen := rfl
@[simp] theorem State.accept_code (s : State) (w : Word) (n : Nat) : (s.accept w n).code = s.code := rfl
@[simp] theorem State.accept_treeV (s : State) (w : Word) (n : Nat) : (s.accept w n).treeV = s.treeV := rfl
@[simp] theorem State.accept_codeV (s : State) (w : Word) (n : Nat) : (s.accept w n).codeV = s.codeV := rfl
@[simp] theorem State.accept_done (s : State) (w : Word) (n : Nat) : (s.accept w n).done = false := rfl
@[simp] theorem State.accept_ovr (s : State) (w : Word) (n : Nat) : (s.accept w n).ovr = s.ovr := rfl
@[simp] theorem State.accept_errcode (s : State) (w : Word) (n : Nat) : (s.accept w n).errcode = 0 := rfl
@[simp] theorem State.accept_ie (s : State) (w : Word) (n : Nat) : (s.accept w n).ie = s.ie := rfl
@[simp] theorem State.accept_inLen (s : State) (w : Word) (n : Nat) : (s.accept w n).inLen = s.inLen := rfl
@[simp] theorem State.accept_inOff (s : State) (w : Word) (n : Nat) : (s.accept w n).inOff = s.inOff := rfl
@[simp] theorem State.accept_outOff (s : State) (w : Word) (n : Nat) : (s.accept w n).outOff = s.outOff := rfl
@[simp] theorem State.accept_outLen (s : State) (w : Word) (n : Nat) : (s.accept w n).outLen = s.outLen := rfl
@[simp] theorem State.accept_origSize (s : State) (w : Word) (n : Nat) : (s.accept w n).origSize = s.origSize := rfl
@[simp] theorem State.accept_pad (s : State) (w : Word) (n : Nat) : (s.accept w n).pad = s.pad := rfl
@[simp] theorem State.accept_errInfo (s : State) (w : Word) (n : Nat) : (s.accept w n).errInfo = 0 := rfl
@[simp] theorem State.accept_nbits (s : State) (w : Word) (n : Nat) : (s.accept w n).nbits = s.nbits := rfl
@[simp] theorem State.accept_sel (s : State) (w : Word) (n : Nat) : (s.accept w n).sel = s.sel := rfl
@[simp] theorem State.accept_ibuf (s : State) (w : Word) (n : Nat) : (s.accept w n).ibuf = s.ibuf := rfl
@[simp] theorem State.accept_obuf (s : State) (w : Word) (n : Nat) : (s.accept w n).obuf = s.obuf := rfl
@[simp] theorem State.accept_inflight (s : State) (w : Word) (n : Nat) : (s.accept w n).inflight = some { word := w, latency := n } := rfl
@[simp] theorem State.accept_host (s : State) (w : Word) (n : Nat) : (s.accept w n).host = s.host := rfl
@[simp] theorem State.accept_rdata (s : State) (w : Word) (n : Nat) : (s.accept w n).rdata = s.rdata := rfl
@[simp] theorem State.accept_draws (s : State) (w : Word) (n : Nat) : (s.accept w n).draws = s.draws := rfl
@[simp] theorem State.accept_epoch (s : State) (w : Word) (n : Nat) : (s.accept w n).epoch = s.epoch := rfl

/-! ### State.succeed -/

@[simp] theorem State.succeed_params (s : State) : s.succeed.params = s.params := rfl
@[simp] theorem State.succeed_freq (s : State) : s.succeed.freq = s.freq := rfl
@[simp] theorem State.succeed_node (s : State) : s.succeed.node = s.node := rfl
@[simp] theorem State.succeed_root (s : State) : s.succeed.root = s.root := rfl
@[simp] theorem State.succeed_nnodes (s : State) : s.succeed.nnodes = s.nnodes := rfl
@[simp] theorem State.succeed_codeLen (s : State) : s.succeed.codeLen = s.codeLen := rfl
@[simp] theorem State.succeed_code (s : State) : s.succeed.code = s.code := rfl
@[simp] theorem State.succeed_treeV (s : State) : s.succeed.treeV = s.treeV := rfl
@[simp] theorem State.succeed_codeV (s : State) : s.succeed.codeV = s.codeV := rfl
@[simp] theorem State.succeed_done (s : State) : s.succeed.done = true := rfl
@[simp] theorem State.succeed_ovr (s : State) : s.succeed.ovr = s.ovr := rfl
@[simp] theorem State.succeed_errcode (s : State) : s.succeed.errcode = s.errcode := rfl
@[simp] theorem State.succeed_ie (s : State) : s.succeed.ie = s.ie := rfl
@[simp] theorem State.succeed_inLen (s : State) : s.succeed.inLen = s.inLen := rfl
@[simp] theorem State.succeed_inOff (s : State) : s.succeed.inOff = s.inOff := rfl
@[simp] theorem State.succeed_outOff (s : State) : s.succeed.outOff = s.outOff := rfl
@[simp] theorem State.succeed_outLen (s : State) : s.succeed.outLen = s.outLen := rfl
@[simp] theorem State.succeed_origSize (s : State) : s.succeed.origSize = s.origSize := rfl
@[simp] theorem State.succeed_pad (s : State) : s.succeed.pad = s.pad := rfl
@[simp] theorem State.succeed_errInfo (s : State) : s.succeed.errInfo = s.errInfo := rfl
@[simp] theorem State.succeed_nbits (s : State) : s.succeed.nbits = s.nbits := rfl
@[simp] theorem State.succeed_sel (s : State) : s.succeed.sel = s.sel := rfl
@[simp] theorem State.succeed_ibuf (s : State) : s.succeed.ibuf = s.ibuf := rfl
@[simp] theorem State.succeed_obuf (s : State) : s.succeed.obuf = s.obuf := rfl
@[simp] theorem State.succeed_inflight (s : State) : s.succeed.inflight = none := rfl
@[simp] theorem State.succeed_host (s : State) : s.succeed.host = s.host := rfl
@[simp] theorem State.succeed_rdata (s : State) : s.succeed.rdata = s.rdata := rfl
@[simp] theorem State.succeed_draws (s : State) : s.succeed.draws = s.draws := rfl
@[simp] theorem State.succeed_epoch (s : State) : s.succeed.epoch = s.epoch := rfl

/-! ### State.failCommand -/

@[simp] theorem State.failCommand_params (s : State) (f : Failure) : (s.failCommand f).params = s.params := rfl
@[simp] theorem State.failCommand_freq (s : State) (f : Failure) : (s.failCommand f).freq = s.freq := rfl
@[simp] theorem State.failCommand_node (s : State) (f : Failure) : (s.failCommand f).node = s.node := rfl
@[simp] theorem State.failCommand_root (s : State) (f : Failure) : (s.failCommand f).root = s.root := rfl
@[simp] theorem State.failCommand_nnodes (s : State) (f : Failure) : (s.failCommand f).nnodes = s.nnodes := rfl
@[simp] theorem State.failCommand_codeLen (s : State) (f : Failure) : (s.failCommand f).codeLen = s.codeLen := rfl
@[simp] theorem State.failCommand_code (s : State) (f : Failure) : (s.failCommand f).code = s.code := rfl
@[simp] theorem State.failCommand_treeV (s : State) (f : Failure) : (s.failCommand f).treeV = s.treeV := rfl
@[simp] theorem State.failCommand_codeV (s : State) (f : Failure) : (s.failCommand f).codeV = s.codeV := rfl
@[simp] theorem State.failCommand_done (s : State) (f : Failure) : (s.failCommand f).done = true := rfl
@[simp] theorem State.failCommand_ovr (s : State) (f : Failure) : (s.failCommand f).ovr = s.ovr := rfl
@[simp] theorem State.failCommand_errcode (s : State) (f : Failure) : (s.failCommand f).errcode = f.kind.code := rfl
@[simp] theorem State.failCommand_ie (s : State) (f : Failure) : (s.failCommand f).ie = s.ie := rfl
@[simp] theorem State.failCommand_inLen (s : State) (f : Failure) : (s.failCommand f).inLen = s.inLen := rfl
@[simp] theorem State.failCommand_inOff (s : State) (f : Failure) : (s.failCommand f).inOff = s.inOff := rfl
@[simp] theorem State.failCommand_outOff (s : State) (f : Failure) : (s.failCommand f).outOff = s.outOff := rfl
@[simp] theorem State.failCommand_outLen (s : State) (f : Failure) : (s.failCommand f).outLen = 0 := rfl
@[simp] theorem State.failCommand_origSize (s : State) (f : Failure) : (s.failCommand f).origSize = s.origSize := rfl
@[simp] theorem State.failCommand_pad (s : State) (f : Failure) : (s.failCommand f).pad = s.pad := rfl
@[simp] theorem State.failCommand_errInfo (s : State) (f : Failure) : (s.failCommand f).errInfo = f.info := rfl
@[simp] theorem State.failCommand_nbits (s : State) (f : Failure) : (s.failCommand f).nbits = s.nbits := rfl
@[simp] theorem State.failCommand_sel (s : State) (f : Failure) : (s.failCommand f).sel = s.sel := rfl
@[simp] theorem State.failCommand_ibuf (s : State) (f : Failure) : (s.failCommand f).ibuf = s.ibuf := rfl
@[simp] theorem State.failCommand_obuf (s : State) (f : Failure) : (s.failCommand f).obuf = s.obuf := rfl
@[simp] theorem State.failCommand_inflight (s : State) (f : Failure) : (s.failCommand f).inflight = none := rfl
@[simp] theorem State.failCommand_host (s : State) (f : Failure) : (s.failCommand f).host = s.host := rfl
@[simp] theorem State.failCommand_rdata (s : State) (f : Failure) : (s.failCommand f).rdata = s.rdata := rfl
@[simp] theorem State.failCommand_draws (s : State) (f : Failure) : (s.failCommand f).draws = s.draws := rfl
@[simp] theorem State.failCommand_epoch (s : State) (f : Failure) : (s.failCommand f).epoch = s.epoch := rfl

/-! ### State.putBytes -/

@[simp] theorem State.putBytes_params (s : State) (a : Nat) (bs : List Byte) : (s.putBytes a bs).params = s.params := rfl
@[simp] theorem State.putBytes_freq (s : State) (a : Nat) (bs : List Byte) : (s.putBytes a bs).freq = s.freq := rfl
@[simp] theorem State.putBytes_node (s : State) (a : Nat) (bs : List Byte) : (s.putBytes a bs).node = s.node := rfl
@[simp] theorem State.putBytes_root (s : State) (a : Nat) (bs : List Byte) : (s.putBytes a bs).root = s.root := rfl
@[simp] theorem State.putBytes_nnodes (s : State) (a : Nat) (bs : List Byte) : (s.putBytes a bs).nnodes = s.nnodes := rfl
@[simp] theorem State.putBytes_codeLen (s : State) (a : Nat) (bs : List Byte) : (s.putBytes a bs).codeLen = s.codeLen := rfl
@[simp] theorem State.putBytes_code (s : State) (a : Nat) (bs : List Byte) : (s.putBytes a bs).code = s.code := rfl
@[simp] theorem State.putBytes_treeV (s : State) (a : Nat) (bs : List Byte) : (s.putBytes a bs).treeV = s.treeV := rfl
@[simp] theorem State.putBytes_codeV (s : State) (a : Nat) (bs : List Byte) : (s.putBytes a bs).codeV = s.codeV := rfl
@[simp] theorem State.putBytes_done (s : State) (a : Nat) (bs : List Byte) : (s.putBytes a bs).done = s.done := rfl
@[simp] theorem State.putBytes_ovr (s : State) (a : Nat) (bs : List Byte) : (s.putBytes a bs).ovr = s.ovr := rfl
@[simp] theorem State.putBytes_errcode (s : State) (a : Nat) (bs : List Byte) : (s.putBytes a bs).errcode = s.errcode := rfl
@[simp] theorem State.putBytes_ie (s : State) (a : Nat) (bs : List Byte) : (s.putBytes a bs).ie = s.ie := rfl
@[simp] theorem State.putBytes_inLen (s : State) (a : Nat) (bs : List Byte) : (s.putBytes a bs).inLen = s.inLen := rfl
@[simp] theorem State.putBytes_inOff (s : State) (a : Nat) (bs : List Byte) : (s.putBytes a bs).inOff = s.inOff := rfl
@[simp] theorem State.putBytes_outOff (s : State) (a : Nat) (bs : List Byte) : (s.putBytes a bs).outOff = s.outOff := rfl
@[simp] theorem State.putBytes_outLen (s : State) (a : Nat) (bs : List Byte) : (s.putBytes a bs).outLen = s.outLen := rfl
@[simp] theorem State.putBytes_origSize (s : State) (a : Nat) (bs : List Byte) : (s.putBytes a bs).origSize = s.origSize := rfl
@[simp] theorem State.putBytes_pad (s : State) (a : Nat) (bs : List Byte) : (s.putBytes a bs).pad = s.pad := rfl
@[simp] theorem State.putBytes_errInfo (s : State) (a : Nat) (bs : List Byte) : (s.putBytes a bs).errInfo = s.errInfo := rfl
@[simp] theorem State.putBytes_nbits (s : State) (a : Nat) (bs : List Byte) : (s.putBytes a bs).nbits = s.nbits := rfl
@[simp] theorem State.putBytes_sel (s : State) (a : Nat) (bs : List Byte) : (s.putBytes a bs).sel = s.sel := rfl
@[simp] theorem State.putBytes_ibuf (s : State) (a : Nat) (bs : List Byte) : (s.putBytes a bs).ibuf = s.ibuf := rfl
@[simp] theorem State.putBytes_obuf (s : State) (a : Nat) (bs : List Byte) : (s.putBytes a bs).obuf = s.obuf.writeBytes a bs := rfl
@[simp] theorem State.putBytes_inflight (s : State) (a : Nat) (bs : List Byte) : (s.putBytes a bs).inflight = s.inflight := rfl
@[simp] theorem State.putBytes_host (s : State) (a : Nat) (bs : List Byte) : (s.putBytes a bs).host = s.host := rfl
@[simp] theorem State.putBytes_rdata (s : State) (a : Nat) (bs : List Byte) : (s.putBytes a bs).rdata = s.rdata := rfl
@[simp] theorem State.putBytes_draws (s : State) (a : Nat) (bs : List Byte) : (s.putBytes a bs).draws = s.draws := rfl
@[simp] theorem State.putBytes_epoch (s : State) (a : Nat) (bs : List Byte) : (s.putBytes a bs).epoch = s.epoch := rfl

/-! ### State.spoil -/

@[simp] theorem State.spoil_params (s : State) (lo hi : Nat) : (s.spoil lo hi).params = s.params := rfl
@[simp] theorem State.spoil_freq (s : State) (lo hi : Nat) : (s.spoil lo hi).freq = s.freq := rfl
@[simp] theorem State.spoil_node (s : State) (lo hi : Nat) : (s.spoil lo hi).node = s.node := rfl
@[simp] theorem State.spoil_root (s : State) (lo hi : Nat) : (s.spoil lo hi).root = s.root := rfl
@[simp] theorem State.spoil_nnodes (s : State) (lo hi : Nat) : (s.spoil lo hi).nnodes = s.nnodes := rfl
@[simp] theorem State.spoil_codeLen (s : State) (lo hi : Nat) : (s.spoil lo hi).codeLen = s.codeLen := rfl
@[simp] theorem State.spoil_code (s : State) (lo hi : Nat) : (s.spoil lo hi).code = s.code := rfl
@[simp] theorem State.spoil_treeV (s : State) (lo hi : Nat) : (s.spoil lo hi).treeV = s.treeV := rfl
@[simp] theorem State.spoil_codeV (s : State) (lo hi : Nat) : (s.spoil lo hi).codeV = s.codeV := rfl
@[simp] theorem State.spoil_done (s : State) (lo hi : Nat) : (s.spoil lo hi).done = s.done := rfl
@[simp] theorem State.spoil_ovr (s : State) (lo hi : Nat) : (s.spoil lo hi).ovr = s.ovr := rfl
@[simp] theorem State.spoil_errcode (s : State) (lo hi : Nat) : (s.spoil lo hi).errcode = s.errcode := rfl
@[simp] theorem State.spoil_ie (s : State) (lo hi : Nat) : (s.spoil lo hi).ie = s.ie := rfl
@[simp] theorem State.spoil_inLen (s : State) (lo hi : Nat) : (s.spoil lo hi).inLen = s.inLen := rfl
@[simp] theorem State.spoil_inOff (s : State) (lo hi : Nat) : (s.spoil lo hi).inOff = s.inOff := rfl
@[simp] theorem State.spoil_outOff (s : State) (lo hi : Nat) : (s.spoil lo hi).outOff = s.outOff := rfl
@[simp] theorem State.spoil_outLen (s : State) (lo hi : Nat) : (s.spoil lo hi).outLen = s.outLen := rfl
@[simp] theorem State.spoil_origSize (s : State) (lo hi : Nat) : (s.spoil lo hi).origSize = s.origSize := rfl
@[simp] theorem State.spoil_pad (s : State) (lo hi : Nat) : (s.spoil lo hi).pad = s.pad := rfl
@[simp] theorem State.spoil_errInfo (s : State) (lo hi : Nat) : (s.spoil lo hi).errInfo = s.errInfo := rfl
@[simp] theorem State.spoil_nbits (s : State) (lo hi : Nat) : (s.spoil lo hi).nbits = s.nbits := rfl
@[simp] theorem State.spoil_sel (s : State) (lo hi : Nat) : (s.spoil lo hi).sel = s.sel := rfl
@[simp] theorem State.spoil_ibuf (s : State) (lo hi : Nat) : (s.spoil lo hi).ibuf = s.ibuf := rfl
@[simp] theorem State.spoil_inflight (s : State) (lo hi : Nat) : (s.spoil lo hi).inflight = s.inflight := rfl
@[simp] theorem State.spoil_host (s : State) (lo hi : Nat) : (s.spoil lo hi).host = s.host := rfl
@[simp] theorem State.spoil_rdata (s : State) (lo hi : Nat) : (s.spoil lo hi).rdata = s.rdata := rfl
@[simp] theorem State.spoil_draws (s : State) (lo hi : Nat) : (s.spoil lo hi).draws = s.draws + 1 := rfl
@[simp] theorem State.spoil_epoch (s : State) (lo hi : Nat) : (s.spoil lo hi).epoch = s.epoch := rfl

/-! ### State.invalidate -/

@[simp] theorem State.invalidate_params (s : State) : s.invalidate.params = s.params := rfl
@[simp] theorem State.invalidate_freq (s : State) : s.invalidate.freq = s.freq := rfl
@[simp] theorem State.invalidate_node (s : State) : s.invalidate.node = s.node := rfl
@[simp] theorem State.invalidate_root (s : State) : s.invalidate.root = s.root := rfl
@[simp] theorem State.invalidate_nnodes (s : State) : s.invalidate.nnodes = s.nnodes := rfl
@[simp] theorem State.invalidate_codeLen (s : State) : s.invalidate.codeLen = s.codeLen := rfl
@[simp] theorem State.invalidate_code (s : State) : s.invalidate.code = s.code := rfl
@[simp] theorem State.invalidate_treeV (s : State) : s.invalidate.treeV = false := rfl
@[simp] theorem State.invalidate_codeV (s : State) : s.invalidate.codeV = false := rfl
@[simp] theorem State.invalidate_done (s : State) : s.invalidate.done = s.done := rfl
@[simp] theorem State.invalidate_ovr (s : State) : s.invalidate.ovr = s.ovr := rfl
@[simp] theorem State.invalidate_errcode (s : State) : s.invalidate.errcode = s.errcode := rfl
@[simp] theorem State.invalidate_ie (s : State) : s.invalidate.ie = s.ie := rfl
@[simp] theorem State.invalidate_inLen (s : State) : s.invalidate.inLen = s.inLen := rfl
@[simp] theorem State.invalidate_inOff (s : State) : s.invalidate.inOff = s.inOff := rfl
@[simp] theorem State.invalidate_outOff (s : State) : s.invalidate.outOff = s.outOff := rfl
@[simp] theorem State.invalidate_outLen (s : State) : s.invalidate.outLen = s.outLen := rfl
@[simp] theorem State.invalidate_origSize (s : State) : s.invalidate.origSize = s.origSize := rfl
@[simp] theorem State.invalidate_pad (s : State) : s.invalidate.pad = s.pad := rfl
@[simp] theorem State.invalidate_errInfo (s : State) : s.invalidate.errInfo = s.errInfo := rfl
@[simp] theorem State.invalidate_nbits (s : State) : s.invalidate.nbits = s.nbits := rfl
@[simp] theorem State.invalidate_sel (s : State) : s.invalidate.sel = s.sel := rfl
@[simp] theorem State.invalidate_ibuf (s : State) : s.invalidate.ibuf = s.ibuf := rfl
@[simp] theorem State.invalidate_obuf (s : State) : s.invalidate.obuf = s.obuf := rfl
@[simp] theorem State.invalidate_inflight (s : State) : s.invalidate.inflight = s.inflight := rfl
@[simp] theorem State.invalidate_host (s : State) : s.invalidate.host = s.host := rfl
@[simp] theorem State.invalidate_rdata (s : State) : s.invalidate.rdata = s.rdata := rfl
@[simp] theorem State.invalidate_draws (s : State) : s.invalidate.draws = s.draws := rfl
@[simp] theorem State.invalidate_epoch (s : State) : s.invalidate.epoch = s.epoch := rfl

/-! ### State.ackStatus -/

@[simp] theorem State.ackStatus_params (s : State) (v : Word) : (s.ackStatus v).params = s.params := rfl
@[simp] theorem State.ackStatus_freq (s : State) (v : Word) : (s.ackStatus v).freq = s.freq := rfl
@[simp] theorem State.ackStatus_node (s : State) (v : Word) : (s.ackStatus v).node = s.node := rfl
@[simp] theorem State.ackStatus_root (s : State) (v : Word) : (s.ackStatus v).root = s.root := rfl
@[simp] theorem State.ackStatus_nnodes (s : State) (v : Word) : (s.ackStatus v).nnodes = s.nnodes := rfl
@[simp] theorem State.ackStatus_codeLen (s : State) (v : Word) : (s.ackStatus v).codeLen = s.codeLen := rfl
@[simp] theorem State.ackStatus_code (s : State) (v : Word) : (s.ackStatus v).code = s.code := rfl
@[simp] theorem State.ackStatus_treeV (s : State) (v : Word) : (s.ackStatus v).treeV = s.treeV := rfl
@[simp] theorem State.ackStatus_codeV (s : State) (v : Word) : (s.ackStatus v).codeV = s.codeV := rfl
@[simp] theorem State.ackStatus_done (s : State) (v : Word) : (s.ackStatus v).done = (s.done && !v.getLsbD 1) := rfl
@[simp] theorem State.ackStatus_ovr (s : State) (v : Word) : (s.ackStatus v).ovr = (s.ovr && !v.getLsbD 2) := rfl
@[simp] theorem State.ackStatus_errcode (s : State) (v : Word) : (s.ackStatus v).errcode = s.errcode := rfl
@[simp] theorem State.ackStatus_ie (s : State) (v : Word) : (s.ackStatus v).ie = s.ie := rfl
@[simp] theorem State.ackStatus_inLen (s : State) (v : Word) : (s.ackStatus v).inLen = s.inLen := rfl
@[simp] theorem State.ackStatus_inOff (s : State) (v : Word) : (s.ackStatus v).inOff = s.inOff := rfl
@[simp] theorem State.ackStatus_outOff (s : State) (v : Word) : (s.ackStatus v).outOff = s.outOff := rfl
@[simp] theorem State.ackStatus_outLen (s : State) (v : Word) : (s.ackStatus v).outLen = s.outLen := rfl
@[simp] theorem State.ackStatus_origSize (s : State) (v : Word) : (s.ackStatus v).origSize = s.origSize := rfl
@[simp] theorem State.ackStatus_pad (s : State) (v : Word) : (s.ackStatus v).pad = s.pad := rfl
@[simp] theorem State.ackStatus_errInfo (s : State) (v : Word) : (s.ackStatus v).errInfo = s.errInfo := rfl
@[simp] theorem State.ackStatus_nbits (s : State) (v : Word) : (s.ackStatus v).nbits = s.nbits := rfl
@[simp] theorem State.ackStatus_sel (s : State) (v : Word) : (s.ackStatus v).sel = s.sel := rfl
@[simp] theorem State.ackStatus_ibuf (s : State) (v : Word) : (s.ackStatus v).ibuf = s.ibuf := rfl
@[simp] theorem State.ackStatus_obuf (s : State) (v : Word) : (s.ackStatus v).obuf = s.obuf := rfl
@[simp] theorem State.ackStatus_inflight (s : State) (v : Word) : (s.ackStatus v).inflight = s.inflight := rfl
@[simp] theorem State.ackStatus_host (s : State) (v : Word) : (s.ackStatus v).host = s.host := rfl
@[simp] theorem State.ackStatus_rdata (s : State) (v : Word) : (s.ackStatus v).rdata = s.rdata := rfl
@[simp] theorem State.ackStatus_draws (s : State) (v : Word) : (s.ackStatus v).draws = s.draws := rfl
@[simp] theorem State.ackStatus_epoch (s : State) (v : Word) : (s.ackStatus v).epoch = s.epoch := rfl

@[simp] theorem State.memory_ibuf (s : State) : s.memory .ibuf = s.ibuf := rfl
@[simp] theorem State.memory_obuf (s : State) : s.memory .obuf = s.obuf := rfl

end Sys2Proof.Machine
end

