-- ==== Sys2Proof/Laws/Memory.lean ====
section
/-! SUPPORT. Buffers: a read after a write, and that every operation keeps the canonical form and the buffer's bounds. -/

namespace Sys2Proof.Machine

@[simp] theorem Memory.get_nil (a : Nat) : Memory.get [] a = none := rfl

theorem Memory.get_eq_none_of_lt {m : Memory} {a : Nat} (h : ∀ c ∈ m, a < c.1) : m.get a = none := by
  induction m with
  | nil => rfl
  | cons c m ih =>
    obtain ⟨k, b⟩ := c
    have hk : a < k := h (k, b) (by simp)
    have : k ≠ a := by omega
    simp only [Memory.get, this, if_false]
    exact ih fun c hc => h c (by simp [hc])

/-- A read after a write: the byte written at its address, and any other address as before (in any memory, canonical or not). -/
theorem Memory.get_write (m : Memory) (a : Nat) (v : Byte) (k : Nat) :
    (m.write a v).get k = if k = a then some v else m.get k := by
  induction m with
  | nil =>
    by_cases h : k = a
    · simp [Memory.write, Memory.get, h]
    · have : a ≠ k := fun e => h e.symm
      simp [Memory.write, Memory.get, h, this, Memory.unlisted]
  | cons c m ih =>
    obtain ⟨j, b⟩ := c
    unfold Memory.write
    split
    · by_cases h : k = a
      · simp [Memory.get, h]
      · have : a ≠ k := fun e => h e.symm
        simp [Memory.get, h, this]
    · split
      · rename_i _ he
        subst he
        by_cases h : k = a
        · simp [Memory.get, h]
        · have : a ≠ k := fun e => h e.symm
          simp [Memory.get, h, this]
      · rename_i h1 h2
        by_cases h : j = k
        · subst h
          have : j ≠ a := fun e => h2 e.symm
          simp [Memory.get, this]
        · simp only [Memory.get, h, if_false]
          exact ih

theorem Memory.mem_write {m : Memory} {a : Nat} {v : Byte} {c : Host.Cell} (h : c ∈ m.write a v) : c = (a, v) ∨ c ∈ m := by
  induction m with
  | nil => simpa [Memory.write] using h
  | cons d m ih =>
    obtain ⟨j, b⟩ := d
    unfold Memory.write at h
    split at h
    · simpa using h
    · split at h
      · rcases List.mem_cons.mp h with h | h
        · exact .inl h
        · exact .inr (by simp [h])
      · rcases List.mem_cons.mp h with h | h
        · exact .inr (by simp [h])
        · rcases ih h with h | h
          · exact .inl h
          · exact .inr (by simp [h])

/-- A write keeps the canonical form. -/
theorem Memory.write_wf {m : Memory} (hm : m.wf) (a : Nat) (v : Byte) : (m.write a v).wf := by
  induction m with
  | nil => simp [Memory.write]
  | cons c m ih =>
    obtain ⟨j, b⟩ := c
    have hm' := List.pairwise_cons.mp hm
    unfold Memory.write
    split
    · rename_i hlt
      refine List.pairwise_cons.mpr ⟨?_, hm⟩
      intro d hd
      rcases List.mem_cons.mp hd with rfl | hd
      · exact hlt
      · exact Nat.lt_trans hlt (hm'.1 d hd)
    · split
      · rename_i _ he
        subst he
        exact List.pairwise_cons.mpr ⟨hm'.1, hm'.2⟩
      · rename_i h1 h2
        refine List.pairwise_cons.mpr ⟨?_, ih hm'.2⟩
        intro d hd
        rcases Memory.mem_write hd with rfl | hd
        · show j < a
          omega
        · exact hm'.1 d hd

/-- A write inside the buffer keeps its bounds. -/
theorem Memory.write_within {m : Memory} {size : Nat} (hm : m.within size) {a : Nat} (ha : a < size) (v : Byte) :
    (m.write a v).within size := by
  intro c hc
  rcases Memory.mem_write hc with rfl | hc
  · exact ha
  · exact hm c hc

/-- Writing consecutive bytes keeps the canonical form. -/
theorem Memory.writeBytes_wf {m : Memory} (hm : m.wf) (a : Nat) (bs : List Byte) : (m.writeBytes a bs).wf := by
  induction bs generalizing m a with
  | nil => exact hm
  | cons b bs ih => exact ih (Memory.write_wf hm a b) (a + 1)

/-- Writing consecutive bytes inside the buffer keeps its bounds. -/
theorem Memory.writeBytes_within {m : Memory} {size : Nat} (hm : m.within size) {a : Nat} {bs : List Byte}
    (ha : a + bs.length ≤ size) : (m.writeBytes a bs).within size := by
  induction bs generalizing m a with
  | nil => exact hm
  | cons b bs ih =>
    simp only [List.length_cons] at ha
    exact ih (Memory.write_within hm (by omega) b) (by omega)

/-- A read after writing consecutive bytes: byte k of them at address a + k, and any other address as before. -/
theorem Memory.get_writeBytes (m : Memory) (a : Nat) (bs : List Byte) (k : Nat) :
    (m.writeBytes a bs).get k = if h : a ≤ k ∧ k < a + bs.length then some (bs[k - a]'(by omega)) else m.get k := by
  induction bs generalizing m a with
  | nil =>
    have : ¬ (a ≤ k ∧ k < a + ([] : List Byte).length) := by simp
    rw [dif_neg this]
    rfl
  | cons b bs ih =>
    unfold Memory.writeBytes
    rw [ih (m.write a b) (a + 1), Memory.get_write m]
    by_cases h1 : a + 1 ≤ k ∧ k < a + 1 + bs.length
    · have h2 : a ≤ k ∧ k < a + (b :: bs).length := by simp; omega
      rw [dif_pos h1, dif_pos h2]
      have h3 : k - a = (k - (a + 1)) + 1 := by omega
      simp [h3]
    · rw [dif_neg h1]
      by_cases h4 : k = a
      · subst h4
        have h2 : k ≤ k ∧ k < k + (b :: bs).length := by simp
        rw [dif_pos h2]
        simp
      · have h2 : ¬ (a ≤ k ∧ k < a + (b :: bs).length) := by simp; omega
        rw [dif_neg h2, if_neg h4]

/-! ### The bytes of a state -/

theorem State.byteAt_ibuf (s : State) (a : Nat) : s.byteAt .ibuf a = (s.ibuf.get a).getD (Config.resetByte .ibuf s.epoch a) := rfl

theorem State.byteAt_obuf (s : State) (a : Nat) : s.byteAt .obuf a = (s.obuf.get a).getD (Config.resetByte .obuf s.epoch a) := rfl

/-- OBUF after the core has written `bs` from `a` on (rule R201). -/
theorem State.byteAt_writeBytes (s t : State) (a : Nat) (bs : List Byte) (ht : t.obuf = s.obuf.writeBytes a bs)
    (he : t.epoch = s.epoch) (k : Nat) :
    t.byteAt .obuf k = if h : a ≤ k ∧ k < a + bs.length then bs[k - a]'(by omega) else s.byteAt .obuf k := by
  rw [State.byteAt_obuf, State.byteAt_obuf, ht, he, Memory.get_writeBytes]
  split <;> rfl

/-- OBUF outside a spoiled range (rule R821). -/
theorem State.byteAt_spoil (s : State) (lo hi k : Nat) (h : k < lo ∨ hi ≤ k) :
    (s.spoil lo hi).byteAt .obuf k = s.byteAt .obuf k := by
  rw [State.byteAt_writeBytes s (s.spoil lo hi) lo _ rfl rfl, dif_neg]
  simp
  omega

/-- The reset state's buffers list nothing, so both are in canonical form (rule R204). -/
theorem State.reset_memory_wf : State.reset.ibuf.wf ∧ State.reset.obuf.wf := ⟨List.Pairwise.nil, List.Pairwise.nil⟩

theorem State.spoil_wf {s : State} (h : s.obuf.wf) (lo hi : Nat) : (s.spoil lo hi).obuf.wf := Memory.writeBytes_wf h _ _

theorem State.spoil_within {s : State} (h : s.obuf.within s.params.obufSize) (lo hi : Nat) :
    (s.spoil lo hi).obuf.within s.params.obufSize := by
  by_cases hl : lo ≤ min hi s.params.obufSize
  · refine Memory.writeBytes_within h ?_
    simp
    omega
  · have : min hi s.params.obufSize - lo = 0 := by omega
    simp only [State.spoil, this, List.range_zero, List.map_nil, Memory.writeBytes]
    exact h

end Sys2Proof.Machine
end

