-- ==== Sys2Proof/Laws/PerInstr.lean ====
section
/-! SUPPORT. Facts about every command as syntax, one lemma per constructor. -/

namespace Sys2Proof.Laws.EncodesLegally

/-- The word of the command is a legal one, with bits [31:8] zero (rules R300, R301). -/
def Statement (i : Instr) : Prop := legalWord (encode i) = true ∧ (encode i).toNat < 256

theorem nop : Statement .nop := ⟨by decide, by decide⟩
theorem clear : Statement .clear := ⟨by decide, by decide⟩
theorem analyze : Statement .analyze := ⟨by decide, by decide⟩
theorem norm : Statement .norm := ⟨by decide, by decide⟩
theorem build : Statement .build := ⟨by decide, by decide⟩
theorem gencode : Statement .gencode := ⟨by decide, by decide⟩
theorem pack : Statement .pack := ⟨by decide, by decide⟩
theorem unpack : Statement .unpack := ⟨by decide, by decide⟩
theorem wrhdr : Statement .wrhdr := ⟨by decide, by decide⟩
theorem rdhdr : Statement .rdhdr := ⟨by decide, by decide⟩
theorem compress : Statement .compress := ⟨by decide, by decide⟩
theorem decompress : Statement .decompress := ⟨by decide, by decide⟩

end Sys2Proof.Laws.EncodesLegally
end

