-- ==== Sys2Proof/Laws/Units.lean ====
section
/-! SUPPORT. Everything each unit command can do, said once per unit; and how a composite command follows from its steps. -/

namespace Sys2Proof.Machine

/-- The state at the end of a run, whether it committed or raised. -/
def Run.state : Run → State
  | .ok s => s
  | .raised _ s => s

@[simp] theorem Run.state_ok (s : State) : (Run.ok s).state = s := rfl
@[simp] theorem Run.state_raised (f : Failure) (s : State) : (Run.raised f s).state = s := rfl
@[simp] theorem Run.andThen_ok (s : State) (k : State → Run) : (Run.ok s).andThen k = k s := rfl
@[simp] theorem Run.andThen_raised (f : Failure) (s : State) (k : State → Run) :
    (Run.raised f s).andThen k = .raised f s := rfl
@[simp] theorem Run.complete_ok (s : State) : (Run.ok s).complete = s.succeed := rfl
@[simp] theorem Run.complete_raised (f : Failure) (s : State) : (Run.raised f s).complete = s.failCommand f := rfl

/-- What holds after a run and is kept by the next step holds after both. -/
theorem Run.andThen_keeps {P : State → Prop} {r : Run} {k : State → Run} (hr : P r.state)
    (hk : ∀ s, P s → P (k s).state) : P (r.andThen k).state := by
  cases r with
  | ok s => exact hk s hr
  | raised f s => exact hr

/-- ANALYZE raises with nothing changed, or commits its counts (rule R400). -/
theorem analyze_cases (s : State) :
    (∃ f, analyze s = .raised f s)
      ∨ (1 ≤ s.inLen.toNat ∧ s.inLen.toNat ≤ s.params.ibufSize ∧ analyze s = .ok { s with
          freq := countBytes (s.input s.inLen.toNat), origSize := s.inLen, treeV := false, codeV := false }) := by
  unfold analyze
  split
  · exact .inl ⟨_, rfl⟩
  · split
    · exact .inl ⟨_, rfl⟩
    · rename_i h1 h2
      refine .inr ⟨?_, by omega, rfl⟩
      rcases Nat.eq_zero_or_pos s.inLen.toNat with h | h
      · exact absurd (BitVec.eq_of_toNat_eq (by simpa using h)) h2
      · exact h

/-- NORM raises with nothing changed, or commits a table and clears the flags (rule R420). -/
theorem norm_cases (s : State) :
    (∃ f, norm s = .raised f s)
      ∨ (popcountPresent s.freq ≤ 31 ∧ s.params.policy = .fault ∧ firstOver s.freq = none ∧ norm s = .ok s.invalidate)
      ∨ (popcountPresent s.freq ≤ 31 ∧ s.params.policy = .saturate
          ∧ norm s = .ok { s.invalidate with freq := saturate s.freq }) := by
  unfold norm
  split
  · exact .inl ⟨_, rfl⟩
  · rename_i h
    cases hp : s.params.policy with
    | fault =>
      cases ho : firstOver s.freq with
      | some b => exact .inl ⟨_, rfl⟩
      | none => exact .inr (.inl ⟨by omega, rfl, rfl, rfl⟩)
    | saturate => exact .inr (.inr ⟨by omega, rfl, rfl⟩)

/-- BUILD raises with nothing changed, or commits the tree of FREQ (rule R450). -/
theorem build_cases (s : State) :
    (huffmanTree s.freq = none ∧ build s = .raised { kind := .invalidFrequencyTable, info := 0 } s)
      ∨ ∃ arena r, huffmanTree s.freq = some (arena, r) ∧ build s = .ok { s with
          node := arenaOf arena, root := BitVec.ofNat 9 r, nnodes := BitVec.ofNat 10 arena.length, treeV := true
          codeV := false } := by
  unfold build
  split
  · rename_i h
    exact .inl ⟨h, rfl⟩
  · rename_i arena r h
    exact .inr ⟨arena, r, h, rfl⟩

/-- GENCODE raises with nothing changed, or commits the code table (rule R500). -/
theorem gencode_cases (s : State) :
    (s.treeV = false ∧ gencode s = .raised { kind := .notReady, info := 1 } s)
      ∨ (s.treeV = true ∧ gencode s = .ok { s with
          codeLen := codeLengths (codeTable (treeCodes s.node s.root)), code := codeTable (treeCodes s.node s.root)
          codeV := true }) := by
  unfold gencode
  cases h : s.treeV
  · exact .inl ⟨rfl, rfl⟩
  · exact .inr ⟨rfl, rfl⟩

/-- PACK raises with some of OBUF spoiled, or commits the packed payload, which fits (rule R550). -/
theorem pack_cases (s : State) :
    (∃ f lo hi, pack s = .raised f (s.spoil lo hi))
      ∨ (∃ stream, stream = codeStream s.code (s.input s.inLen.toNat) ∧ s.codeV = true
          ∧ s.inLen.toNat ≤ s.params.ibufSize ∧ firstMissing s.codeLen (s.input s.inLen.toNat) = none
          ∧ s.outOff.toNat + (packBits stream).length ≤ s.params.obufSize
          ∧ pack s = .ok { s.putBytes s.outOff.toNat (packBits stream) with
              pad := BitVec.ofNat 3 (padCount stream.length), nbits := BitVec.ofNat 40 stream.length
              outLen := BitVec.ofNat 32 (s.outOff.toNat + (packBits stream).length) }) := by
  unfold pack
  split
  · exact .inl ⟨_, _, _, rfl⟩
  · split
    · exact .inl ⟨_, _, _, rfl⟩
    · simp only
      split
      · exact .inl ⟨_, _, _, rfl⟩
      · split
        · exact .inl ⟨_, _, _, rfl⟩
        · rename_i h1 h2 _ h3 h4
          exact .inr ⟨_, rfl, by simpa using h1, by omega, h3, by omega, rfl⟩

/-- The decoding loop emits no more symbols than it is asked for, and consumes no more bits than there are. -/
theorem decodeLoop_bounds (node : Vector Node 511) (root : BitVec 9) (bits : Bits) (cur : BitVec 9) (n : Nat) :
    (decodeLoop node root bits cur n).1.length ≤ n
      ∧ (decodeLoop node root bits cur n).1.length ≤ (decodeLoop node root bits cur n).2
      ∧ (decodeLoop node root bits cur n).2 ≤ bits.length := by
  induction bits generalizing cur n with
  | nil => cases n <;> simp [decodeLoop]
  | cons bit bits ih =>
    cases n with
    | zero => simp [decodeLoop]
    | succ n =>
      simp only [decodeLoop]
      split
      · simp
      · split
        · simp
        · split
          · have := ih root n
            simp only [List.length_cons]
            omega
          · refine ⟨(ih _ (n + 1)).1, (ih _ (n + 1)).2.1.trans (Nat.le_succ _), Nat.succ_le_succ (ih _ (n + 1)).2.2⟩

/-- UNPACK raises with OBUF[0 … N − 1] spoiled, or commits N symbols, which fit (rule R600). -/
theorem unpack_cases (s : State) :
    (∃ f, unpack s = .raised f (s.spoil 0 s.origSize.toNat))
      ∨ ∃ out consumed, out.length = s.origSize.toNat ∧ s.treeV = true ∧ s.inLen.toNat ≤ s.params.ibufSize
          ∧ s.origSize.toNat ≤ s.params.obufSize ∧ unpack s = .ok (unpackCommit s out consumed) := by
  unfold unpack
  split
  · exact .inl ⟨_, rfl⟩
  · split
    · exact .inl ⟨_, rfl⟩
    · split
      · exact .inl ⟨_, rfl⟩
      · rename_i h1 h2 h3
        have h1 : s.treeV = true := by simpa using h1
        split
        · exact .inr ⟨_, _, by simp, h1, by omega, by omega, rfl⟩
        · unfold unpackBits
          split
          · exact .inl ⟨_, rfl⟩
          · split
            · exact .inl ⟨_, rfl⟩
            · simp only
              split
              · exact .inl ⟨_, rfl⟩
              · rename_i h4
                have := (decodeLoop_bounds s.node s.root
                  (s.payloadBits (8 * (s.inLen.toNat - s.inOff.toNat) - s.pad.toNat)) s.root s.origSize.toNat).1
                exact .inr ⟨_, _, by omega, h1, by omega, by omega, rfl⟩

theorem entryBytes_length (t : Table (BitVec 32)) : (entryBytes t).length = 2 * popcountPresent t := by
  simp [entryBytes, popcountPresent, List.length_flatMap]
  omega

theorem headerBytes_length (m : Byte) (n : Word) (p : BitVec 3) (t : Table (BitVec 32)) :
    (headerBytes m n p t).length = headerLength t := by
  simp [headerBytes, wordBytes, entryBytes_length, headerLength]
  omega

/-- WRHDR raises with the header's range spoiled, or commits the header, which fits (rule R650). -/
theorem wrhdr_cases (s : State) :
    (∃ f, wrhdr s = .raised f (s.spoil 0 (headerLength s.freq)))
      ∨ (popcountPresent s.freq ≤ 31 ∧ firstOver s.freq = none ∧ headerLength s.freq ≤ s.params.obufSize
          ∧ wrhdr s = .ok { s.putBytes 0 (headerBytes s.params.magic s.origSize s.pad s.freq) with
              outLen := BitVec.ofNat 32 (max s.outLen.toNat (headerLength s.freq)) }) := by
  unfold wrhdr
  split
  · exact .inl ⟨_, rfl⟩
  · split
    · exact .inl ⟨_, rfl⟩
    · split
      · exact .inl ⟨_, rfl⟩
      · rename_i h1 _ h2 h3
        exact .inr ⟨by omega, h2, by omega, rfl⟩

/-- RDHDR raises with nothing changed, or commits the header's fields and clears the flags (rule R670). -/
theorem rdhdr_cases (s : State) :
    (∃ f, rdhdr s = .raised f s)
      ∨ ∃ t, s.inLen.toNat ≤ s.params.ibufSize ∧ s.byteAt .ibuf 0 = s.params.magic
          ∧ 6 + 2 * sizeField (s.byteAt .ibuf 5) ≤ s.inLen.toNat
          ∧ readEntries 0 (s.inputEntries (sizeField (s.byteAt .ibuf 5))) [] (Table.tabulate fun _ => 0) = .ok t
          ∧ rdhdr s = .ok { s.invalidate with
              freq := t, origSize := s.inputWord 1, pad := padField (s.byteAt .ibuf 5)
              inOff := BitVec.ofNat 32 (6 + 2 * sizeField (s.byteAt .ibuf 5)) } := by
  unfold rdhdr
  simp only
  split
  · exact .inl ⟨_, rfl⟩
  · split
    · exact .inl ⟨_, rfl⟩
    · split
      · exact .inl ⟨_, rfl⟩
      · split
        · exact .inl ⟨_, rfl⟩
        · split
          · exact .inl ⟨_, rfl⟩
          · rename_i h1 _ h2 _ h3
            split
            · exact .inl ⟨_, rfl⟩
            · rename_i t h4
              exact .inr ⟨t, by omega, by simpa using h2, by omega, h4, rfl⟩

/-- What every sub-step of COMPRESS keeps, COMPRESS keeps. -/
theorem compress_keeps {P : State → Prop} (h1 : ∀ s, P s → P (analyze s).state) (h2 : ∀ s, P s → P (norm s).state)
    (h3 : ∀ s, P s → P (build s).state) (h4 : ∀ s, P s → P (gencode s).state)
    (h5 : ∀ s, P s → P (setPayloadOffset s).state) (h6 : ∀ s, P s → P (pack s).state)
    (h7 : ∀ s, P s → P (wrhdr s).state) (s : State) (hs : P s) : P (compress s).state :=
  Run.andThen_keeps (Run.andThen_keeps (Run.andThen_keeps (Run.andThen_keeps (Run.andThen_keeps
    (Run.andThen_keeps (h1 s hs) h2) h3) h4) h5) h6) h7

/-- What every sub-step of DECOMPRESS keeps, DECOMPRESS keeps. -/
theorem decompress_keeps {P : State → Prop} (h1 : ∀ s, P s → P (rdhdr s).state) (h2 : ∀ s, P s → P (build s).state)
    (h3 : ∀ s, P s → P (unpack s).state) (s : State) (hs : P s) : P (decompress s).state :=
  Run.andThen_keeps (Run.andThen_keeps (h1 s hs) h2) h3

/-- The run of each command: its unit, or the chain of its sub-steps. -/
def commandRun : Instr → State → Run
  | .nop => nop
  | .clear => clear
  | .analyze => analyze
  | .norm => norm
  | .build => build
  | .gencode => gencode
  | .pack => pack
  | .unpack => unpack
  | .wrhdr => wrhdr
  | .rdhdr => rdhdr
  | .compress => compress
  | .decompress => decompress

/-- What every unit command keeps, every command's run keeps. -/
theorem commandRun_keeps {P : State → Prop} (hclear : ∀ s, P s → P (clear s).state) (h1 : ∀ s, P s → P (analyze s).state)
    (h2 : ∀ s, P s → P (norm s).state) (h3 : ∀ s, P s → P (build s).state) (h4 : ∀ s, P s → P (gencode s).state)
    (h5 : ∀ s, P s → P (setPayloadOffset s).state) (h6 : ∀ s, P s → P (pack s).state) (h7 : ∀ s, P s → P (unpack s).state)
    (h8 : ∀ s, P s → P (wrhdr s).state) (h9 : ∀ s, P s → P (rdhdr s).state) (i : Instr) (s : State) (h : P s) :
    P (commandRun i s).state := by
  cases i
  case nop => exact h
  case clear => exact hclear s h
  case analyze => exact h1 s h
  case norm => exact h2 s h
  case build => exact h3 s h
  case gencode => exact h4 s h
  case pack => exact h6 s h
  case unpack => exact h7 s h
  case wrhdr => exact h8 s h
  case rdhdr => exact h9 s h
  case compress => exact compress_keeps h1 h2 h3 h4 h5 h6 h8 s h
  case decompress => exact decompress_keeps h9 h3 h7 s h

/-- Every command completes with what its run committed or raised (rules R820, R822). -/
theorem exec_eq (i : Instr) (s : State) : exec i s = .next (commandRun i s).complete := by
  cases i <;> rfl

end Sys2Proof.Machine
end

