-- ==== Sys2Proof/Laws/Step.lean ====
section
/-! SUPPORT. Everything a step, and a turn of the host, can do. -/

namespace Sys2Proof.Machine

/-- A step that answers a next state is a completion step of the command in flight, a turn of the host, or the idle step of a host with
nothing to do; on a turn of the host the latency of a command in flight counts down. -/
theorem step_cases {s t : State} (h : step s = .next t) :
    (∃ w i, s.inflight = some { word := w, latency := 0 } ∧ decode w = .ok i ∧ t = (commandRun i s).complete)
      ∨ (∃ w e, s.inflight = some { word := w, latency := 0 } ∧ decode w = .error e
          ∧ t = s.failCommand { kind := .illegalCommand, info := w })
      ∨ ∃ fl, (fl = none ∧ s.inflight = none
          ∨ ∃ w n, fl = some { word := w, latency := n } ∧ s.inflight = some { word := w, latency := n + 1 })
        ∧ (s.host = [] ∧ t = { s with inflight := fl }
          ∨ ∃ op ops, s.host = op :: ops ∧ hostAccess op { s with inflight := fl, host := ops } = .next t) := by
  unfold step advance at h
  split at h
  · rename_i hn
    refine .inr (.inr ⟨none, .inl ⟨rfl, hn⟩, ?_⟩)
    have hs : { s with inflight := none } = s := by rw [← hn]
    unfold hostTurn at h
    split at h
    · rename_i hh
      exact .inl ⟨hh, by rw [hs]; exact (Host.Outcome.next.inj h).symm⟩
    · rename_i op ops hh
      refine .inr ⟨op, ops, hh, ?_⟩
      rw [← h]
      congr 1
      rw [← hn]
  · rename_i c hc
    split at h
    · rename_i hl
      have hc' : s.inflight = some { word := c.word, latency := 0 } := by rw [hc, ← hl]
      unfold completeWord at h
      split at h
      · rename_i i hd
        rw [exec_eq] at h
        exact .inl ⟨c.word, i, hc', hd, (Host.Outcome.next.inj h).symm⟩
      · rename_i e hd
        exact .inr (.inl ⟨c.word, e, hc', hd, (Host.Outcome.next.inj h).symm⟩)
    · rename_i n hl
      have hc' : s.inflight = some { word := c.word, latency := n + 1 } := by
        rw [hc]; cases c; simp_all
      refine .inr (.inr ⟨some { word := c.word, latency := n }, .inr ⟨c.word, n, rfl, hc'⟩, ?_⟩)
      unfold hostTurn at h
      split at h
      · rename_i hh
        exact .inl ⟨hh, (Host.Outcome.next.inj h).symm⟩
      · rename_i op ops hh
        exact .inr ⟨op, ops, hh, h⟩

/-- A register access is no bus error exactly if it is 32 bits wide and aligned. -/
theorem registerFault_eq_none_iff {w : AccessWidth} {off : BitVec 12} :
    registerFault w off = none ↔ w = .word ∧ off.toNat % 4 = 0 := by
  cases w
  simp only [registerFault, AccessWidth.mk.injEq]
  split
  · simp; omega
  · split
    · simp; omega
    · split <;> simp <;> omega

/-- A turn of the host that answers a next state: an allowed register or buffer access, or none. -/
theorem hostAccess_cases {op : HostOp} {s t : State} (h : hostAccess op s = .next t) :
    (∃ off, op = .readReg .word off ∧ off.toNat % 4 = 0 ∧ t = hostReadReg s (regAt off))
      ∨ (∃ off v, op = .writeReg .word off v ∧ off.toNat % 4 = 0 ∧ t = hostWriteReg s (regAt off) v)
      ∨ (∃ b a, op = .readByte b a ∧ a.toNat < bufferSize s.params b ∧ t = hostReadByte s b a.toNat)
      ∨ (∃ b a v, op = .writeByte b a v ∧ a.toNat < bufferSize s.params b ∧ s.busy = false ∧ t = hostWriteByte s a.toNat v b)
      ∨ (op = .poll ∧ t = s.hostPoll)
      ∨ (op = .awaitIrq ∧ t = if s.irq then s else { s with host := .awaitIrq :: s.host })
      ∨ (op = .pause ∧ t = s)
      ∨ (op = .reset ∧ t = s.hostReset) := by
  cases op with
  | readReg w off =>
    simp only [hostAccess] at h
    split at h
    · simp at h
    · rename_i hr
      obtain ⟨rfl, hm⟩ := registerFault_eq_none_iff.mp hr
      exact .inl ⟨off, rfl, hm, (Host.Outcome.next.inj h).symm⟩
  | writeReg w off v =>
    simp only [hostAccess] at h
    split at h
    · simp at h
    · rename_i hr
      obtain ⟨rfl, hm⟩ := registerFault_eq_none_iff.mp hr
      exact .inr (.inl ⟨off, v, rfl, hm, (Host.Outcome.next.inj h).symm⟩)
  | readByte b a =>
    simp only [hostAccess] at h
    split at h
    · simp at h
    · rename_i hr
      exact .inr (.inr (.inl ⟨b, a, rfl, by omega, (Host.Outcome.next.inj h).symm⟩))
  | writeByte b a v =>
    simp only [hostAccess] at h
    split at h
    · simp at h
    · split at h
      · simp at h
      · rename_i hr hb
        exact .inr (.inr (.inr (.inl ⟨b, a, v, rfl, by omega, by simpa using hb, (Host.Outcome.next.inj h).symm⟩)))
  | poll => exact .inr (.inr (.inr (.inr (.inl ⟨rfl, (Host.Outcome.next.inj h).symm⟩))))
  | awaitIrq => exact .inr (.inr (.inr (.inr (.inr (.inl ⟨rfl, (Host.Outcome.next.inj h).symm⟩)))))
  | pause => exact .inr (.inr (.inr (.inr (.inr (.inr (.inl ⟨rfl, (Host.Outcome.next.inj h).symm⟩))))))
  | reset => exact .inr (.inr (.inr (.inr (.inr (.inr (.inr ⟨rfl, (Host.Outcome.next.inj h).symm⟩))))))

end Sys2Proof.Machine
end

