-- ==== Sys2Proof/Laws/Validity.lean ====
section
/-! SUPPORT. The validity flags, command by command: what BUILD and GENCODE make valid, and what leaves it so (rules R114, R115). -/

namespace Sys2Proof.Machine

/-- With both flags clear nothing is claimed. -/
theorem validityOk_of_clear {s : State} (ht : s.treeV = false) (hc : s.codeV = false) : s.ValidityOk :=
  ⟨fun h => by simp [ht] at h, fun h => by simp [hc] at h⟩

/-- The claim reads FREQ, the tree, the code table and the two flags, nothing else. -/
theorem validityOk_congr {s t : State} (h : s.ValidityOk) (hf : t.freq = s.freq) (hn : t.node = s.node) (hr : t.root = s.root)
    (hk : t.nnodes = s.nnodes) (hl : t.codeLen = s.codeLen) (hc : t.code = s.code) (htv : t.treeV = s.treeV)
    (hcv : t.codeV = s.codeV) : t.ValidityOk := by
  unfold State.ValidityOk at h ⊢
  rw [hf, hn, hr, hk, hl, hc, htv, hcv]
  exact h

/-- BUILD leaves the tree of FREQ, or nothing changed (rules R114, R450). -/
theorem build_validity {s : State} (h : s.ValidityOk) : (build s).state.ValidityOk := by
  rcases build_cases s with ⟨_, hb⟩ | ⟨arena, r, ht, hb⟩
  · simpa [hb] using h
  · simp [hb, State.ValidityOk, treeOf, ht]

/-- GENCODE leaves the codes of the tree, or nothing changed (rules R115, R500). -/
theorem gencode_validity {s : State} (h : s.ValidityOk) : (gencode s).state.ValidityOk := by
  rcases gencode_cases s with ⟨_, hg⟩ | ⟨ht, hg⟩
  · simpa [hg] using h
  · rw [hg]
    exact ⟨h.1, fun _ => ⟨ht, rfl, rfl⟩⟩

/-- Completion changes none of what the flags claim (rules R820, R822). -/
theorem complete_validity {r : Run} (h : r.state.ValidityOk) : r.complete.ValidityOk := by
  cases r <;> exact h

end Sys2Proof.Machine
end

