-- ==== Sys2Proof/Tests/Slice0.lean ====
section
/-! SUPPORT. Tests: what the checks refuse, decoding from words written out bit by bit, one or two of the spec's own test vectors per
command (spec/95_test_vectors.md, cited by its id), and for every statement with hypotheses a witness that meets them. -/

namespace Sys2Proof.Machine.Tests

set_option Elab.async false

/-! ### Small states -/

/-- MAGIC 0x4D, SATURATE, and buffers of these sizes. -/
def sized (policy : CountPolicy) (ibufSize obufSize : Nat) : Params :=
  { magic := 0x4D, policy := policy, ibufLast := Fin.ofNat _ (ibufSize - 1), obufLast := Fin.ofNat _ (obufSize - 1) }

/-- The reset state of an instance with 64-byte buffers. -/
def fresh : State := { State.reset with params := sized .saturate 64 64 }

/-- The same for another instance. -/
def freshOf (p : Params) : State := { State.reset with params := p }

/-- The bytes in IBUF from 0 on, and IN_LEN their count. -/
def load (xs : List Byte) (s : State) : State :=
  { s with ibuf := Memory.writeBytes [] 0 xs, inLen := BitVec.ofNat 32 xs.length }

/-- These counts in FREQ. -/
def counts (l : List (Byte × Word)) (s : State) : State := { s with freq := l.foldl (fun t x => t.put x.1 x.2) s.freq }

/-- The state a command completes in. -/
def after (i : Instr) (s : State) : State := (commandRun i s).complete

theorem exec_after (i : Instr) (s : State) : exec i s = .next (after i s) := exec_eq i s

/-- The first `n` bytes of OBUF. -/
def out (n : Nat) (s : State) : List Byte := (List.range n).map (s.byteAt .obuf)

/-- "aaabbc" -/
def aaabbc : List Byte := [0x61, 0x61, 0x61, 0x62, 0x62, 0x63]

/-- V-B1 -/
def built : State := after .build (counts [(0x61, 3), (0x62, 2), (0x63, 1)] fresh)

/-- V-G1 -/
def coded : State := after .gencode built

/-- V-B2 -/
def single : State := after .build (counts [(0x78, 1)] fresh)

/-- V-P1 -/
def packed : State := after .pack { load aaabbc coded with outOff := 12 }

/-- The file of V-C1. -/
def fileC1 : List Byte := [0x4D, 0x00, 0x00, 0x00, 0x06, 0xE3, 0x61, 0x03, 0x62, 0x02, 0x63, 0x01, 0x1F, 0x00]

/-- The 32 symbols 00 … 1F, each once. -/
def thirtyTwo : State := { fresh with freq := Table.tabulate fun b => if b.toNat < 32 then 1 else 0 }

/-! ### WellFormed and Decode -/

/-- Every command is well formed (rule R303: no field to be ill formed). -/
theorem test_commands_wellFormed : ∀ i : Instr, i.wellFormed = true := by intro i; cases i <;> decide

/-- Ill-formed words, refused by the check they break (V-K4, V-K3, V-K5). -/
theorem test_reserved_bits_refused : reservedClear 0x00000110 = false ∧ legalWord 0x00000110 = false := by decide

theorem test_unassigned_opcode_refused : opcodeAssigned 0x00000012 = false ∧ legalWord 0x00000012 = false := by decide

theorem test_illegal_words_not_decoded :
    decode 0x00000012 = .error .unknownOpcode ∧ decode 0x00000110 = .error .reservedBits
      ∧ decode 0xFFFFFFFF = .error .reservedBits ∧ decode 0x00000062 = .error .unknownOpcode
      ∧ decode 0x80000000 = .error .reservedBits := by decide

theorem test_decode_control : decode (0#24 ++ 0b00000000#8) = .ok .nop ∧ decode (0#24 ++ 0b00000001#8) = .ok .clear := by decide

theorem test_decode_frequency : decode (0#24 ++ 0b00010000#8) = .ok .analyze ∧ decode (0#24 ++ 0b00010001#8) = .ok .norm := by
  decide

theorem test_decode_tree_and_codes : decode (0#24 ++ 0b00100000#8) = .ok .build ∧ decode (0#24 ++ 0b00110000#8) = .ok .gencode := by
  decide

theorem test_decode_pack_unpack : decode (0#24 ++ 0b01000000#8) = .ok .pack ∧ decode (0#24 ++ 0b01000001#8) = .ok .unpack := by
  decide

theorem test_decode_header : decode (0#24 ++ 0b01010000#8) = .ok .wrhdr ∧ decode (0#24 ++ 0b01010001#8) = .ok .rdhdr := by decide

theorem test_decode_composite :
    decode (0#24 ++ 0b01100000#8) = .ok .compress ∧ decode (0#24 ++ 0b01100001#8) = .ok .decompress := by decide

theorem test_decodeTableWord : decodeTableWord 32 0x61 = some .decompress ∧ decodeTableWord 32 0x12 = none := by decide

/-- Every command runs as the first one after reset. -/
theorem test_first_command_after_reset :
    ∀ i : Instr, step (State.reset.withFetchWord 32 (encode i).toNat) = exec i (State.reset.accept (encode i) 0) := by
  intro i; cases i <;> rfl

/-! ### The spec's test vectors -/

/-- V-K1: NOP after a CapacityExceeded. -/
theorem test_nop_K1 :
    let s := after .nop ((after .norm thirtyTwo).accept 0x00000000 0)
    readReg s .status = 0x00000002 ∧ s.errInfo = 0 ∧ s.freq = thirtyTwo.freq := by decide +kernel

/-- V-K2: CLEAR after a compression. -/
theorem test_clear_K2 :
    let s := after .clear ((after .compress (load aaabbc fresh)).accept 0x00000001 0)
    readReg s .status = 0x00000002 ∧ readReg s .tsize = 0 ∧ readReg s .treeInfo = 0 ∧ s.outLen = 0 ∧ s.outOff = 0 ∧ s.pad = 0
      ∧ s.nbits = 0 ∧ s.codeLen.entry 0x61 = 0 ∧ s.inLen = 6 ∧ out 14 s = fileC1 := by decide +kernel

/-- V-A1 -/
theorem test_analyze_A1 :
    let s := after .analyze (load aaabbc fresh)
    s.freq.entry 0x61 = 3 ∧ s.freq.entry 0x62 = 2 ∧ s.freq.entry 0x63 = 1 ∧ s.freq.entry 0x64 = 0 ∧ s.origSize = 6
      ∧ readReg s .tsize = 3 ∧ readReg s .status = 0x00000002 := by decide +kernel

/-- V-A4: the length check comes before EmptyInput's. -/
theorem test_analyze_A4 : readReg (after .analyze { fresh with inLen := 65 }) .status = 0x0000050A := by decide +kernel

/-- V-N5 -/
theorem test_norm_N5 :
    let s := after .norm (counts [(0x61, 255), (0x62, 256)] fresh)
    s.freq.entry 0x61 = 255 ∧ s.freq.entry 0x62 = 255 ∧ readReg s .tsize = 2 := by decide +kernel

/-- V-N4: the least such symbol. -/
theorem test_norm_N4 :
    let s := after .norm (counts [(0x61, 500), (0x62, 300)] (freshOf (sized .fault 64 64)))
    s.errcode = 3 ∧ s.errInfo = 0x80000061 ∧ s.freq.entry 0x61 = 500 := by decide +kernel

/-- V-B1 -/
theorem test_build_B1 :
    readReg built .treeInfo = 0x00050004 ∧ built.entryAt 0 = { leaf := true, sym := 0x61, nfreq := 3, left := 0, right := 0 }
      ∧ built.entryAt 3 = { leaf := false, sym := 0, nfreq := 3, left := 2, right := 1 }
      ∧ built.entryAt 4 = { leaf := false, sym := 0, nfreq := 6, left := 0, right := 3 } := by decide +kernel

/-- V-B3: the tie goes to the lower index. -/
theorem test_build_B3 :
    let s := after .build (counts [(0x61, 2), (0x62, 1), (0x63, 1)] fresh)
    s.entryAt 3 = { leaf := false, sym := 0, nfreq := 2, left := 1, right := 2 }
      ∧ s.entryAt 4 = { leaf := false, sym := 0, nfreq := 4, left := 0, right := 3 } := by decide +kernel

/-- V-G1 -/
theorem test_gencode_G1 :
    coded.code.entry 0x61 = [false] ∧ coded.code.entry 0x62 = [true, true] ∧ coded.code.entry 0x63 = [true, false]
      ∧ readReg { coded with sel := 0x63 } (.codeWord 0) = 0x80000000 := by decide +kernel

/-- V-G2: a single leaf. -/
theorem test_gencode_G2 : (after .gencode single).code.entry 0x78 = [false] := by decide +kernel

/-- V-P1 -/
theorem test_pack_P1 :
    packed.byteAt .obuf 12 = 0x1F ∧ packed.byteAt .obuf 13 = 0x00 ∧ packed.pad = 7 ∧ packed.nbits = 9 ∧ packed.outLen = 14 := by
  decide +kernel

/-- V-P8: a byte without a code. -/
theorem test_pack_P8 :
    let s := after .pack (load [0x61, 0x62, 0x64] coded)
    s.errInfo = 2 ∧ readReg s .status = 0x0000073A ∧ s.outLen = 0 := by decide +kernel

/-- V-U4: with PAD 0 the zero padding decodes as "a". -/
theorem test_unpack_U4 :
    let s := after .unpack { load [0x1F, 0x00] built with origSize := 13 }
    out 13 s = aaabbc ++ List.replicate 7 0x61 ∧ s.nbits = 16 ∧ s.outLen = 13 := by decide +kernel

/-- V-U6: the bits run out after one symbol. -/
theorem test_unpack_U6 :
    let s := after .unpack { load [0x1F] built with origSize := 6, pad := 7 }
    s.errcode = 4 ∧ s.errInfo = 1 ∧ s.outLen = 0 := by decide +kernel

/-- V-W9: OriginalSize is big-endian. -/
theorem test_wrhdr_W9 :
    out 8 (after .wrhdr { counts [(0x61, 1)] fresh with origSize := 0x12345678, pad := 5 })
      = [0x4D, 0x12, 0x34, 0x56, 0x78, 0xA1, 0x61, 0x01] := by decide +kernel

/-- V-W6: OUT_LEN is the maximum. -/
theorem test_wrhdr_W6 :
    let s := after .wrhdr { packed with origSize := 6 }
    out 14 s = fileC1 ∧ s.outLen = 14 := by decide +kernel

/-- V-R2: the entries in another order. -/
theorem test_rdhdr_R2 :
    let s := after .rdhdr (load [0x4D, 0, 0, 0, 6, 0xE3, 0x63, 1, 0x61, 3, 0x62, 2, 0x1F, 0] fresh)
    s.freq.entry 0x61 = 3 ∧ s.freq.entry 0x62 = 2 ∧ s.freq.entry 0x63 = 1 ∧ s.origSize = 6 ∧ s.pad = 7 ∧ s.inOff = 12
      ∧ readReg s .status = 0x00000002 := by decide +kernel

/-- V-R10: a repeated symbol in entry 2. -/
theorem test_rdhdr_R10 :
    let s := after .rdhdr (load [0x4D, 0, 0, 0, 6, 0xE3, 0x61, 3, 0x62, 2, 0x61, 1, 0x1F, 0] fresh)
    s.errcode = 2 ∧ s.errInfo = 0x00000204 := by decide +kernel

/-- V-C9 -/
theorem test_compress_C9 :
    let s := after .compress (load [0x61, 0x62, 0x62, 0x63] fresh)
    out 13 s = [0x4D, 0, 0, 0, 4, 0x43, 0x61, 1, 0x62, 2, 0x63, 1, 0x8C] ∧ s.outLen = 13 ∧ s.outOff = 12 ∧ s.nbits = 6
      ∧ readReg s .status = 0x00000032 := by decide +kernel

/-- V-X4: PACK's failure keeps what was committed before it. -/
theorem test_compress_X4 :
    let s := after .compress (load aaabbc (freshOf (sized .saturate 64 13)))
    readReg s .status = 0x0000053A ∧ s.errInfo = 1 ∧ s.outOff = 12 ∧ s.outLen = 0 ∧ s.pad = 0 ∧ s.freq.entry 0x61 = 3 := by
  decide +kernel

/-- V-D3: one symbol short. -/
theorem test_decompress_D3 :
    let s := after .decompress (load [0x4D, 0, 0, 0, 7, 0xE3, 0x61, 3, 0x62, 2, 0x63, 1, 0x1F, 0] fresh)
    s.errcode = 4 ∧ s.errInfo = 6 := by decide +kernel

/-- V-D10: the entries in another order. -/
theorem test_decompress_D10 :
    let s := after .decompress (load [0x4D, 0, 0, 0, 6, 0xE3, 0x63, 1, 0x61, 3, 0x62, 2, 0x1F, 0] fresh)
    out 6 s = aaabbc ∧ s.outLen = 6 ∧ s.nbits = 9 ∧ readReg s .status = 0x00000012 := by decide +kernel

/-- V-K6: a register write while busy. -/
theorem test_busy_write_K6 :
    let s := hostWriteReg (fresh.accept 0x00000060 1) (regAt 0x010) 6
    s.inLen = 0 ∧ readReg s .status = 0x00000005 := by decide +kernel

/-- R140, and 93_implementation_defined.md 2.11: a reserved offset reads 0 while busy too. -/
theorem test_busy_reserved :
    (hostReadReg { fresh.accept 0x60 1 with rdata := 7 } (regAt 0x078)).rdata = 0
      ∧ (hostReadReg { fresh.accept 0x60 1 with rdata := 7 } (regAt 0xFFC)).rdata = 0 := by decide +kernel

/-- R205, R215: a register access is 32 bits wide and aligned, or it is a bus error. -/
theorem test_register_access_widths :
    registerFault { bits := 8 } 0x010 = some .registerNarrow ∧ registerFault { bits := 16 } 0x010 = some .registerNarrow
      ∧ registerFault { bits := 32 } 0x010 = none ∧ registerFault { bits := 64 } 0x010 = some .registerWide
      ∧ registerFault { bits := 32 } 0x012 = some .registerMisaligned := by decide

/-- P5, line 1: the offset of FREQ_61. -/
theorem test_freq_window_P5 : regAt 0x584 = .freq 0x61 ∧ regAt 0x7FC = .freq 0xFF ∧ regAt 0x800 = .reserved := by decide

/-- P3, lines 11 and 13, on the tree of V-B1: NODE_CHILD of the root, NODE_KIND of leaf 0. -/
theorem test_node_window :
    readReg { built with sel := 4 } (regAt 0x074) = 0x00030000 ∧ readReg { built with sel := 0 } (regAt 0x068) = 0x00006103
      ∧ readReg { built with sel := 5 } (regAt 0x068) = 0 := by decide +kernel

/-! ### Witnesses: for every statement with hypotheses, states and operands that meet them, each clause at a boundary of its range -/

theorem witness_DecodeAndEncodeAgree :
    Instr.wellFormed .decompress = true ∧ decode 0x00000061 = .ok .decompress ∧ (0x00000061 : Word) = encode .decompress := by decide

theorem witness_IllegalWordsFailWithTheWord :
    (∀ i, (0x00000012 : Word) ≠ encode i) ∧ (∀ i, (0x00000110 : Word) ≠ encode i) ∧ (∀ i, (0xFFFFFFFF : Word) ≠ encode i)
      ∧ fresh.inflight = none ∧ (fresh.accept 0x00000012 0).inflight = some { word := 0x00000012, latency := 0 } := by
  refine ⟨?_, ?_, ?_, rfl, rfl⟩ <;> (intro i; cases i <;> decide)

theorem witness_StepRunsTheDecodedCommand :
    (fresh.accept 0x00000061 0).inflight = some { word := 0x00000061, latency := 0 } ∧ decode 0x00000061 = .ok .decompress := by
  decide

/-- The four clauses of StepGivesTheHostItsTurn. -/
theorem witness_StepGivesTheHostItsTurn :
    (fresh.inflight = none ∧ fresh.host = []) ∧ { fresh with host := [.pause] }.host = .pause :: []
      ∧ (fresh.accept 0x60 1).inflight = some { word := 0x60, latency := 0 + 1 } ∧ (fresh.accept 0x60 1).host = []
      ∧ { fresh.accept 0x60 1 with host := [.poll, .pause] }.host = .poll :: [.pause] := by decide

theorem witness_CmdWriteStartsACommand : fresh.inflight = none ∧ packed.inflight = none := by decide +kernel

theorem witness_StartedCommandCompletes :
    (fresh.accept 0x60 0).inflight = some { word := 0x60, latency := 0 }
      ∧ { fresh.accept 0x60 3 with host := [.poll, .awaitIrq, .pause] }.inflight = some { word := 0x60, latency := 3 }
      ∧ ∀ op ∈ [HostOp.poll, .awaitIrq, .pause], op = .poll ∨ op = .awaitIrq ∨ op = .pause := by decide

theorem witness_CommandsNeverWriteTheHostsInputs : ∀ i, exec i (load aaabbc fresh) = .next (after i (load aaabbc fresh)) :=
  fun i => exec_after i _

theorem witness_OnlyBuildAndClearWriteTheTree :
    Instr.unpack ≠ .build ∧ Instr.unpack ≠ .clear ∧ Instr.unpack ≠ .compress ∧ Instr.unpack ≠ .decompress
      ∧ exec .unpack built = .next (after .unpack built) ∧ HostOp.writeReg .word 0x400 1 ≠ .reset
      ∧ ∃ t, hostAccess (.writeReg .word 0x400 1) built = .next t :=
  ⟨by decide, by decide, by decide, by decide, exec_after _ _, by decide, _, rfl⟩

/-- The three clauses of AnalyzeCountsTheInput: IN_LEN is IBUF_SIZE + 1, 0, 1 and IBUF_SIZE. -/
theorem witness_AnalyzeCountsTheInput :
    fresh.params.ibufSize < { fresh with inLen := 65 }.inLen.toNat ∧ fresh.inLen = 0
      ∧ (1 ≤ { fresh with inLen := 1 }.inLen.toNat ∧ { fresh with inLen := 1 }.inLen.toNat ≤ fresh.params.ibufSize)
      ∧ { fresh with inLen := 64 }.inLen.toNat ≤ fresh.params.ibufSize := by decide

/-- One symbol with the greatest count the container format holds, under FAULT. -/
def full : State := counts [(0xFF, 255)] (freshOf (sized .fault 64 64))

/-- 31 symbols, one of them with a count of 256, the others 1. -/
def thirtyOne (policy : CountPolicy) : State :=
  { freshOf (sized policy 64 68) with freq := Table.tabulate fun b => if b = 1 then 256 else if b.toNat < 31 then 1 else 0 }

theorem thirtyOne_count (policy : CountPolicy) : presentCount (thirtyOne policy).freq = 31 := by
  rw [← popcountPresent_eq]
  cases policy <;> decide +kernel

theorem thirtyOne_least (policy : CountPolicy) (c : Byte) (h : c.toNat < (1 : Byte).toNat) :
    ((thirtyOne policy).freq.entry c).toNat ≤ 255 := by
  obtain rfl : c = 0 := BitVec.eq_of_toNat_eq (by simpa using h)
  simp [thirtyOne]

/-- The four clauses of NormAppliesTheCapacityLimits: 32 symbols; 31 of them under FAULT with a count of 256; counts of 255; SATURATE. -/
theorem witness_NormAppliesTheCapacityLimits :
    presentCount thirtyTwo.freq = 32
      ∧ (presentCount (thirtyOne .fault).freq = 31 ∧ (thirtyOne .fault).params.policy = .fault
        ∧ ((thirtyOne .fault).freq.entry 1).toNat = 256
        ∧ ∀ c : Byte, c.toNat < (1 : Byte).toNat → ((thirtyOne .fault).freq.entry c).toNat ≤ 255)
      ∧ (presentCount full.freq = 1 ∧ full.params.policy = .fault ∧ ∀ b, (full.freq.entry b).toNat ≤ 255)
      ∧ (presentCount (thirtyOne .saturate).freq = 31 ∧ (thirtyOne .saturate).params.policy = .saturate) :=
  ⟨by rw [← popcountPresent_eq]; decide +kernel, ⟨thirtyOne_count _, rfl, by decide +kernel, thirtyOne_least _⟩,
    ⟨by rw [← popcountPresent_eq]; decide +kernel, rfl, firstOver_eq_none.mp (by decide +kernel)⟩, thirtyOne_count _, rfl⟩

/-- 31 symbols: the header of 68 bytes just fits. -/
theorem witness_NormMakesTheHeaderWritable :
    let t := after .norm (thirtyOne .saturate)
    (thirtyOne .saturate).errcode = 0 ∧ exec .norm (thirtyOne .saturate) = .next t ∧ t.errcode = 0
      ∧ 6 + 2 * presentCount t.freq = t.params.obufSize :=
  ⟨rfl, exec_after _ _, by decide +kernel, by rw [← headerLength_eq]; decide +kernel⟩

/-- Both clauses of BuildCompletesWithRootAndCount: no symbol; one; all 256. -/
theorem witness_BuildCompletesWithRootAndCount :
    presentCount fresh.freq = 0 ∧ presentCount single.freq = 1
      ∧ presentCount { fresh with freq := Table.tabulate fun _ => 1 }.freq = 256 := by
  simp only [← popcountPresent_eq]
  decide +kernel

theorem build_valid {s : State} (ht : s.treeV = false) (hc : s.codeV = false) : (after .build s).ValidityOk :=
  complete_validity (r := build s) (build_validity (validityOk_of_clear ht hc))

/-- Loading an input, and the registers UNPACK and PACK read, touch nothing the validity flags claim. -/
theorem load_valid {s : State} (h : s.ValidityOk) (xs : List Byte) (i o n : Word) (p : BitVec 3) :
    { load xs s with inOff := i, outOff := o, origSize := n, pad := p }.ValidityOk := h

theorem gencode_load (s : State) (xs : List Byte) (i o n : Word) (p : BitVec 3) :
    exec .gencode { load xs s with inOff := i, outOff := o, origSize := n, pad := p }
      = .next { load xs (after .gencode s) with inOff := i, outOff := o, origSize := n, pad := p } := by
  cases h : s.treeV <;> simp [exec_eq, commandRun, gencode, after, load, h, Run.complete, State.succeed, State.failCommand]

theorem gencode_tree (s : State) : (after .gencode s).node = s.node ∧ (after .gencode s).root = s.root := by
  cases h : s.treeV <;> simp [commandRun, gencode, after, h, Run.complete, State.succeed, State.failCommand]

theorem built_count : presentCount built.freq = 3 := by
  rw [← popcountPresent_eq]
  decide +kernel

theorem built_valid : built.ValidityOk := build_valid rfl rfl

theorem coded_valid : coded.ValidityOk := complete_validity (r := gencode built) (gencode_validity built_valid)

theorem single_valid : single.ValidityOk := build_valid rfl rfl

/-- One symbol, and three: for the statements about the tree BUILD leaves. -/
theorem witness_BuildPutsLeavesFirstInSymbolOrder :
    1 ≤ presentCount single.freq ∧ exec .build single = .next (after .build single) ∧ 1 ≤ presentCount built.freq
      ∧ exec .build built = .next (after .build built) ∧ 1 ≤ (built.freq.entry 0x63).toNat :=
  ⟨by rw [← popcountPresent_eq]; decide +kernel, exec_after _ _, by rw [built_count]; decide, exec_after _ _, by decide +kernel⟩

/-- The first merge of V-B1, entry 3, in which a (index 0) is unmerged and no child: for this statement and the next. -/
theorem witness_BuildMakesATree :
    let s := counts [(0x61, 3), (0x62, 2), (0x63, 1)] fresh
    exec .build s = .next built ∧ 1 ≤ presentCount s.freq ∧ 3 < built.nnodes.toNat ∧ (built.entryAt 3).leaf = false
      ∧ (built.entryAt 2).leaf = true ∧ 2 ≠ built.root.toNat ∧ presentCount s.freq ≤ 3 :=
  ⟨exec_after _ _, by rw [← popcountPresent_eq]; decide +kernel, by decide +kernel, by decide +kernel, by decide +kernel,
    by decide +kernel, by rw [← popcountPresent_eq]; decide +kernel⟩

theorem witness_BuildMergesTheTwoLeastKeys :
    built.UnmergedAt 3 0 ∧ 0 ≠ (built.entryAt 3).left.toNat ∧ 0 ≠ (built.entryAt 3).right.toNat :=
  ⟨⟨by decide, by decide +kernel⟩, by decide +kernel, by decide +kernel⟩

/-- Both clauses of GencodeWritesOnlyTheCodeTable, and the single leaf. -/
theorem witness_GencodeWritesOnlyTheCodeTable :
    fresh.treeV = false ∧ built.treeV = true ∧ single.treeV = true
      ∧ single.node[single.root.toNat]? = some { leaf := true, sym := 0x78, nfreq := 1, left := 0, right := 0 } := by decide +kernel

/-- V-B6, two leaves. -/
def pair : State := after .build (counts [(0x61, 2), (0x62, 1)] fresh)

theorem pair_valid : pair.ValidityOk := build_valid rfl rfl

theorem pair_count : presentCount pair.freq = 2 := by
  rw [← popcountPresent_eq]
  decide +kernel

theorem witness_CodesAreRootToLeafPaths :
    pair.ValidityOk ∧ pair.treeV = true ∧ presentCount pair.freq = 2 ∧ exec .gencode pair = .next (after .gencode pair)
      ∧ 1 ≤ (pair.freq.entry 0x62).toNat :=
  ⟨pair_valid, by decide +kernel, pair_count, exec_after _ _, by decide +kernel⟩

theorem witness_ExactlyPresentSymbolsHaveCodes :
    single.ValidityOk ∧ single.treeV = true ∧ exec .gencode single = .next (after .gencode single)
      ∧ built.ValidityOk ∧ built.treeV = true ∧ exec .gencode built = .next coded :=
  ⟨single_valid, by decide +kernel, exec_after _ _, built_valid, by decide +kernel, exec_after _ _⟩

theorem witness_CodesArePrefixFree :
    built.ValidityOk ∧ built.treeV = true ∧ exec .gencode built = .next coded ∧ (0x62 : Byte) ≠ 0x63
      ∧ 1 ≤ (coded.codeLen.entry 0x62).toNat ∧ 1 ≤ (coded.codeLen.entry 0x63).toNat :=
  ⟨built_valid, by decide +kernel, exec_after _ _, by decide, by decide +kernel, by decide +kernel⟩

/-- For CodeLengthsAreBounded and CodeIsComplete: two leaves, and three. -/
theorem witness_CodeIsComplete :
    pair.ValidityOk ∧ pair.treeV = true ∧ presentCount pair.freq = 2 ∧ exec .gencode pair = .next (after .gencode pair)
      ∧ built.ValidityOk ∧ presentCount built.freq = 3 :=
  ⟨pair_valid, by decide +kernel, pair_count, exec_after _ _, built_valid, built_count⟩

theorem witness_CodeLengthsAreBounded :
    pair.ValidityOk ∧ pair.treeV = true ∧ presentCount pair.freq = 2 ∧ exec .gencode pair = .next (after .gencode pair) :=
  ⟨pair_valid, by decide +kernel, pair_count, exec_after _ _⟩

/-- A PACK whose payload ends exactly at OBUF_SIZE = 14, and one of no byte. -/
theorem witness_PackWritesTheCodesMsbFirst :
    let s := { load aaabbc coded with outOff := 12, params := sized .saturate 6 14 }
    let stream := (List.range s.inLen.toNat).flatMap fun i => s.code.entry (s.byteAt .ibuf i)
    s.codeV = true ∧ s.inLen.toNat = s.params.ibufSize ∧ (∀ i < s.inLen.toNat, s.codeLen.entry (s.byteAt .ibuf i) ≠ 0)
      ∧ s.outOff.toNat + (stream.length + 7) / 8 = s.params.obufSize
      ∧ { coded with inLen := 0, outOff := 64 }.outOff.toNat + 0 = coded.params.obufSize := by decide +kernel

/-- The four clauses of PackReportsItsFirstFailure: no codes; IN_LEN = IBUF_SIZE + 1; the last byte, and the first, without a code; a
payload of two bytes with one byte of OBUF left, and an empty payload at OUT_OFF = OBUF_SIZE + 1. -/
theorem witness_PackReportsItsFirstFailure :
    fresh.codeV = false ∧ (coded.codeV = true ∧ coded.params.ibufSize < { coded with inLen := 65 }.inLen.toNat)
      ∧ (let s := load [0x61, 0x62, 0x64] coded
        s.codeV = true ∧ s.inLen.toNat ≤ s.params.ibufSize ∧ 2 < s.inLen.toNat ∧ s.codeLen.entry (s.byteAt .ibuf 2) = 0
          ∧ ∀ j < 2, s.codeLen.entry (s.byteAt .ibuf j) ≠ 0)
      ∧ (load [0x64] coded).codeLen.entry ((load [0x64] coded).byteAt .ibuf 0) = 0
      ∧ (let s := { load aaabbc coded with outOff := 12, params := sized .saturate 6 13 }
        let stream := (List.range (min s.inLen.toNat s.params.ibufSize)).flatMap fun i => s.code.entry (s.byteAt .ibuf i)
        s.codeV = true ∧ s.inLen.toNat ≤ s.params.ibufSize ∧ (∀ i < s.inLen.toNat, s.codeLen.entry (s.byteAt .ibuf i) ≠ 0)
          ∧ s.params.obufSize < s.outOff.toNat + (stream.length + 7) / 8)
      ∧ (let s := { coded with inLen := 0, outOff := 65 }
        s.codeV = true ∧ s.inLen.toNat ≤ s.params.ibufSize ∧ (∀ i < s.inLen.toNat, s.codeLen.entry (s.byteAt .ibuf i) ≠ 0)
          ∧ s.params.obufSize + 1 = s.outOff.toNat) := by decide +kernel

/-- A single leaf, OBUF filled to its end, IN_LEN = IBUF_SIZE. -/
theorem witness_UnpackRepeatsASingleLeaf :
    let s := { single with inLen := 64, origSize := 64, inOff := 100, pad := 5 }
    let n : Node := { leaf := true, sym := 0x78, nfreq := 1, left := 0, right := 0 }
    s.treeV = true ∧ s.inLen.toNat = s.params.ibufSize ∧ s.origSize.toNat = s.params.obufSize
      ∧ s.node[s.root.toNat]? = some n ∧ n.leaf = true := by decide +kernel

/-- V-U1's payload, and V-U11's with nothing to decode from no payload byte. -/
theorem witness_UnpackDecodesTheCodes :
    let s := { load [0x1F, 0x00] built with inOff := 0, outOff := 0, origSize := 6, pad := 7 }
    let g := { load [0x1F, 0x00] coded with inOff := 0, outOff := 0, origSize := 6, pad := 7 }
    s.ValidityOk ∧ s.treeV = true ∧ presentCount s.freq = 3 ∧ exec .gencode s = .next g
      ∧ (s.inLen.toNat ≤ s.params.ibufSize
        ∧ s.origSize.toNat ≤ s.params.obufSize ∧ s.inOff.toNat ≤ s.inLen.toNat ∧ (s.inOff.toNat = s.inLen.toNat → s.pad = 0)
        ∧ aaabbc.length = s.origSize.toNat ∧ (∀ x ∈ aaabbc, 1 ≤ (s.freq.entry x).toNat)
        ∧ ((List.range (8 * (s.inLen.toNat - s.inOff.toNat) - s.pad.toNat)).map fun k =>
          (s.byteAt .ibuf (s.inOff.toNat + k / 8)).getLsbD (7 - k % 8))
            = (aaabbc.flatMap fun x => g.code.entry x) ++ []) :=
  ⟨load_valid built_valid _ _ _ _ _, by decide +kernel, built_count, gencode_load _ _ _ _ _ _, by decide +kernel⟩

theorem witness_UnpackDecodesTheCodes_empty :
    let s := { built with inOff := 3, inLen := 3 }
    s.inOff.toNat = s.inLen.toNat ∧ s.pad = 0 ∧ ([] : List Byte).length = s.origSize.toNat
      ∧ ((List.range (8 * (s.inLen.toNat - s.inOff.toNat) - s.pad.toNat)).map fun k =>
        (s.byteAt .ibuf (s.inOff.toNat + k / 8)).getLsbD (7 - k % 8)) = [] := by decide +kernel

/-- V-U9: six symbols, then no bit is left; no code is a prefix of no bits. -/
theorem witness_UnpackReportsAShortfall :
    let s := { load [0x1F, 0x00] built with inOff := 0, outOff := 0, origSize := 7, pad := 7 }
    let g := { load [0x1F, 0x00] coded with inOff := 0, outOff := 0, origSize := 7, pad := 7 }
    s.ValidityOk ∧ s.treeV = true ∧ presentCount s.freq = 3 ∧ exec .gencode s = .next g
      ∧ (s.inLen.toNat ≤ s.params.ibufSize
        ∧ s.origSize.toNat ≤ s.params.obufSize ∧ s.inOff.toNat ≤ s.inLen.toNat ∧ (s.inOff.toNat = s.inLen.toNat → s.pad = 0)
        ∧ aaabbc.length < s.origSize.toNat ∧ (∀ x ∈ aaabbc, 1 ≤ (s.freq.entry x).toNat)
        ∧ ((List.range (8 * (s.inLen.toNat - s.inOff.toNat) - s.pad.toNat)).map fun k =>
          (s.byteAt .ibuf (s.inOff.toNat + k / 8)).getLsbD (7 - k % 8))
            = (aaabbc.flatMap fun x => g.code.entry x) ++ [])
      ∧ ∀ x, 1 ≤ (s.freq.entry x).toNat → ¬ g.code.entry x <+: [] := by
  refine ⟨load_valid built_valid _ _ _ _ _, by decide +kernel, built_count, gencode_load _ _ _ _ _ _, by decide +kernel,
    fun x hx => ?_⟩
  have hp : ∀ y ∈ present built.freq, ¬ coded.code.entry y <+: [] := by decide +kernel
  dsimp only [load] at hx ⊢
  exact hp x (mem_present.mpr hx)

/-- The root of V-B1's tree. -/
def rootB1 : Node := { leaf := false, sym := 0, nfreq := 6, left := 0, right := 3 }

/-- The four clauses of UnpackReportsItsFirstFailure: no tree; IN_LEN = IBUF_SIZE + 1; ORIG_SIZE = OBUF_SIZE + 1; IN_OFF one beyond
IN_LEN, and equal to it with PAD ≠ 0. -/
theorem witness_UnpackReportsItsFirstFailure :
    fresh.treeV = false ∧ (built.treeV = true ∧ built.params.ibufSize < { built with inLen := 65 }.inLen.toNat)
      ∧ ({ built with inLen := 64 }.inLen.toNat ≤ built.params.ibufSize
        ∧ built.params.obufSize < { built with origSize := 65 }.origSize.toNat)
      ∧ (built.node[built.root.toNat]? = some rootB1 ∧ rootB1.leaf = false
        ∧ { built with inLen := 14 }.inLen.toNat < { built with inOff := 15 }.inOff.toNat
        ∧ (let s := { built with inLen := 14, inOff := 14, pad := 1, origSize := 64 }
          s.inLen.toNat = s.inOff.toNat ∧ s.pad ≠ 0 ∧ s.origSize.toNat ≤ s.params.obufSize)) := by decide +kernel

/-- Both clauses of UnpackNeedsABitPerSymbol: V-U4 succeeds with 16 bits for 13 symbols; 16 bits are one too few for 17. -/
theorem witness_UnpackNeedsABitPerSymbol :
    let s := { load [0x1F, 0x00] built with origSize := 13 }
    let u := { load [0x1F, 0x00] built with origSize := 17 }
    s.treeV = true ∧ s.node[s.root.toNat]? = some rootB1 ∧ rootB1.leaf = false ∧ s.errcode = 0 ∧ (after .unpack s).errcode = 0
      ∧ u.inLen.toNat ≤ u.params.ibufSize ∧ u.origSize.toNat ≤ u.params.obufSize
      ∧ 8 * (u.inLen.toNat - u.inOff.toNat) - u.pad.toNat < u.origSize.toNat := by decide +kernel

/-- A header that just fits, of three symbols, of none, and of 31. -/
theorem witness_WrhdrWritesTheHeader :
    (presentCount built.freq = 3 ∧ (∀ b, (built.freq.entry b).toNat ≤ 255) ∧ 6 + 2 * 3 = (sized .saturate 64 12).obufSize)
      ∧ (presentCount fresh.freq = 0 ∧ (∀ b, (fresh.freq.entry b).toNat ≤ 255) ∧ 6 + 2 * 0 = (sized .saturate 64 6).obufSize)
      ∧ (presentCount (thirtyOne .saturate).freq = 31 ∧ 6 + 2 * 31 = (thirtyOne .saturate).params.obufSize) :=
  ⟨⟨built_count, firstOver_eq_none.mp (by decide +kernel), by decide⟩,
    ⟨by rw [← popcountPresent_eq]; decide +kernel, firstOver_eq_none.mp (by decide +kernel), by decide⟩, thirtyOne_count _, by decide⟩

/-- The three clauses of WrhdrReportsItsFirstFailure: 32 symbols; 31 with a count of 256; one byte of OBUF too few. -/
theorem witness_WrhdrReportsItsFirstFailure :
    presentCount thirtyTwo.freq = 32
      ∧ (presentCount (thirtyOne .saturate).freq = 31 ∧ ((thirtyOne .saturate).freq.entry 1).toNat = 256
        ∧ ∀ c : Byte, c.toNat < (1 : Byte).toNat → ((thirtyOne .saturate).freq.entry c).toNat ≤ 255)
      ∧ (presentCount built.freq = 3 ∧ (∀ b, (built.freq.entry b).toNat ≤ 255) ∧ (sized .saturate 64 11).obufSize < 6 + 2 * 3) :=
  ⟨by rw [← popcountPresent_eq]; decide +kernel, ⟨thirtyOne_count _, by decide +kernel, thirtyOne_least _⟩,
    built_count, firstOver_eq_none.mp (by decide +kernel), by decide⟩

/-- A header with nothing behind it, in an IBUF it fills, and one with no entry (V-R11). -/
theorem witness_RdhdrReadsTheHeader :
    (let s := { load (fileC1.take 12) fresh with params := sized .saturate 12 64 }
      let size := (s.byteAt .ibuf 5).toNat % 32
      s.inLen.toNat = s.params.ibufSize ∧ s.byteAt .ibuf 0 = s.params.magic ∧ 6 + 2 * size = s.inLen.toNat
        ∧ (∀ j < size, s.byteAt .ibuf (7 + 2 * j) ≠ 0)
        ∧ (∀ j < size, ∀ k < j, s.byteAt .ibuf (6 + 2 * k) ≠ s.byteAt .ibuf (6 + 2 * j)))
      ∧ (let s := load [0x4D, 0, 0, 0, 6, 0] fresh
        s.byteAt .ibuf 0 = s.params.magic ∧ 6 + 2 * ((s.byteAt .ibuf 5).toNat % 32) = s.inLen.toNat) := by decide +kernel

/-- The five clauses of RdhdrChecksLengthAndMagicInOrder: IN_LEN = IBUF_SIZE + 1; 0 bytes; one byte, the wrong magic; five bytes; one
byte too few for the table. -/
theorem witness_RdhdrChecksLengthAndMagicInOrder :
    fresh.params.ibufSize < { fresh with inLen := 65 }.inLen.toNat ∧ fresh.inLen = 0
      ∧ (let s := load [0x4E] fresh
        1 ≤ s.inLen.toNat ∧ s.inLen.toNat ≤ s.params.ibufSize ∧ s.byteAt .ibuf 0 ≠ s.params.magic)
      ∧ (let s := load [0x4D, 0, 0, 0, 6] fresh
        s.inLen.toNat ≤ s.params.ibufSize ∧ s.byteAt .ibuf 0 = s.params.magic ∧ s.inLen.toNat < 6)
      ∧ (let s := load (fileC1.take 11) fresh
        6 ≤ s.inLen.toNat ∧ s.inLen.toNat ≤ s.params.ibufSize ∧ s.byteAt .ibuf 0 = s.params.magic
          ∧ s.inLen.toNat < 6 + 2 * ((s.byteAt .ibuf 5).toNat % 32)) := by decide +kernel

/-- Both clauses of RdhdrReportsItsFirstBadEntry: a zero count in the last entry; a symbol repeated in it (V-R10). -/
theorem witness_RdhdrReportsItsFirstBadEntry :
    (let s := load [0x4D, 0, 0, 0, 6, 0xE3, 0x61, 3, 0x62, 2, 0x61, 0] fresh
      let size := (s.byteAt .ibuf 5).toNat % 32
      s.inLen.toNat ≤ s.params.ibufSize ∧ s.byteAt .ibuf 0 = s.params.magic ∧ 6 + 2 * size ≤ s.inLen.toNat ∧ 2 < size
        ∧ (∀ i < 2, s.byteAt .ibuf (7 + 2 * i) ≠ 0 ∧ ¬ ∃ k < i, s.byteAt .ibuf (6 + 2 * k) = s.byteAt .ibuf (6 + 2 * i))
        ∧ s.byteAt .ibuf (7 + 2 * 2) = 0)
      ∧ (let s := load [0x4D, 0, 0, 0, 6, 0xE3, 0x61, 3, 0x62, 2, 0x61, 1] fresh
        (∀ i < 2, s.byteAt .ibuf (7 + 2 * i) ≠ 0 ∧ ¬ ∃ k < i, s.byteAt .ibuf (6 + 2 * k) = s.byteAt .ibuf (6 + 2 * i))
          ∧ s.byteAt .ibuf (7 + 2 * 2) ≠ 0 ∧ ∃ k < 2, s.byteAt .ibuf (6 + 2 * k) = s.byteAt .ibuf (6 + 2 * 2)) := by
  decide +kernel

theorem witness_RdhdrInvertsWrhdr :
    let s := { built with origSize := 6, pad := 7 }
    let t := after .wrhdr s
    let u := load (fileC1.take 12) fresh
    exec .wrhdr s = .next t ∧ presentCount s.freq = 3
      ∧ (s.errcode = 0 ∧ t.errcode = 0 ∧ u.params.magic = s.params.magic ∧ u.inLen.toNat ≤ u.params.ibufSize
        ∧ 6 + 2 * 3 ≤ u.inLen.toNat ∧ ∀ a < 6 + 2 * 3, u.byteAt .ibuf a = t.byteAt .obuf a) :=
  ⟨exec_after _ _, built_count, by decide +kernel⟩

/-- The sub-steps of COMPRESS on "aaabbc", and one run of each branch that fails: no input; 32 different bytes; OBUF one byte short. -/
theorem witness_CompressRunsItsSteps :
    let a := after .analyze (load aaabbc fresh)
    let b := after .norm a
    let c := after .build b
    let d := after .gencode c
    let e := after .pack { d with outOff := BitVec.ofNat 32 (6 + 2 * 3) }
    presentCount d.freq = 3
      ∧ (fresh.errcode = 0 ∧ a.errcode = 0 ∧ b.errcode = 0 ∧ c.errcode = 0 ∧ d.errcode = 0 ∧ e.errcode = 0)
      ∧ (after .analyze fresh).errcode ≠ 0
      ∧ (after .norm (after .analyze (load ((List.range 32).map fun k => BitVec.ofNat 8 k) fresh))).errcode ≠ 0
      ∧ (after .pack { d with outOff := 12, params := sized .saturate 64 13 }).errcode ≠ 0 := by
  simp only [← popcountPresent_eq]
  decide +kernel

/-- OBUF of exactly 68 + 4·IN_LEN bytes, for one byte and for six, under FAULT. -/
theorem witness_CompressSucceedsWithinCapacity :
    let s := load aaabbc (freshOf (sized .fault 6 92))
    let u := load [0x00] (freshOf (sized .fault 1 72))
    (s.errcode = 0 ∧ 1 ≤ s.inLen.toNat ∧ s.inLen.toNat = s.params.ibufSize ∧ s.inputDistinct = 3
        ∧ (s.params.policy = .fault ∧ ∀ b, s.inputCount b ≤ 255) ∧ 68 + 4 * s.inLen.toNat = s.params.obufSize)
      ∧ (u.inLen.toNat = 1 ∧ u.inputDistinct ≤ 31 ∧ (∀ b, u.inputCount b ≤ 255) ∧ 68 + 4 * u.inLen.toNat = u.params.obufSize) := by
  decide +kernel

/-- Two states that agree on the input and differ elsewhere. -/
theorem witness_CompressDependsOnItsInputOnly :
    let s := load aaabbc fresh
    let s' := load aaabbc { packed with params := sized .saturate 6 14, sel := 3 }
    (exec .compress s = .next (after .compress s) ∧ exec .compress s' = .next (after .compress s'))
      ∧ (s.inLen = s'.inLen ∧ (∀ i < s.inLen.toNat, s.byteAt .ibuf i = s'.byteAt .ibuf i)
        ∧ s.params.magic = s'.params.magic ∧ s.params.policy = s'.params.policy ∧ s.errcode = 0 ∧ s'.errcode = 0
        ∧ (after .compress s).errcode = 0 ∧ (after .compress s').errcode = 0) :=
  ⟨⟨exec_after _ _, exec_after _ _⟩, by decide +kernel⟩

/-- The sub-steps of DECOMPRESS on the file of V-C1, and one run of each branch that fails (V-D6, V-D7). -/
theorem witness_DecompressRunsItsSteps :
    let a := after .rdhdr (load fileC1 fresh)
    (a.errcode = 0 ∧ (after .build a).errcode = 0 ∧ fresh.errcode = 0) ∧ (after .rdhdr fresh).errcode ≠ 0
      ∧ (after .build (after .rdhdr (load [0x4D, 0, 0, 0, 6, 0] fresh))).errcode ≠ 0 := by decide +kernel

/-- V-D12, in buffers it just fits. -/
theorem witness_DecompressRepeatsASingleSymbol :
    let s := load [0x4D, 0, 0, 0, 5, 1, 0x78, 5] (freshOf (sized .saturate 8 5))
    let size := (s.byteAt .ibuf 1).toNat * 2 ^ 24 + (s.byteAt .ibuf 2).toNat * 2 ^ 16 + (s.byteAt .ibuf 3).toNat * 2 ^ 8
      + (s.byteAt .ibuf 4).toNat
    8 ≤ s.inLen.toNat ∧ s.inLen.toNat = s.params.ibufSize ∧ s.byteAt .ibuf 0 = s.params.magic
      ∧ (s.byteAt .ibuf 5).toNat % 32 = 1 ∧ s.byteAt .ibuf 7 ≠ 0 ∧ size = s.params.obufSize := by decide +kernel

theorem witness_UnpackInvertsPack :
    let s := { load aaabbc coded with inOff := 0, outOff := 12, origSize := 0, pad := 0 }
    let u := { load [0xFF, 0x1F, 0x00] built with inOff := 1, outOff := 0, origSize := 6, pad := 7 }
    let packed := after .pack s
    s.ValidityOk ∧ exec .pack s = .next packed ∧ u.node = s.node ∧ u.root = s.root
      ∧ (s.codeV = true ∧ s.errcode = 0 ∧ packed.errcode = 0 ∧ u.treeV = true
        ∧ u.inLen.toNat ≤ u.params.ibufSize ∧ u.inLen.toNat = u.inOff.toNat + (packed.outLen.toNat - s.outOff.toNat)
        ∧ (∀ k < packed.outLen.toNat - s.outOff.toNat,
          u.byteAt .ibuf (u.inOff.toNat + k) = packed.byteAt .obuf (s.outOff.toNat + k))
        ∧ u.origSize = s.inLen ∧ u.pad = packed.pad ∧ s.inLen.toNat ≤ u.params.obufSize
        ∧ (s.entryAt s.root.toNat).leaf = false) :=
  ⟨load_valid coded_valid _ _ _ _ _, exec_after _ _, by dsimp only [load]; exact (gencode_tree built).1.symm,
    by dsimp only [load]; exact (gencode_tree built).2.symm, by decide +kernel⟩

theorem witness_DecompressInvertsCompress :
    let s := load aaabbc fresh
    let t := after .compress s
    let u := { load fileC1 fresh with params := sized .fault 14 6 }
    exec .compress s = .next t
      ∧ (s.errcode = 0 ∧ t.errcode = 0 ∧ u.params.magic = s.params.magic ∧ u.inLen = t.outLen
        ∧ t.outLen.toNat = u.params.ibufSize ∧ (∀ a < t.outLen.toNat, u.byteAt .ibuf a = t.byteAt .obuf a)
        ∧ s.inLen.toNat = u.params.obufSize) :=
  ⟨exec_after _ _, by decide +kernel⟩

/-- The four clauses of WindowsShowTheSelectedEntries: SEL 255, 256, NNODES − 1 and NNODES. -/
theorem witness_WindowsShowTheSelectedEntries :
    { coded with sel := 255 }.sel.toNat ≤ 255 ∧ 256 ≤ { coded with sel := 256 }.sel.toNat
      ∧ (let s := { coded with sel := 4 }
        s.node[s.sel.toNat]? = some rootB1 ∧ s.sel.toNat < s.nnodes.toNat)
      ∧ coded.nnodes.toNat ≤ { coded with sel := 5 }.sel.toNat := by decide +kernel

/-- The range of reserved offsets in RegistersReadTheirFields. -/
theorem witness_RegistersReadTheirFields :
    (0x078 ≤ (0x3FC : BitVec 12).toNat ∧ (0x3FC : BitVec 12).toNat < 0x400) ∧ 0x800 ≤ (0x800 : BitVec 12).toNat
      ∧ 0x800 ≤ (0xFFC : BitVec 12).toNat := by decide

theorem witness_FreqWindowWritesInvalidateTheTree : coded.inflight = none ∧ (0x62 : Byte) ≠ 0x61 := by decide +kernel

/-- Read-only and reserved offsets, at the ends of both ranges. -/
theorem witness_RegisterWritesHaveNoOtherEffect :
    fresh.inflight = none ∧ ∀ off ∈ [0x00C, 0x01C, 0x03C, 0x044, 0x3FC, 0x800, 0xFFC],
      (BitVec.ofNat 12 off).toNat = off ∧ off % 4 = 0 ∧ (off < 0x400 ∨ 0x800 ≤ off)
        ∧ off ∉ [0x000, 0x004, 0x008, 0x010, 0x014, 0x018, 0x020, 0x024, 0x040] := by
  decide

theorem witness_BusyRegisterWritesOnlySetOvr :
    (fresh.accept 0x60 0).busy = true ∧ (0x000 : BitVec 12).toNat % 4 = 0 ∧ (0xFFC : BitVec 12).toNat % 4 = 0
      ∧ (0xFFC : BitVec 12) ≠ 0x004 := by decide

/-- A read while idle, and one while busy of STATUS, of IN_LEN and of the reserved offsets at the ends of their ranges; a buffer read
in both. -/
theorem witness_ReadsHaveNoSideEffect :
    (∃ t, hostAccess (.readReg .word 0x010) fresh = .next t) ∧ fresh.busy = false
      ∧ (∃ t, hostAccess (.readReg .word 0x004) (fresh.accept 0x60 0) = .next t)
      ∧ (∃ t, hostAccess (.readReg .word 0x010) (fresh.accept 0x60 0) = .next t)
      ∧ (∀ off ∈ [(0x03C : BitVec 12), 0x078, 0x3FC, 0x800, 0xFFC],
          (off = 0x03C ∨ 0x078 ≤ off.toNat ∧ off.toNat < 0x400 ∨ 0x800 ≤ off.toNat)
            ∧ registerFault .word off = none
            ∧ ∃ t, hostAccess (.readReg .word off) (fresh.accept 0x60 0) = .next t)
      ∧ (∃ t, hostAccess (.readByte .obuf 63) fresh = .next t)
      ∧ ∃ t, hostAccess (.readByte .ibuf 0) (fresh.accept 0x60 0) = .next t :=
  ⟨⟨_, rfl⟩, rfl, ⟨_, rfl⟩, ⟨_, rfl⟩,
    fun off h => ⟨by revert off; decide, by revert off; decide,
      hostReadReg (fresh.accept 0x60 0) (regAt off), by
        have hf : registerFault .word off = none := by revert off; decide
        simp [hostAccess, hf]⟩,
    ⟨_, rfl⟩, ⟨_, rfl⟩⟩

/-- The clauses of HostFaultsStopTheRun, each buffer at its size, in an idle state and in a busy one. -/
theorem witness_HostFaultsStopTheRun :
    (0x011 : BitVec 12).toNat % 4 ≠ 0 ∧ ({ bits := 31 } : AccessWidth) ≠ .word ∧ ({ bits := 33 } : AccessWidth) ≠ .word
      ∧ fresh.busy = false ∧ fresh.params.ibufSize = (64 : Word).toNat ∧ fresh.params.obufSize = (64 : Word).toNat
      ∧ (let s := fresh.accept 0x60 0
        s.busy = true ∧ s.params.ibufSize = (64 : Word).toNat ∧ s.params.obufSize = (64 : Word).toNat) := by decide

theorem witness_HostByteWritesOneByte :
    packed.inflight = none ∧ (63 : Word).toNat < bufferSize packed.params .ibuf ∧ (0 : Word).toNat < bufferSize packed.params .obuf
      ∧ Buffer.ibuf ≠ .obuf := by decide +kernel

/-- The clauses of InterruptFollowsDoneAndEnable. -/
theorem witness_InterruptFollowsDoneAndEnable :
    exec .nop fresh = .next (after .nop fresh) ∧ fresh.inflight = none
      ∧ (∃ t, hostAccess (.writeReg .word 0x000 0x60) fresh = .next t)
      ∧ (∃ t, hostAccess (.writeReg .word 0x004 0x2) fresh = .next t) ∧ (0x2 : Word).getLsbD 1 = true
      ∧ (∃ t, hostAccess (.writeReg .word 0x008 0x0) fresh = .next t) ∧ (0x0 : Word).getLsbD 0 = false :=
  ⟨exec_after _ _, rfl, ⟨_, rfl⟩, ⟨_, rfl⟩, by decide, ⟨_, rfl⟩, by decide⟩

theorem witness_ResetLeavesTheResetValues : ∃ t, hostAccess .reset packed = .next t := ⟨_, rfl⟩

/-- A state with codes, its input written, and COMPRESS about to complete: it meets every invariant and steps. -/
def aboutToCompress : State := (load aaabbc coded).accept 0x00000060 0

theorem aboutToCompress_steps : step aboutToCompress = .next (after .compress aboutToCompress) := rfl

theorem witness_StepKeepsTheBuffers :
    aboutToCompress.BuffersOk ∧ step aboutToCompress = .next (after .compress aboutToCompress) :=
  ⟨by decide +kernel, aboutToCompress_steps⟩

theorem witness_StepKeepsTheProtocol :
    aboutToCompress.ProtocolOk ∧ step aboutToCompress = .next (after .compress aboutToCompress) :=
  ⟨by decide +kernel, aboutToCompress_steps⟩

theorem accept_valid {s : State} (h : s.ValidityOk) (xs : List Byte) (w : Word) (n : Nat) : ((load xs s).accept w n).ValidityOk := h

theorem aboutToCompress_valid : aboutToCompress.ValidityOk := accept_valid coded_valid _ _ _

theorem witness_StepKeepsTheValidityFlags :
    aboutToCompress.ValidityOk ∧ aboutToCompress.codeV = true
      ∧ step aboutToCompress = .next (after .compress aboutToCompress) :=
  ⟨aboutToCompress_valid, by decide +kernel, aboutToCompress_steps⟩

/-- CLEAR about to complete: it meets every invariant and steps. -/
theorem witness_StepKeepsTheArrays :
    let s := fresh.accept 0x00000001 0
    s.ValidityOk ∧ s.ArenaTailZero ∧ s.CodeLengthsAgree ∧ step s = .next (after .clear s) :=
  ⟨validityOk_of_clear rfl rfl, fun i hi _ => by simp [fresh, State.accept, State.reset, hi], fun k _ => by
    simp [fresh, State.accept, State.reset], rfl⟩

end Sys2Proof.Machine.Tests
end

section
/-! PROOFS. The tree registers: who writes NODE, ROOT and NNODES (rule R116). -/

namespace Sys2Proof.Machine

/-- `t` holds the tree that `s` holds: NODE, ROOT and NNODES are those of `s` (rules R111, R112). -/
def State.SameTree (s t : State) : Prop := t.node = s.node ∧ t.root = s.root ∧ t.nnodes = s.nnodes

theorem State.SameTree.refl (s : State) : s.SameTree s := ⟨rfl, rfl, rfl⟩

theorem Run.complete_sameTree {s : State} {r : Run} (h : s.SameTree r.state) : s.SameTree r.complete := by
  cases r with
  | ok t => exact h
  | raised f t => exact h

/-! ### Commands -/

theorem analyze_sameTree (s : State) : s.SameTree (analyze s).state := by
  rcases analyze_cases s with ⟨f, hraised⟩ | ⟨-, -, hok⟩
  · rw [hraised]; exact .refl s
  · rw [hok]; exact ⟨rfl, rfl, rfl⟩

theorem norm_sameTree (s : State) : s.SameTree (norm s).state := by
  rcases norm_cases s with ⟨f, hraised⟩ | ⟨-, -, -, hfault⟩ | ⟨-, -, hsaturate⟩
  · rw [hraised]; exact .refl s
  · rw [hfault]; exact ⟨rfl, rfl, rfl⟩
  · rw [hsaturate]; exact ⟨rfl, rfl, rfl⟩

theorem gencode_sameTree (s : State) : s.SameTree (gencode s).state := by
  rcases gencode_cases s with ⟨-, hraised⟩ | ⟨-, hok⟩
  · rw [hraised]; exact .refl s
  · rw [hok]; exact ⟨rfl, rfl, rfl⟩

theorem pack_sameTree (s : State) : s.SameTree (pack s).state := by
  rcases pack_cases s with ⟨f, lo, hi, hraised⟩ | ⟨stream, -, -, -, -, -, hok⟩
  · rw [hraised]; exact ⟨rfl, rfl, rfl⟩
  · rw [hok]; exact ⟨rfl, rfl, rfl⟩

theorem unpack_sameTree (s : State) : s.SameTree (unpack s).state := by
  rcases unpack_cases s with ⟨f, hraised⟩ | ⟨out, consumed, -, -, -, -, hok⟩
  · rw [hraised]; exact ⟨rfl, rfl, rfl⟩
  · rw [hok]; exact ⟨rfl, rfl, rfl⟩

theorem wrhdr_sameTree (s : State) : s.SameTree (wrhdr s).state := by
  rcases wrhdr_cases s with ⟨f, hraised⟩ | ⟨-, -, -, hok⟩
  · rw [hraised]; exact ⟨rfl, rfl, rfl⟩
  · rw [hok]; exact ⟨rfl, rfl, rfl⟩

theorem rdhdr_sameTree (s : State) : s.SameTree (rdhdr s).state := by
  rcases rdhdr_cases s with ⟨f, hraised⟩ | ⟨t, -, -, -, -, hok⟩
  · rw [hraised]; exact .refl s
  · rw [hok]; exact ⟨rfl, rfl, rfl⟩

/-- A command that neither clears nor builds, itself or as a sub-step, keeps the tree (rule R116). -/
theorem commandRun_sameTree {i : Instr} (hbuild : i ≠ .build) (hclear : i ≠ .clear) (hcompress : i ≠ .compress)
    (hdecompress : i ≠ .decompress) (s : State) : s.SameTree (commandRun i s).state := by
  cases i with
  | nop => exact .refl s
  | analyze => exact analyze_sameTree s
  | norm => exact norm_sameTree s
  | gencode => exact gencode_sameTree s
  | pack => exact pack_sameTree s
  | unpack => exact unpack_sameTree s
  | wrhdr => exact wrhdr_sameTree s
  | rdhdr => exact rdhdr_sameTree s
  | build => exact absurd rfl hbuild
  | clear => exact absurd rfl hclear
  | compress => exact absurd rfl hcompress
  | decompress => exact absurd rfl hdecompress

/-! ### Host accesses -/

theorem writeReg_sameTree (s : State) (v : Word) (r : Reg) : s.SameTree (writeReg s v r) := by
  cases r <;> exact ⟨rfl, rfl, rfl⟩

theorem writeRegBusy_sameTree (s : State) (v : Word) (r : Reg) : s.SameTree (writeRegBusy s v r) := by
  cases r <;> exact ⟨rfl, rfl, rfl⟩

theorem hostWriteReg_sameTree (s : State) (r : Reg) (v : Word) : s.SameTree (hostWriteReg s r v) := by
  unfold hostWriteReg
  split
  · exact writeRegBusy_sameTree s v r
  · exact writeReg_sameTree s v r

theorem hostReadReg_sameTree (s : State) (r : Reg) : s.SameTree (hostReadReg s r) := by
  unfold hostReadReg
  split <;> exact ⟨rfl, rfl, rfl⟩

theorem hostReadByte_sameTree (s : State) (b : Buffer) (a : Nat) : s.SameTree (hostReadByte s b a) := by
  unfold hostReadByte
  split <;> exact ⟨rfl, rfl, rfl⟩

theorem hostWriteByte_sameTree (s : State) (a : Nat) (v : Byte) (b : Buffer) : s.SameTree (hostWriteByte s a v b) := by
  cases b <;> exact ⟨rfl, rfl, rfl⟩

theorem hostPoll_sameTree (s : State) : s.SameTree s.hostPoll := by
  unfold State.hostPoll
  split <;> exact ⟨rfl, rfl, rfl⟩

/-- No access of the host writes the tree (rule R116); only the reset event does (rule R170). -/
theorem hostAccess_sameTree {op : HostOp} {s t : State} (hreset : op ≠ .reset) (h : hostAccess op s = .next t) :
    s.SameTree t := by
  rcases hostAccess_cases h with ⟨off, -, -, rfl⟩ | ⟨off, v, -, -, rfl⟩ | ⟨b, a, -, -, rfl⟩ | ⟨b, a, v, -, -, -, rfl⟩
    | ⟨-, rfl⟩ | ⟨-, rfl⟩ | ⟨-, rfl⟩ | ⟨hop, -⟩
  · exact hostReadReg_sameTree s _
  · exact hostWriteReg_sameTree s _ v
  · exact hostReadByte_sameTree s b _
  · exact hostWriteByte_sameTree s _ v b
  · exact hostPoll_sameTree s
  · split <;> exact ⟨rfl, rfl, rfl⟩
  · exact .refl t
  · exact absurd hop hreset

/-- Settles O10: every other command's run keeps the tree and completion keeps it, and so does every host access but reset. -/
theorem onlyBuildAndClearWriteTheTree : Obligations.OnlyBuildAndClearWriteTheTree := by
  refine ⟨fun i s t hbuild hclear hcompress hdecompress hexec => ?_, fun op s t hreset h => hostAccess_sameTree hreset h⟩
  rw [exec_eq] at hexec
  obtain rfl := Host.Outcome.next.inj hexec
  exact Run.complete_sameTree (commandRun_sameTree hbuild hclear hcompress hdecompress s)

end Sys2Proof.Machine
end

section
/-! PROOFS. The register windows: which register an offset of a window is, and what it shows (rules R134 to R139, R150). -/

namespace Sys2Proof.Machine

/-! ### The offsets of the windows -/

theorem regAt_codeWord (k : Fin 8) : regAt (BitVec.ofNat 12 (0x048 + 4 * k.val)) = .codeWord k := by
  revert k; decide

theorem freqOffset_toNat (b : Byte) : (BitVec.ofNat 12 (0x400 + 4 * b.toNat)).toNat = 0x400 + 4 * b.toNat := by
  rw [BitVec.toNat_ofNat]
  omega

theorem regAt_freq (b : Byte) : regAt (BitVec.ofNat 12 (0x400 + 4 * b.toNat)) = .freq b := by
  have hin : 0x400 ≤ 0x400 + 4 * b.toNat ∧ 0x400 + 4 * b.toNat < 0x800 := by omega
  have hindex : (0x400 + 4 * b.toNat - 0x400) / 4 = b.toNat := by omega
  rw [regAt, freqOffset_toNat, if_pos hin, hindex, BitVec.ofNat_toNat, BitVec.setWidth_eq]

theorem registerFault_freq (b : Byte) : registerFault .word (BitVec.ofNat 12 (0x400 + 4 * b.toNat)) = none := by
  rw [registerFault_eq_none_iff, freqOffset_toNat]
  exact ⟨rfl, by omega⟩

/-! ### Idle register accesses -/

theorem busy_eq_false {s : State} (h : s.inflight = none) : s.busy = false := by
  simp [State.busy, h]

theorem hostReadReg_idle {s : State} (h : s.inflight = none) (r : Reg) :
    hostReadReg s r = { s with rdata := readReg s r } := by
  simp [hostReadReg, busy_eq_false h]

theorem hostWriteReg_idle {s : State} (h : s.inflight = none) (r : Reg) (v : Word) :
    hostWriteReg s r v = writeReg s v r := by
  simp [hostWriteReg, busy_eq_false h]

theorem hostAccess_readReg {off : BitVec 12} (h : registerFault .word off = none) (s : State) :
    hostAccess (.readReg .word off) s = .next (hostReadReg s (regAt off)) := by
  simp [hostAccess, h]

theorem hostAccess_writeReg {off : BitVec 12} (h : registerFault .word off = none) (s : State) (v : Word) :
    hostAccess (.writeReg .word off v) s = .next (hostWriteReg s (regAt off) v) := by
  simp [hostAccess, h]

/-- Settles O48: the offset is FREQ_s's, and an idle access of it is the read of the counter or the write that invalidates. -/
theorem freqWindowWritesInvalidateTheTree : Obligations.FreqWindowWritesInvalidateTheTree := by
  intro s b v hidle
  have hread : hostAccess (.readReg .word (BitVec.ofNat 12 (0x400 + 4 * b.toNat))) s
      = .next { s with rdata := s.freq.entry b } := by
    rw [hostAccess_readReg (registerFault_freq b), regAt_freq, hostReadReg_idle hidle, readReg]
  have hwrite : hostAccess (.writeReg .word (BitVec.ofNat 12 (0x400 + 4 * b.toNat)) v) s
      = .next { s.invalidate with freq := s.freq.put b v } := by
    rw [hostAccess_writeReg (registerFault_freq b), regAt_freq, hostWriteReg_idle hidle, writeReg]
  refine ⟨hread, _, hwrite, ?_, fun c hc => ?_, rfl, Table.entry_replicate 0 b⟩
  · rw [Table.entry_put, if_pos rfl]
  · rw [Table.entry_put, if_neg hc]

/-! ### Bit strings and fields as numbers -/

theorem natOfBits_concat (p : Bits) (b : Bool) : natOfBits (p ++ [b]) = Nat.bit b (natOfBits p) := by
  simp [natOfBits, Nat.bit_val]

/-- The last bit of a bit string is bit 0 of its number. -/
theorem natOfBits_testBit (p : Bits) (j : Nat) : (natOfBits p).testBit j = p.reverse.getD j false := by
  induction p using List.reverseRecOn generalizing j with
  | nil => simp [natOfBits]
  | append_singleton p b ih =>
    rw [natOfBits_concat, List.reverse_concat]
    cases j with
    | zero => rw [Nat.testBit_bit_zero, List.getD_cons_zero]
    | succ j => rw [Nat.testBit_bit_succ, ih, List.getD_cons_succ]

/-- Bit 31 − i of the word of 32 bits, the first one most significant, is bit i of them. -/
theorem wordOfBits_getLsbD (f : Nat → Bool) {i : Nat} (hi : i < 32) :
    (BitVec.ofNat 32 (natOfBits ((List.range 32).map f))).getLsbD (31 - i) = f i := by
  have hlt : 31 - i < 32 := by omega
  have hindex : 32 - 1 - (31 - i) = i := by omega
  rw [BitVec.getLsbD_ofNat, natOfBits_testBit, List.getD_eq_getElem?_getD, List.getElem?_reverse (by simpa using hlt)]
  simp [hlt, hindex, hi]

/-- Two fields side by side, as a number. -/
theorem toNat_append_eq_add {m n : Nat} (x : BitVec m) (y : BitVec n) :
    (x ++ y).toNat = 2 ^ n * x.toNat + y.toNat := by
  rw [BitVec.toNat_append, Nat.shiftLeft_eq, Nat.mul_comm, Nat.two_pow_add_eq_or_of_lt y.isLt]

/-! ### What SEL selects -/

theorem selectedSymbol_of_le {s : State} (h : s.sel.toNat ≤ 255) : s.selectedSymbol = some (s.sel.setWidth 8) := if_pos h

theorem selectedSymbol_of_ge {s : State} (h : 256 ≤ s.sel.toNat) : s.selectedSymbol = none := if_neg (by omega)

theorem selectedNode_of_lt {s : State} (h : s.sel.toNat < s.nnodes.toNat) : s.selectedNode = s.node[s.sel.toNat]? := if_pos h

theorem selectedNode_of_ge {s : State} (h : s.nnodes.toNat ≤ s.sel.toNat) : s.selectedNode = none := if_neg (by omega)

/-! ### The CODE window -/

theorem codeLenWindow_toNat {s : State} {b : Byte} (h : s.selectedSymbol = some b) :
    s.codeLenWindow.toNat = (s.codeLen.entry b).toNat := by
  rw [State.codeLenWindow, h]
  exact BitVec.toNat_setWidth_of_le (by decide)

/-- Bit 31 − i of CODE_Wk is code bit 32k + i (rule R136). -/
theorem codeWindow_getLsbD {s : State} {b : Byte} (h : s.selectedSymbol = some b) (k : Nat) {i : Nat} (hi : i < 32) :
    (s.codeWindow k).getLsbD (31 - i) = s.codeBit b (32 * k + i) := by
  rw [State.codeWindow, h]
  exact wordOfBits_getLsbD (fun i => s.codeBit b (32 * k + i)) hi

theorem codeLenWindow_none {s : State} (h : s.selectedSymbol = none) : s.codeLenWindow = 0 := by
  rw [State.codeLenWindow, h]

theorem codeWindow_none {s : State} (h : s.selectedSymbol = none) (k : Nat) : s.codeWindow k = 0 := by
  rw [State.codeWindow, h]

/-! ### The NODE window -/

theorem nodeKindWord_toNat {s : State} {n : Node} (h : s.selectedNode = some n) :
    s.nodeKindWord.toNat = 1 + 2 * n.leaf.toNat + 256 * n.sym.toNat := by
  rw [State.nodeKindWord, h]
  simp only [toNat_append_eq_add, BitVec.toNat_ofBool, BitVec.toNat_ofNat]
  omega

theorem nodeFreqWords_toNat {s : State} {n : Node} (h : s.selectedNode = some n) :
    s.nodeFreqLoWord.toNat + 2 ^ 32 * s.nodeFreqHiWord.toNat = n.nfreq.toNat := by
  rw [State.nodeFreqLoWord, State.nodeFreqHiWord, h]
  simp only [toNat_append_eq_add, BitVec.extractLsb'_toNat, BitVec.toNat_ofNat, Nat.shiftRight_eq_div_pow]
  omega

theorem nodeChildWord_toNat {s : State} {n : Node} (h : s.selectedNode = some n) :
    s.nodeChildWord.toNat = n.left.toNat + 2 ^ 16 * n.right.toNat := by
  rw [State.nodeChildWord, h]
  simp only [toNat_append_eq_add, BitVec.toNat_ofNat]
  omega

/-- With no entry selected the four NODE registers read 0 (rules R137 to R139). -/
theorem nodeWindow_none {s : State} (h : s.selectedNode = none) :
    s.nodeKindWord = 0 ∧ s.nodeFreqLoWord = 0 ∧ s.nodeFreqHiWord = 0 ∧ s.nodeChildWord = 0 := by
  simp [State.nodeKindWord, State.nodeFreqLoWord, State.nodeFreqHiWord, State.nodeChildWord, h]

/-- Settles O47: each register of the windows, read through the selected symbol or entry, if there is one. -/
theorem windowsShowTheSelectedEntries : Obligations.WindowsShowTheSelectedEntries := by
  intro s
  refine ⟨fun hsel => ?_, fun hsel => ?_, fun n hn hsel => ?_, fun hsel => ?_⟩
  · have hsym := selectedSymbol_of_le hsel
    refine ⟨codeLenWindow_toNat hsym, fun k hk i hi => ?_⟩
    rw [regAt_codeWord ⟨k, hk⟩]
    exact codeWindow_getLsbD hsym k hi
  · have hsym := selectedSymbol_of_ge hsel
    refine ⟨codeLenWindow_none hsym, fun k hk => ?_⟩
    rw [regAt_codeWord ⟨k, hk⟩]
    exact codeWindow_none hsym k
  · have hnode : s.selectedNode = some n := (selectedNode_of_lt hsel).trans hn
    exact ⟨nodeKindWord_toNat hnode, nodeFreqWords_toNat hnode, nodeChildWord_toNat hnode⟩
  · exact nodeWindow_none (selectedNode_of_ge hsel)

end Sys2Proof.Machine
end

section
/-! PROOFS. ANALYZE's counts and NORM's capacity limits (rules R400, R420). -/

namespace Sys2Proof.Machine

/-! ### How a command completes -/

/-- A run that raises and commits nothing completes by the failure rule (rule R820). -/
theorem exec_of_raised {i : Instr} {s : State} {f : Failure} (h : commandRun i s = .raised f s) :
    exec i s = .next (s.failedWith f.kind.code f.info) := by
  rw [exec_eq, h, Run.complete_raised]
  rfl

/-- A run that commits completes with success (rule R822). -/
theorem exec_of_ok {i : Instr} {s t : State} (h : commandRun i s = .ok t) : exec i s = .next t.succeed := by
  rw [exec_eq, h, Run.complete_ok]

/-! ### ANALYZE -/

theorem analyze_of_tooLong {s : State} (h : s.params.ibufSize < s.inLen.toNat) :
    analyze s = .raised { kind := .ioFailure, info := 0 } s := if_pos h

theorem analyze_of_empty {s : State} (h : s.inLen = 0) : analyze s = .raised { kind := .emptyInput, info := 0 } s := by
  have hfits : ¬ s.params.ibufSize < s.inLen.toNat := by simp [h]
  rw [analyze, if_neg hfits, if_pos h]

theorem analyze_of_fits {s : State} (hpos : 1 ≤ s.inLen.toNat) (hfits : s.inLen.toNat ≤ s.params.ibufSize) :
    analyze s = .ok { s with
      freq := countBytes (s.input s.inLen.toNat), origSize := s.inLen, treeV := false, codeV := false } := by
  have hne : s.inLen ≠ 0 := fun h => by simp [h] at hpos
  rw [analyze, if_neg (Nat.not_lt.mpr hfits), if_neg hne]

theorem count_input (s : State) (b : Byte) : (s.input s.inLen.toNat).count b = s.inputCount b := by
  rw [State.input, State.inputCount, List.count, List.countP_map]
  rfl

/-- A count is at most IN_LEN, so no counter overflows (rule R402). -/
theorem inputCount_le (s : State) (b : Byte) : s.inputCount b ≤ s.inLen.toNat :=
  List.countP_le_length.trans_eq List.length_range

theorem countBytes_input_entry (s : State) (b : Byte) :
    ((countBytes (s.input s.inLen.toNat)).entry b).toNat = s.inputCount b := by
  have hfit : s.inputCount b < 2 ^ 32 := (inputCount_le s b).trans_lt s.inLen.isLt
  rw [countBytes, Table.entry_tabulate, count_input, BitVec.toNat_ofNat, Nat.mod_eq_of_lt hfit]

/-- Settles O13: one equation of ANALYZE per clause, and the counters of the last one are the counts of the input. -/
theorem analyzeCountsTheInput : Obligations.AnalyzeCountsTheInput := by
  intro s
  refine ⟨fun hlong => ?_, fun hempty => ?_, fun hpos hfits => ?_⟩
  · exact exec_of_raised (i := .analyze) (analyze_of_tooLong hlong)
  · exact exec_of_raised (i := .analyze) (analyze_of_empty hempty)
  · exact ⟨_, exec_of_ok (i := .analyze) (analyze_of_fits hpos hfits), countBytes_input_entry s, rfl⟩

/-! ### NORM -/

theorem norm_of_tooMany {s : State} (h : 31 < presentCount s.freq) :
    norm s = .raised { kind := .capacityExceeded, info := BitVec.ofNat 32 (presentCount s.freq) } s := by
  rw [← popcountPresent_eq] at h ⊢
  exact if_pos h

theorem norm_of_fault_over {s : State} {b : Byte} (hcount : presentCount s.freq ≤ 31) (hpolicy : s.params.policy = .fault)
    (hover : firstOver s.freq = some b) : norm s = .raised { kind := .capacityExceeded, info := overInfo b } s := by
  rw [← popcountPresent_eq] at hcount
  simp only [norm, if_neg (Nat.not_lt.mpr hcount), hpolicy, hover]

theorem norm_of_fault_within {s : State} (hcount : presentCount s.freq ≤ 31) (hpolicy : s.params.policy = .fault)
    (hover : firstOver s.freq = none) : norm s = .ok s.invalidate := by
  rw [← popcountPresent_eq] at hcount
  simp only [norm, if_neg (Nat.not_lt.mpr hcount), hpolicy, hover]

theorem norm_of_saturate {s : State} (hcount : presentCount s.freq ≤ 31) (hpolicy : s.params.policy = .saturate) :
    norm s = .ok { s.invalidate with freq := saturate s.freq } := by
  rw [← popcountPresent_eq] at hcount
  simp only [norm, if_neg (Nat.not_lt.mpr hcount), hpolicy]

/-- Saturation cuts every count to 255 (rule R421). -/
theorem saturate_entry (t : Table (BitVec 32)) (b : Byte) : ((saturate t).entry b).toNat = min (t.entry b).toNat 255 := by
  rw [saturate, Table.entry_mapValues]
  split
  case isTrue hover => exact (Nat.min_eq_right hover.le).symm
  case isFalse hwithin => exact (Nat.min_eq_left (Nat.not_lt.mp hwithin)).symm

/-- Settles O14: one equation of NORM per clause; `firstOver` is the least symbol over 255, or none when there is no such count. -/
theorem normAppliesTheCapacityLimits : Obligations.NormAppliesTheCapacityLimits := by
  intro s
  refine ⟨fun hmany => exec_of_raised (i := .norm) (norm_of_tooMany hmany), fun b hcount hpolicy hover hleast => ?_,
    fun hcount hpolicy hwithin => ?_, fun hcount hpolicy => ?_⟩
  · exact exec_of_raised (i := .norm) (norm_of_fault_over hcount hpolicy (firstOver_eq_some hover hleast))
  · exact exec_of_ok (i := .norm) (norm_of_fault_within hcount hpolicy (firstOver_eq_none.mpr hwithin))
  · exact ⟨_, exec_of_ok (i := .norm) (norm_of_saturate hcount hpolicy), saturate_entry s.freq, rfl⟩

end Sys2Proof.Machine
end

section
/-! PROOFS. The arena BUILD commits: its leaves in front and its zero tail (rules R450, R451, R462). -/

namespace Sys2Proof.Machine

/-! ### What BUILD commits -/

/-- On a table that is not empty BUILD commits the arena, the root and the number of entries of its tree, and succeeds (rule R450). -/
theorem exec_build_next {s t : State} (hpos : 1 ≤ presentCount s.freq) (h : exec .build s = .next t) :
    ∃ arena r, huffmanTree s.freq = some (arena, r) ∧ t = State.succeed { s with
      node := arenaOf arena, root := BitVec.ofNat 9 r, nnodes := BitVec.ofNat 10 arena.length, treeV := true, codeV := false } := by
  rcases build_cases s with ⟨hempty, -⟩ | ⟨arena, r, htree, hok⟩
  · exact absurd (huffmanTree_eq_none.mp hempty) (by omega)
  · exact ⟨arena, r, htree, (Host.Outcome.next.inj ((exec_of_ok (i := .build) hok).symm.trans h)).symm⟩

/-- The computed arena fits the 511 entries of NODE (rule R450). -/
theorem huffmanTree_length_le {t : Table (BitVec 32)} {arena : List Node} {r : Nat} (h : huffmanTree t = some (arena, r)) :
    arena.length ≤ 511 := by
  obtain ⟨-, -, hlen, -⟩ := huffmanTree_some h
  have := presentCount_le t
  omega

/-- NNODES has room for the number of entries. -/
theorem nnodes_toNat {arena : List Node} (h : arena.length ≤ 511) : (BitVec.ofNat 10 arena.length).toNat = arena.length := by
  rw [BitVec.toNat_ofNat, Nat.mod_eq_of_lt (by omega)]

theorem entryAt_of_node {s : State} {arena : List Node} (hnode : s.node = arenaOf arena) (hlen : arena.length ≤ 511) (i : Nat) :
    s.entryAt i = arena.getD i Node.zero := by
  rw [State.entryAt, hnode]
  by_cases hi : i < 511
  · rw [arenaOf_getElem? arena hi, Option.getD_some]
  · rw [List.getD_eq_default _ _ (by omega), Vector.getElem?_eq_none (by omega), Option.getD_none]

theorem arenaTailZero_of_node {s : State} {arena : List Node} (hnode : s.node = arenaOf arena)
    (hnnodes : s.nnodes.toNat = arena.length) : s.ArenaTailZero := by
  intro i hi htail
  rw [hnode, arenaOf_getElem? arena hi, List.getD_eq_default _ _ (by omega)]

/-! ### The leaves in front -/

theorem leaves_getElem? {t : Table (BitVec 32)} {b : Byte} (hb : 1 ≤ (t.entry b).toNat) :
    (leaves t)[presentBelow t b]? = some (leafNode t b) := by
  rw [leaves, List.getElem?_map, present_getElem hb, Option.map_some]

theorem leaf_of_mem_leaves {t : Table (BitVec 32)} {n : Node} (h : n ∈ leaves t) : n.leaf = true := by
  obtain ⟨b, -, rfl⟩ := List.mem_map.mp h
  rfl

/-- No merge moves or changes a leaf (rules R451, R452). -/
theorem Merges.getD_of_leaf {ls arena : List Node} {active : List Nat} (h : Merges ls arena active) {i : Nat} {n : Node}
    (hn : ls[i]? = some n) : arena.getD i Node.zero = n := by
  rw [List.getD_eq_getElem?_getD, List.prefix_iff_getElem?.mp h.leaves_front i (List.getElem?_eq_some_iff.mp hn).1]
  exact (List.getElem?_eq_some_iff.mp hn).2

/-- The leaves of the computed arena are exactly the entries in front (rules R451, R454). -/
theorem huffmanTree_leaf_iff {t : Table (BitVec 32)} {arena : List Node} {r : Nat} (h : huffmanTree t = some (arena, r)) {i : Nat}
    (hi : i < arena.length) : (arena.getD i Node.zero).leaf = true ↔ i < presentCount t := by
  obtain ⟨hpos, hmerges, -, -⟩ := huffmanTree_some h
  have hle := presentCount_le t
  rw [← leaves_length] at hpos hle ⊢
  by_cases hfront : i < (leaves t).length
  case pos =>
    rw [hmerges.getD_of_leaf (List.getElem?_eq_getElem hfront)]
    exact iff_of_true (leaf_of_mem_leaves (List.getElem_mem hfront)) hfront
  case neg =>
    obtain ⟨hinternal, -⟩ := hmerges.child_lt hpos hle (Nat.not_lt.mp hfront) hi
    exact iff_of_false (Bool.eq_false_iff.mp hinternal) hfront

/-- Settles O17: leaf k of the computed arena is the k-th present symbol's, every merge appends behind the leaves an entry that is
no leaf, and the committed arena is zero beyond the computed one. -/
theorem buildPutsLeavesFirstInSymbolOrder : Obligations.BuildPutsLeavesFirstInSymbolOrder := by
  intro s t hpos hexec
  obtain ⟨arena, r, htree, hcommit⟩ := exec_build_next hpos hexec
  obtain ⟨-, hmerges, -, -⟩ := huffmanTree_some htree
  have hfit := huffmanTree_length_le htree
  have hnode : t.node = arenaOf arena := by rw [hcommit, State.succeed_node]
  have hnnodes : t.nnodes.toNat = arena.length := by rw [hcommit, State.succeed_nnodes, nnodes_toNat hfit]
  refine ⟨fun b hb => ?_, fun i hi => ?_, arenaTailZero_of_node hnode hnnodes⟩
  · rw [entryAt_of_node hnode hfit]
    exact hmerges.getD_of_leaf (leaves_getElem? hb)
  · rw [entryAt_of_node hnode hfit]
    exact huffmanTree_leaf_iff htree (hi.trans_eq hnnodes)

end Sys2Proof.Machine
end

section
/-! PROOFS. The code table GENCODE commits: its frame, and its codes as paths of the tree (rules R500, R501, R503). -/

namespace Sys2Proof.Machine

/-! ### What GENCODE commits -/

theorem exec_gencode_of_no_tree {s : State} (h : s.treeV = false) : exec .gencode s = .next (s.failedWith 8 1) := by
  rcases gencode_cases s with ⟨-, hraised⟩ | ⟨htree, -⟩
  · exact exec_of_raised (i := .gencode) hraised
  · exact absurd (h.symm.trans htree) (by decide)

/-- With a valid tree GENCODE commits the codes of the tree and their lengths, and succeeds (rule R500). -/
theorem exec_gencode_of_tree {s : State} (h : s.treeV = true) : exec .gencode s = .next (State.succeed { s with
    codeLen := codeLengths (codeTable (treeCodes s.node s.root)), code := codeTable (treeCodes s.node s.root), codeV := true }) := by
  rcases gencode_cases s with ⟨hno, -⟩ | ⟨-, hok⟩
  · exact absurd (hno.symm.trans h) (by decide)
  · exact exec_of_ok (i := .gencode) hok

theorem code_of_exec_gencode {s t : State} (htree : s.treeV = true) (h : exec .gencode s = .next t) :
    t.code = codeTable (treeCodes s.node s.root) := by
  obtain rfl := Host.Outcome.next.inj ((exec_gencode_of_tree htree).symm.trans h)
  rfl

theorem codeLengths_entry (t : Table Bits) (b : Byte) : (codeLengths t).entry b = BitVec.ofNat 8 (t.entry b).length :=
  Table.entry_mapValues _ t b

/-! ### The single leaf -/

theorem treeCodes_of_leaf {node : Vector Node 511} {root : BitVec 9} {n : Node} (hroot : node[root.toNat]? = some n)
    (hleaf : n.leaf = true) : treeCodes node root = [(n.sym, [false])] := by
  simp only [treeCodes, hroot, hleaf, if_true]

/-- Settles O20: GENCODE's two runs; the table of a single leaf has its code and no other. -/
theorem gencodeWritesOnlyTheCodeTable : Obligations.GencodeWritesOnlyTheCodeTable := by
  intro s
  refine ⟨exec_gencode_of_no_tree, fun htree =>
    ⟨_, exec_gencode_of_tree htree, fun n hroot hleaf => ?_, fun b => codeLengths_entry _ b, rfl⟩⟩
  rw [State.succeed_code, treeCodes_of_leaf hroot hleaf]
  exact ⟨codeTable_entry (by simp) (List.mem_singleton_self _),
    fun b hb => codeTable_entry_absent (by simpa using hb)⟩

/-! ### Codes are paths -/

/-- With two or more leaves, the tree TREE_V promises has a path for every present symbol, and its code is that path (rule R501). -/
theorem exec_gencode_paths {s t : State} (hvalid : s.ValidityOk) (htree : s.treeV = true) (hcount : 2 ≤ presentCount s.freq)
    (h : exec .gencode s = .next t) :
    ∃ tree, Grows (fun j => s.node[j]?) s.root.toNat tree ∧ tree.syms.Perm (present s.freq)
      ∧ ∀ c ∈ tree.paths, t.code.entry c.1 = c.2 := by
  obtain ⟨-, tree, hgrows, hperm⟩ := hvalid.tree htree
  have hlength : tree.syms.length = presentCount s.freq := hperm.length_eq.trans (popcountPresent_eq s.freq)
  have hdepth : tree.depth < 511 := by
    have := tree.depth_lt
    have := presentCount_le s.freq
    omega
  have hnodup : (tree.paths.map Prod.fst).Nodup := by
    rw [tree.paths_syms]
    exact hperm.nodup_iff.mpr (present_nodup s.freq)
  obtain ⟨l, r, rfl⟩ := tree_node (hcount.trans_eq hlength.symm)
  refine ⟨_, hgrows, hperm, fun c hc => ?_⟩
  rw [code_of_exec_gencode htree h, treeCodes_grows hgrows hdepth]
  exact codeTable_entry hnodup hc

theorem entryAt_of_getElem? {s : State} {i : Nat} {n : Node} (h : s.node[i]? = some n) : s.entryAt i = n := by
  rw [State.entryAt, h, Option.getD_some]

/-- A bit string whose first bit leads from an internal entry to `next` goes on from `next`. -/
theorem State.follow_cons {s : State} {i : BitVec 9} {n : Node} (h : s.node[i.toNat]? = some n) (hinternal : n.leaf = false)
    (bit : Bool) (p : Bits) : s.follow i (bit :: p) = s.follow (if bit then n.right else n.left) p := by
  simp only [State.follow, entryAt_of_getElem? h, hinternal, Bool.false_eq_true, if_false]

theorem CodeTree.mem_paths_node {l r : CodeTree} {b : Byte} {p : Bits} :
    (b, p) ∈ (CodeTree.node l r).paths ↔ ∃ bit q, p = bit :: q ∧ (b, q) ∈ (if bit then r else l).paths := by
  simp [CodeTree.paths, and_comm, eq_comm]

/-- A path of the tree at an entry, followed from there, ends at the leaf it is the path of (rule R501). -/
theorem Grows.follow_path {s : State} {i : BitVec 9} {tree : CodeTree} (h : Grows (fun j => s.node[j]?) i.toNat tree) {b : Byte}
    {p : Bits} (hp : (b, p) ∈ tree.paths) :
    ∃ j, s.follow i p = some j ∧ (s.entryAt j.toNat).leaf = true ∧ (s.entryAt j.toNat).sym = b := by
  induction tree generalizing i p with
  | leaf c =>
    cases h with
    | leaf hnode hleaf =>
      obtain ⟨rfl, rfl⟩ : b = _ ∧ p = [] := by simpa [CodeTree.paths] using hp
      have hentry := entryAt_of_getElem? hnode
      exact ⟨i, rfl, by rw [hentry, hleaf], by rw [hentry]⟩
  | node l r ihl ihr =>
    cases h with
    | node hnode hinternal hleft hright =>
      obtain ⟨bit, q, rfl, hq⟩ := CodeTree.mem_paths_node.mp hp
      rw [State.follow_cons hnode hinternal]
      cases bit with
      | false => exact ihl hleft hq
      | true => exact ihr hright hq

/-- Settles O21: the code of a present symbol is its path in the tree ROOT holds, and the path leads to its leaf. -/
theorem codesAreRootToLeafPaths : Obligations.CodesAreRootToLeafPaths := by
  intro s t hvalid htree hcount hexec b hb
  obtain ⟨tree, hgrows, hperm, hcode⟩ := exec_gencode_paths hvalid htree hcount hexec
  have hsym : b ∈ tree.paths.map Prod.fst := by
    rw [tree.paths_syms]
    exact hperm.mem_iff.mpr (mem_present.mpr hb)
  obtain ⟨⟨_, p⟩, hp, rfl⟩ := List.mem_map.mp hsym
  rw [hcode _ hp]
  exact hgrows.follow_path hp

end Sys2Proof.Machine
end

section
/-! PROOFS. What a successful PACK commits (rules R550 to R557). -/

namespace Sys2Proof.Machine

/-! ### What PACK reads -/

/-- The concatenated codes of the first `n` input bytes (rule R551). -/
theorem codeStream_input (code : Table Bits) (s : State) (n : Nat) :
    codeStream code (s.input n) = (List.range n).flatMap fun i => code.entry (s.byteAt .ibuf i) :=
  List.flatMap_map (s.byteAt .ibuf) _ _

/-- No input byte lacks a code (rule R554). -/
theorem firstMissing_input_eq_none {codeLen : Table (BitVec 8)} {s : State} {n : Nat} :
    firstMissing codeLen (s.input n) = none ↔ ∀ i < n, codeLen.entry (s.byteAt .ibuf i) ≠ 0 := by
  simp [firstMissing, State.input]

/-! ### What PACK commits -/

/-- The state a successful PACK commits, `stream` being the codes of its input (rule R550). -/
def packCommit (s : State) (stream : Bits) : State :=
  { s.putBytes s.outOff.toNat (packBits stream) with
    pad := BitVec.ofNat 3 (padCount stream.length)
    nbits := BitVec.ofNat 40 stream.length
    outLen := BitVec.ofNat 32 (s.outOff.toNat + (packBits stream).length) }

/-- When its four checks pass, PACK commits the packed codes of its input (rule R550). -/
theorem pack_of_fits {s : State} (hcode : s.codeV = true) (hin : s.inLen.toNat ≤ s.params.ibufSize)
    (hcoded : firstMissing s.codeLen (s.input s.inLen.toNat) = none)
    (hout : s.outOff.toNat + (packBits (codeStream s.code (s.input s.inLen.toNat))).length ≤ s.params.obufSize) :
    pack s = .ok (packCommit s (codeStream s.code (s.input s.inLen.toNat))) := by
  simp only [pack, hcode, Bool.true_eq_false, if_false, if_neg (Nat.not_lt.mpr hin), hcoded, if_neg (Nat.not_lt.mpr hout)]
  rfl

/-- Bit k of the stream, or of its zero padding, is bit 7 − (k mod 8) of OBUF[OUT_OFF + ⌊k/8⌋] (rules R552, R553). -/
theorem packCommit_payloadBit (s : State) (stream : Bits) {k : Nat} (hk : k < 8 * ceilDiv8 stream.length) :
    ((packCommit s stream).byteAt .obuf (s.outOff.toNat + k / 8)).getLsbD (7 - k % 8) = stream.getD k false := by
  have hinside : s.outOff.toNat ≤ s.outOff.toNat + k / 8
      ∧ s.outOff.toNat + k / 8 < s.outOff.toNat + (packBits stream).length := by
    rw [packBits_length]
    omega
  rw [State.byteAt_writeBytes s (packCommit s stream) s.outOff.toNat (packBits stream) rfl rfl, dif_pos hinside]
  simp only [Nat.add_sub_cancel_left]
  exact packBits_getLsbD stream k hk

/-- OBUF outside OUT_OFF … OUT_OFF + nbytes − 1 is as before (rule R557). -/
theorem packCommit_byteAt_outside (s : State) (stream : Bits) {a : Nat}
    (ha : a < s.outOff.toNat ∨ s.outOff.toNat + ceilDiv8 stream.length ≤ a) :
    (packCommit s stream).byteAt .obuf a = s.byteAt .obuf a := by
  rw [State.byteAt_writeBytes s (packCommit s stream) s.outOff.toNat (packBits stream) rfl rfl, dif_neg]
  rw [packBits_length]
  omega

/-- PAD counts the zero bits behind the stream in its last byte (rule R553). -/
theorem packCommit_pad_toNat (s : State) (stream : Bits) :
    (packCommit s stream).pad.toNat = 8 * ceilDiv8 stream.length - stream.length := by
  rw [← padCount_eq]
  exact (BitVec.toNat_ofNat _ 3).trans (Nat.mod_eq_of_lt (Nat.mod_lt _ (by decide)))

/-- NBITS has room for the length of a stream whose bytes fit OBUF (rules R132, R555). -/
theorem packCommit_nbits_toNat {s : State} {stream : Bits}
    (hout : s.outOff.toNat + ceilDiv8 stream.length ≤ s.params.obufSize) : (packCommit s stream).nbits.toNat = stream.length := by
  have hsize := s.params.obufLast.isLt
  refine (BitVec.toNat_ofNat _ 40).trans (Nat.mod_eq_of_lt ?_)
  rw [ceilDiv8, Params.obufSize] at hout
  omega

/-- OUT_LEN has room for the end of a payload that fits OBUF (rules R127, R555). -/
theorem packCommit_outLen_toNat {s : State} {stream : Bits}
    (hout : s.outOff.toNat + ceilDiv8 stream.length ≤ s.params.obufSize) :
    (packCommit s stream).outLen.toNat = s.outOff.toNat + ceilDiv8 stream.length := by
  have hsize := s.params.obufLast.isLt
  rw [← packBits_length] at hout ⊢
  refine (BitVec.toNat_ofNat _ 32).trans (Nat.mod_eq_of_lt ?_)
  rw [Params.obufSize] at hout
  omega

/-- Settles O26: PACK runs through its checks to `packCommit`, whose OBUF is the packed stream inside its range and the old bytes
outside, and whose three registers hold their numbers uncut since the payload fits OBUF. -/
theorem packWritesTheCodesMsbFirst : Obligations.PackWritesTheCodesMsbFirst := by
  intro s stream nbytes hcode hin hcoded hout
  have hstream : codeStream s.code (s.input s.inLen.toNat) = stream := codeStream_input s.code s s.inLen.toNat
  have hrun : commandRun .pack s = .ok (packCommit s stream) := by
    rw [← hstream]
    refine pack_of_fits hcode hin (firstMissing_input_eq_none.mpr hcoded) ?_
    rw [hstream, packBits_length]
    exact hout
  exact ⟨_, exec_of_ok hrun, fun k hk => packCommit_payloadBit s stream hk, fun a ha => packCommit_byteAt_outside s stream ha,
    packCommit_pad_toNat s stream, packCommit_nbits_toNat hout, packCommit_outLen_toNat hout, rfl⟩

end Sys2Proof.Machine
end

section
/-! PROOFS. UNPACK: its checks in their order, the symbols it decodes, and the shortfall (rules R600 to R611). -/

namespace Sys2Proof.Machine

/-! ### How UNPACK's checks end -/

/-- An UNPACK that fails completes by the failure rule, OBUF from ORIG_SIZE on unchanged (rules R611, R820). -/
theorem exec_unpack_of_fails {s : State} {f : Failure} (h : unpack s = unpackFails s f) :
    ∃ t, exec .unpack s = .next t ∧ s.FailedSpoiling t f.kind.code f.info 0 s.origSize.toNat := by
  refine ⟨(s.spoil 0 s.origSize.toNat).failCommand f, ?_, rfl, s.byteAt_spoil 0 s.origSize.toNat⟩
  rw [exec_eq, commandRun, h, unpackFails, Run.complete_raised]

theorem unpack_of_no_tree {s : State} (h : s.treeV = false) : unpack s = unpackFails s { kind := .notReady, info := 1 } := if_pos h

theorem unpack_of_input_tooLong {s : State} (htree : s.treeV = true) (hin : s.params.ibufSize < s.inLen.toNat) :
    unpack s = unpackFails s { kind := .ioFailure, info := 0 } := by
  rw [unpack, if_neg (by simp [htree]), if_pos hin]

theorem unpack_of_output_tooLong {s : State} (htree : s.treeV = true) (hin : s.inLen.toNat ≤ s.params.ibufSize)
    (hout : s.params.obufSize < s.origSize.toNat) : unpack s = unpackFails s { kind := .ioFailure, info := 1 } := by
  rw [unpack, if_neg (by simp [htree]), if_neg (Nat.not_lt.mpr hin), if_pos hout]

/-- With a valid tree of two or more leaves and both lengths within their buffers, UNPACK goes on to the payload (rule R600). -/
theorem unpack_of_internal_root {s : State} {n : Node} (htree : s.treeV = true) (hin : s.inLen.toNat ≤ s.params.ibufSize)
    (hout : s.origSize.toNat ≤ s.params.obufSize) (hroot : s.node[s.root.toNat]? = some n) (hinternal : n.leaf = false) :
    unpack s = unpackBits s := by
  have hsingle : singleLeaf s = none := by simp [singleLeaf, hroot, hinternal]
  rw [unpack, if_neg (by simp [htree]), if_neg (Nat.not_lt.mpr hin), if_neg (Nat.not_lt.mpr hout), hsingle]

/-- The payload geometry that is corrupt before any bit is read (rule R609). -/
theorem unpackBits_of_corrupt_geometry {s : State}
    (h : s.inLen.toNat < s.inOff.toNat ∨ s.inLen.toNat = s.inOff.toNat ∧ s.pad ≠ 0) :
    unpackBits s = unpackFails s { kind := .corruptStream, info := 0 } := by
  rcases h with hbeyond | ⟨hempty, hpad⟩
  · rw [unpackBits, if_pos hbeyond]
  · rw [unpackBits, if_neg hempty.ge.not_gt, if_pos ⟨by omega, hpad⟩]

/-- Settles O31: one equation of UNPACK per check, and the failure rule. -/
theorem unpackReportsItsFirstFailure : Obligations.UnpackReportsItsFirstFailure := by
  intro s
  refine ⟨fun hno => ?_, fun htree hlong => ?_, fun htree hin hlong => ?_, fun n htree hin hout hroot hinternal hbad => ?_⟩
  · exact exec_unpack_of_fails (unpack_of_no_tree hno)
  · exact exec_unpack_of_fails (unpack_of_input_tooLong htree hlong)
  · exact exec_unpack_of_fails (unpack_of_output_tooLong htree hin hlong)
  · exact exec_unpack_of_fails
      ((unpack_of_internal_root htree hin hout hroot hinternal).trans (unpackBits_of_corrupt_geometry hbad))

/-! ### The payload's bits -/

/-- The meaningful bits: those of IBUF[IN_OFF … IN_LEN − 1] without the PAD padding bits (rule R601). -/
def State.meaningfulBits (s : State) : Bits := s.payloadBits (8 * (s.inLen.toNat - s.inOff.toNat) - s.pad.toNat)

theorem State.meaningfulBits_length (s : State) :
    s.meaningfulBits.length = 8 * (s.inLen.toNat - s.inOff.toNat) - s.pad.toNat := by
  rw [State.meaningfulBits, State.payloadBits, List.length_map, List.length_range]

/-- With a sound geometry UNPACK is what the loop on the meaningful bits makes it: a shortfall or a commit (rules R600, R606). -/
theorem unpackBits_of_decodeLoop {s : State} {out : List Byte} {consumed : Nat} (hoff : s.inOff.toNat ≤ s.inLen.toNat)
    (hpad : s.inOff.toNat = s.inLen.toNat → s.pad = 0)
    (hloop : decodeLoop s.node s.root s.meaningfulBits s.root s.origSize.toNat = (out, consumed)) :
    unpackBits s = if out.length < s.origSize.toNat
      then unpackFails s { kind := .corruptStream, info := BitVec.ofNat 32 out.length }
      else .ok (unpackCommit s out consumed) := by
  have hgeometry : ¬ (s.inLen.toNat - s.inOff.toNat = 0 ∧ s.pad ≠ 0) := fun ⟨hempty, hne⟩ => hne (hpad (by omega))
  rw [State.meaningfulBits] at hloop
  simp only [unpackBits, if_neg (Nat.not_lt.mpr hoff), if_neg hgeometry, hloop]

/-! ### What UNPACK commits -/

/-- OBUF[0 … N − 1] holds the symbols (rule R600). -/
theorem unpackCommit_byteAt_inside (s : State) (out : List Byte) (consumed : Nat) {k : Nat} (hk : k < out.length) :
    some ((unpackCommit s out consumed).byteAt .obuf k) = out[k]? := by
  rw [State.byteAt_writeBytes s (unpackCommit s out consumed) 0 out rfl rfl, dif_pos (by omega)]
  exact (List.getElem?_eq_getElem hk).symm

/-- OBUF from N on is as before (rule R611). -/
theorem unpackCommit_byteAt_outside (s : State) (out : List Byte) (consumed : Nat) {k : Nat} (hk : out.length ≤ k) :
    (unpackCommit s out consumed).byteAt .obuf k = s.byteAt .obuf k := by
  rw [State.byteAt_writeBytes s (unpackCommit s out consumed) 0 out rfl rfl, dif_neg (by omega)]

/-- NBITS has room for every number of meaningful bits (rules R132, R610). -/
theorem unpackCommit_nbits_toNat {s : State} (out : List Byte) {consumed : Nat} (h : consumed ≤ s.meaningfulBits.length) :
    (unpackCommit s out consumed).nbits.toNat = consumed := by
  have hlen := s.inLen.isLt
  rw [State.meaningfulBits_length] at h
  exact (BitVec.toNat_ofNat _ 40).trans (Nat.mod_eq_of_lt (by omega))

/-! ### The loop on a sequence of codes -/

/-- The codes GENCODE derives from a valid tree of two or more leaves are the paths of the tree at ROOT: those of the present
symbols, and no others (rules R501, R502). -/
theorem exec_gencode_mem_paths {s g : State} (hvalid : s.ValidityOk) (htree : s.treeV = true) (hcount : 2 ≤ presentCount s.freq)
    (h : exec .gencode s = .next g) :
    ∃ l r, Grows (fun j => s.node[j]?) s.root.toNat (.node l r)
      ∧ ∀ b p, (b, p) ∈ (CodeTree.node l r).paths ↔ 1 ≤ (s.freq.entry b).toNat ∧ g.code.entry b = p := by
  obtain ⟨tree, hgrows, hperm, hcode⟩ := exec_gencode_paths hvalid htree hcount h
  obtain ⟨l, r, rfl⟩ := tree_node (hcount.trans_eq (hperm.length_eq.trans (popcountPresent_eq s.freq)).symm)
  have hpresent : ∀ b, 1 ≤ (s.freq.entry b).toNat ↔ b ∈ (CodeTree.node l r).paths.map Prod.fst := fun b => by
    rw [CodeTree.paths_syms, hperm.mem_iff, mem_present]
  refine ⟨l, r, hgrows, fun b p => ⟨fun hmem => ?_, fun ⟨hb, hp⟩ => ?_⟩⟩
  · exact ⟨(hpresent b).mpr (List.mem_map_of_mem hmem), hcode _ hmem⟩
  · obtain ⟨⟨_, q⟩, hmem, rfl⟩ := List.mem_map.mp ((hpresent b).mp hb)
    rwa [← hp, hcode _ hmem]

theorem CodeTree.ne_nil_of_mem_paths_node {l r : CodeTree} {b : Byte} {p : Bits} (h : (b, p) ∈ (CodeTree.node l r).paths) :
    p ≠ [] := by
  obtain ⟨bit, q, rfl, -⟩ := CodeTree.mem_paths_node.mp h
  exact List.cons_ne_nil bit q

/-- At the root of a tree of two or more leaves the loop turns a sequence of paths back into its symbols, and is then at the root
with what follows (rules R602 to R604). -/
theorem decodeLoop_codes {node : Vector Node 511} {root : BitVec 9} {l r : CodeTree}
    (hgrows : Grows (fun j => node[j]?) root.toNat (.node l r)) (code : Byte → Bits) (xs : List Byte)
    (hcode : ∀ x ∈ xs, (x, code x) ∈ (CodeTree.node l r).paths) (rest : Bits) (n : Nat) :
    decodeLoop node root (xs.flatMap code ++ rest) root (xs.length + n)
      = (xs ++ (decodeLoop node root rest root n).1, (decodeLoop node root rest root n).2 + (xs.flatMap code).length) := by
  induction xs with
  | nil => rw [List.length_nil, Nat.zero_add]; rfl
  | cons x xs ih =>
    have hx := hcode x List.mem_cons_self
    have ih := ih fun y hy => hcode y (List.mem_cons_of_mem x hy)
    rw [List.flatMap_cons, List.append_assoc, List.length_cons, Nat.add_right_comm,
      decodeLoop_path hgrows hx (CodeTree.ne_nil_of_mem_paths_node hx), ih, List.length_append, List.cons_append,
      Nat.add_assoc, Nat.add_comm (code x).length]

theorem decodeLoop_zero (node : Vector Node 511) (root : BitVec 9) (bits : Bits) (cur : BitVec 9) :
    decodeLoop node root bits cur 0 = ([], 0) := by
  rw [decodeLoop]

/-- On a tree of two or more leaves with lengths and geometry sound, UNPACK is what the loop makes it (rule R600). -/
theorem unpack_of_decodeLoop {s : State} {l r : CodeTree} {out : List Byte} {consumed : Nat} (htree : s.treeV = true)
    (hgrows : Grows (fun j => s.node[j]?) s.root.toNat (.node l r)) (hin : s.inLen.toNat ≤ s.params.ibufSize)
    (hout : s.origSize.toNat ≤ s.params.obufSize) (hoff : s.inOff.toNat ≤ s.inLen.toNat)
    (hpad : s.inOff.toNat = s.inLen.toNat → s.pad = 0)
    (hloop : decodeLoop s.node s.root s.meaningfulBits s.root s.origSize.toNat = (out, consumed)) :
    unpack s = if out.length < s.origSize.toNat
      then unpackFails s { kind := .corruptStream, info := BitVec.ofNat 32 out.length }
      else .ok (unpackCommit s out consumed) := by
  cases hgrows with
  | node hroot hinternal _ _ =>
    exact (unpack_of_internal_root htree hin hout hroot hinternal).trans (unpackBits_of_decodeLoop hoff hpad hloop)

/-- Settles O29: the loop decodes the codes and is then done, whatever follows; the commit holds its symbols and its bit count. -/
theorem unpackDecodesTheCodes : Obligations.UnpackDecodesTheCodes := by
  intro s g xs rest hvalid htree hcount hgencode hin hout hoff hpad hlength hpresent hbits
  obtain ⟨l, r, hgrows, hpaths⟩ := exec_gencode_mem_paths hvalid htree hcount hgencode
  have hmeaningful : s.meaningfulBits = xs.flatMap g.code.entry ++ rest := hbits
  have hloop : decodeLoop s.node s.root s.meaningfulBits s.root s.origSize.toNat = (xs, (xs.flatMap g.code.entry).length) := by
    rw [hmeaningful, ← hlength, ← Nat.add_zero xs.length,
      decodeLoop_codes hgrows _ xs (fun x hx => (hpaths x _).mpr ⟨hpresent x hx, rfl⟩), decodeLoop_zero, List.append_nil,
      Nat.zero_add]
  have hfit : (xs.flatMap g.code.entry).length ≤ s.meaningfulBits.length := by
    rw [hmeaningful, List.length_append]
    exact Nat.le_add_right _ _
  have hrun : commandRun .unpack s = .ok (unpackCommit s xs (xs.flatMap g.code.entry).length) :=
    (unpack_of_decodeLoop htree hgrows hin hout hoff hpad hloop).trans (if_neg hlength.ge.not_gt)
  refine ⟨_, exec_of_ok hrun, fun k hk => ?_, fun k hk => ?_, unpackCommit_nbits_toNat xs hfit, rfl⟩
  · exact unpackCommit_byteAt_inside s xs (xs.flatMap g.code.entry).length (hk.trans_eq hlength.symm)
  · exact unpackCommit_byteAt_outside s xs (xs.flatMap g.code.entry).length (hlength.trans_le hk)

/-- Settles O30: the loop decodes the codes, emits nothing from what follows, and has then fewer symbols than ORIG_SIZE. -/
theorem unpackReportsAShortfall : Obligations.UnpackReportsAShortfall := by
  intro s g xs rest hvalid htree hcount hgencode hin hout hoff hpad hfewer hpresent hno hbits
  obtain ⟨l, r, hgrows, hpaths⟩ := exec_gencode_mem_paths hvalid htree hcount hgencode
  have hmeaningful : s.meaningfulBits = xs.flatMap g.code.entry ++ rest := hbits
  obtain ⟨n, hmissing⟩ : ∃ n, s.origSize.toNat = xs.length + n + 1 := Nat.exists_eq_add_of_lt hfewer
  have hshort : ∀ c ∈ (CodeTree.node l r).paths, ¬ c.2 <+: rest := fun c hc => by
    obtain ⟨hsym, hcode⟩ := (hpaths c.1 c.2).mp hc
    rw [← hcode]
    exact hno c.1 hsym
  have hloop : decodeLoop s.node s.root s.meaningfulBits s.root s.origSize.toNat
      = (xs, rest.length + (xs.flatMap g.code.entry).length) := by
    rw [hmeaningful, hmissing, Nat.add_assoc,
      decodeLoop_codes hgrows _ xs (fun x hx => (hpaths x _).mpr ⟨hpresent x hx, rfl⟩), decodeLoop_short hgrows rest hshort,
      List.append_nil]
  exact exec_unpack_of_fails ((unpack_of_decodeLoop htree hgrows hin hout hoff hpad hloop).trans (if_pos hfewer))

end Sys2Proof.Machine
end

section
/-! PROOFS. WRHDR and RDHDR: the header's bytes, the checks in their order, and the table read entry by entry (rules R310, R650 to
R676). -/

namespace Sys2Proof.Machine

/-! ### Words and bytes of the header -/

/-- The four bytes of a word are its big-endian digits (rule R210). -/
theorem bigEndian_wordBytes (w : Word) :
    (w.extractLsb' 24 8).toNat * 2 ^ 24 + (w.extractLsb' 16 8).toNat * 2 ^ 16 + (w.extractLsb' 8 8).toNat * 2 ^ 8
      + (w.extractLsb' 0 8).toNat = w.toNat := by
  simp only [BitVec.extractLsb'_toNat, Nat.shiftRight_eq_div_pow]
  omega

theorem inputWord_toNat (s : State) (a : Nat) :
    (s.inputWord a).toNat = (s.byteAt .ibuf a).toNat * 2 ^ 24 + (s.byteAt .ibuf (a + 1)).toNat * 2 ^ 16
      + (s.byteAt .ibuf (a + 2)).toNat * 2 ^ 8 + (s.byteAt .ibuf (a + 3)).toNat := by
  rw [State.inputWord, BitVec.toNat_ofNat]
  omega

theorem padSizeByte_toNat (pad : BitVec 3) {t : Nat} (h : t ≤ 31) : (padSizeByte pad t).toNat = pad.toNat * 32 + t := by
  rw [padSizeByte, BitVec.toNat_ofNat]
  omega

theorem padField_toNat (b : Byte) : (padField b).toNat = b.toNat / 32 := by
  rw [padField, BitVec.extractLsb'_toNat, Nat.shiftRight_eq_div_pow]
  omega

theorem sizeField_eq (b : Byte) : sizeField b = b.toNat % 32 := by
  rw [sizeField, BitVec.extractLsb'_toNat, Nat.shiftRight_zero]

/-! ### The table entries WRHDR writes -/

/-- In a list of pairs written out, pair `i` stands at places 2i and 2i + 1. -/
theorem getElem?_flatMap_pair {α β : Type} (f g : α → β) (l : List α) (i : Nat) :
    (l.flatMap fun x => [f x, g x])[2 * i]? = l[i]?.map f ∧ (l.flatMap fun x => [f x, g x])[2 * i + 1]? = l[i]?.map g := by
  induction l generalizing i with
  | nil => exact ⟨rfl, rfl⟩
  | cons x l ih =>
    cases i with
    | zero => exact ⟨rfl, rfl⟩
    | succ i => exact ih i

/-- The entry of a present symbol stands at its place in ascending order (rules R314, R651). -/
theorem entryBytes_getElem? {t : Table (BitVec 32)} {b : Byte} (hb : 1 ≤ (t.entry b).toNat) :
    (entryBytes t)[2 * presentBelow t b]? = some b
      ∧ (entryBytes t)[2 * presentBelow t b + 1]? = some ((t.entry b).setWidth 8) := by
  obtain ⟨hsymbol, hcount⟩ := getElem?_flatMap_pair id (fun b => (t.entry b).setWidth 8) (present t) (presentBelow t b)
  rw [present_getElem hb] at hsymbol hcount
  exact ⟨hsymbol, hcount⟩

/-- The entries follow the six fixed bytes (rule R310). -/
theorem headerBytes_getElem?_entry (m : Byte) (n : Word) (p : BitVec 3) (t : Table (BitVec 32)) (k : Nat) :
    (headerBytes m n p t)[6 + k]? = (entryBytes t)[k]? := by
  rw [Nat.add_comm]
  rfl

/-! ### What WRHDR commits -/

/-- The state a successful WRHDR commits (rule R650). -/
def wrhdrCommit (s : State) : State :=
  { s.putBytes 0 (headerBytes s.params.magic s.origSize s.pad s.freq) with
    outLen := BitVec.ofNat 32 (max s.outLen.toNat (headerLength s.freq)) }

/-- When its three checks pass, WRHDR commits the header (rule R650). -/
theorem wrhdr_of_fits {s : State} (hcount : presentCount s.freq ≤ 31) (hcounts : ∀ b, (s.freq.entry b).toNat ≤ 255)
    (hout : 6 + 2 * presentCount s.freq ≤ s.params.obufSize) : wrhdr s = .ok (wrhdrCommit s) := by
  rw [← popcountPresent_eq] at hcount
  rw [← headerLength_eq] at hout
  rw [wrhdr, if_neg (Nat.not_lt.mpr hcount), firstOver_eq_none.mpr hcounts]
  exact if_neg (Nat.not_lt.mpr hout)

/-- OBUF[0 … 6 + 2T − 1] holds the header (rule R650). -/
theorem wrhdrCommit_byteAt_inside {s : State} {k : Nat} {v : Byte}
    (h : (headerBytes s.params.magic s.origSize s.pad s.freq)[k]? = some v) : (wrhdrCommit s).byteAt .obuf k = v := by
  obtain ⟨hk, hv⟩ := List.getElem?_eq_some_iff.mp h
  rw [State.byteAt_writeBytes s (wrhdrCommit s) 0 _ rfl rfl, dif_pos ⟨Nat.zero_le k, by omega⟩]
  exact hv

/-- OBUF from 6 + 2T on is as before (rule R655). -/
theorem wrhdrCommit_byteAt_outside {s : State} {a : Nat} (h : 6 + 2 * presentCount s.freq ≤ a) :
    (wrhdrCommit s).byteAt .obuf a = s.byteAt .obuf a := by
  rw [State.byteAt_writeBytes s (wrhdrCommit s) 0 _ rfl rfl, dif_neg]
  rw [headerBytes_length, headerLength_eq]
  omega

/-- ORIG_SIZE stands big-endian in OBUF[1 … 4] (rules R210, R310). -/
theorem wrhdrCommit_origSize (s : State) :
    ((wrhdrCommit s).byteAt .obuf 1).toNat * 2 ^ 24 + ((wrhdrCommit s).byteAt .obuf 2).toNat * 2 ^ 16
      + ((wrhdrCommit s).byteAt .obuf 3).toNat * 2 ^ 8 + ((wrhdrCommit s).byteAt .obuf 4).toNat = s.origSize.toNat := by
  have hbyte1 : (wrhdrCommit s).byteAt .obuf 1 = s.origSize.extractLsb' 24 8 := wrhdrCommit_byteAt_inside rfl
  have hbyte2 : (wrhdrCommit s).byteAt .obuf 2 = s.origSize.extractLsb' 16 8 := wrhdrCommit_byteAt_inside rfl
  have hbyte3 : (wrhdrCommit s).byteAt .obuf 3 = s.origSize.extractLsb' 8 8 := wrhdrCommit_byteAt_inside rfl
  have hbyte4 : (wrhdrCommit s).byteAt .obuf 4 = s.origSize.extractLsb' 0 8 := wrhdrCommit_byteAt_inside rfl
  rw [hbyte1, hbyte2, hbyte3, hbyte4, bigEndian_wordBytes]

/-- PAD and T share OBUF[5] (rules R212, R313). -/
theorem wrhdrCommit_padSize_toNat {s : State} (hcount : presentCount s.freq ≤ 31) :
    ((wrhdrCommit s).byteAt .obuf 5).toNat = s.pad.toNat * 32 + presentCount s.freq := by
  have hbyte : (wrhdrCommit s).byteAt .obuf 5 = padSizeByte s.pad (popcountPresent s.freq) := wrhdrCommit_byteAt_inside rfl
  rw [hbyte, popcountPresent_eq, padSizeByte_toNat s.pad hcount]

/-- The entry of a present symbol in OBUF: the symbol and its count (rules R314, R651). -/
theorem wrhdrCommit_entry {s : State} {b : Byte} (hb : 1 ≤ (s.freq.entry b).toNat) :
    (wrhdrCommit s).byteAt .obuf (6 + 2 * presentBelow s.freq b) = b
      ∧ (wrhdrCommit s).byteAt .obuf (7 + 2 * presentBelow s.freq b) = (s.freq.entry b).setWidth 8 := by
  obtain ⟨hsymbol, hcount⟩ := entryBytes_getElem? hb
  have hplace : 7 + 2 * presentBelow s.freq b = 6 + (2 * presentBelow s.freq b + 1) := by omega
  rw [hplace]
  exact ⟨wrhdrCommit_byteAt_inside ((headerBytes_getElem?_entry ..).trans hsymbol),
    wrhdrCommit_byteAt_inside ((headerBytes_getElem?_entry ..).trans hcount)⟩

/-- OUT_LEN is the greater of its old value and the header's length, uncut (rule R654). -/
theorem wrhdrCommit_outLen_toNat {s : State} (hcount : presentCount s.freq ≤ 31) :
    (wrhdrCommit s).outLen.toNat = max s.outLen.toNat (6 + 2 * presentCount s.freq) := by
  have hold := s.outLen.isLt
  rw [← headerLength_eq]
  refine (BitVec.toNat_ofNat _ 32).trans (Nat.mod_eq_of_lt ?_)
  rw [headerLength_eq]
  omega

/-- Settles O33: WRHDR runs through its checks to `wrhdrCommit`, whose OBUF is the header inside its range and the old bytes outside;
the entry of a present symbol stands at its rank among the present ones. -/
theorem wrhdrWritesTheHeader : Obligations.WrhdrWritesTheHeader := by
  intro s size hcount hcounts hout
  have hrun : commandRun .wrhdr s = .ok (wrhdrCommit s) := wrhdr_of_fits hcount hcounts hout
  refine ⟨_, exec_of_ok hrun, wrhdrCommit_byteAt_inside rfl, wrhdrCommit_origSize s, wrhdrCommit_padSize_toNat hcount, fun b hb => ?_,
    fun a ha => wrhdrCommit_byteAt_outside ha, wrhdrCommit_outLen_toNat hcount, rfl⟩
  obtain ⟨hsymbol, hbyte⟩ := wrhdrCommit_entry hb
  refine ⟨hsymbol, (congrArg BitVec.toNat hbyte).trans ?_⟩
  rw [BitVec.toNat_setWidth, Nat.mod_eq_of_lt (Nat.lt_succ_of_le (hcounts b))]

/-! ### The table entries RDHDR reads -/

/-- The table with the counts of a list of entries put in. -/
def Table.putEntries (t : Table (BitVec 32)) (es : List (Byte × Byte)) : Table (BitVec 32) :=
  es.foldl (fun t e => t.put e.1 (e.2.setWidth 32)) t

theorem Table.putEntries_cons (t : Table (BitVec 32)) (e : Byte × Byte) (es : List (Byte × Byte)) :
    t.putEntries (e :: es) = (t.put e.1 (e.2.setWidth 32)).putEntries es := rfl

/-- A symbol none of the entries names keeps its count. -/
theorem Table.entry_putEntries_absent {es : List (Byte × Byte)} {b : Byte} (h : b ∉ es.map Prod.fst) (t : Table (BitVec 32)) :
    (t.putEntries es).entry b = t.entry b := by
  induction es generalizing t with
  | nil => rfl
  | cons e es ih =>
    rw [Table.putEntries_cons, ih (List.not_mem_of_not_mem_cons h), Table.entry_put, if_neg (List.ne_of_not_mem_cons h)]

/-- A symbol that one entry alone names has that entry's count. -/
theorem Table.entry_putEntries_of_mem {es : List (Byte × Byte)} (hnodup : (es.map Prod.fst).Nodup) {b c : Byte} (h : (b, c) ∈ es)
    (t : Table (BitVec 32)) : (t.putEntries es).entry b = c.setWidth 32 := by
  induction es generalizing t with
  | nil => exact absurd h List.not_mem_nil
  | cons e es ih =>
    obtain ⟨hnot, hnodup⟩ := List.nodup_cons.mp hnodup
    rw [Table.putEntries_cons]
    rcases List.mem_cons.mp h with rfl | h
    · rw [Table.entry_putEntries_absent hnot, Table.entry_put, if_pos rfl]
    · exact ih hnodup h _

theorem readEntries_zero_count (j : Nat) (b : Byte) (rest : List (Byte × Byte)) (seen : List Byte) (t : Table (BitVec 32)) :
    readEntries j ((b, 0) :: rest) seen t = .error (formatFailure 3 j) := if_pos rfl

theorem readEntries_repeat {b c : Byte} {seen : List Byte} (hc : c ≠ 0) (hb : b ∈ seen) (j : Nat) (rest : List (Byte × Byte))
    (t : Table (BitVec 32)) : readEntries j ((b, c) :: rest) seen t = .error (formatFailure 4 j) := by
  rw [readEntries, if_neg hc, if_pos (List.contains_iff_mem.mpr hb)]

theorem readEntries_good {b c : Byte} {seen : List Byte} (hc : c ≠ 0) (hb : b ∉ seen) (j : Nat) (rest : List (Byte × Byte))
    (t : Table (BitVec 32)) :
    readEntries j ((b, c) :: rest) seen t = readEntries (j + 1) rest (b :: seen) (t.put b (c.setWidth 32)) := by
  rw [readEntries, if_neg hc, if_neg (mt List.contains_iff_mem.mp hb)]

/-- Entries with counts other than zero and with new symbols, no two alike, are put into the table, and the reading goes on behind
them (rules R673, R674). -/
theorem readEntries_append {good : List (Byte × Byte)} {seen : List Byte} (hcount : ∀ e ∈ good, e.2 ≠ 0)
    (hnodup : (good.map Prod.fst).Nodup) (hnew : ∀ e ∈ good, e.1 ∉ seen) (j : Nat) (rest : List (Byte × Byte))
    (t : Table (BitVec 32)) :
    readEntries j (good ++ rest) seen t
      = readEntries (j + good.length) rest ((good.map Prod.fst).reverse ++ seen) (t.putEntries good) := by
  induction good generalizing j seen t with
  | nil => rfl
  | cons e good ih =>
    obtain ⟨hnot, hnodup⟩ := List.nodup_cons.mp hnodup
    have hnew' : ∀ d ∈ good, d.1 ∉ e.1 :: seen := fun d hd =>
      List.not_mem_cons_of_ne_of_not_mem (fun heq => hnot (heq ▸ List.mem_map_of_mem hd)) (hnew d (List.mem_cons_of_mem e hd))
    rw [List.cons_append, readEntries_good (hcount e List.mem_cons_self) (hnew e List.mem_cons_self),
      ih (fun d hd => hcount d (List.mem_cons_of_mem e hd)) hnodup hnew', Table.putEntries_cons, List.length_cons,
      Nat.add_right_comm, Nat.add_assoc, List.map_cons, List.reverse_cons, List.append_assoc, List.singleton_append]

/-! ### The entries of the input -/

/-- The first `j` entries are good: no zero count, and no symbol that repeats an earlier entry's (rule R674). -/
def State.EntriesGood (s : State) (j : Nat) : Prop :=
  ∀ i < j, s.byteAt .ibuf (7 + 2 * i) ≠ 0 ∧ ∀ k < i, s.byteAt .ibuf (6 + 2 * k) ≠ s.byteAt .ibuf (6 + 2 * i)

theorem inputEntries_symbols (s : State) (j : Nat) :
    (s.inputEntries j).map Prod.fst = (List.range j).map fun i => s.byteAt .ibuf (6 + 2 * i) := List.map_map

theorem mem_inputEntries {s : State} {i j : Nat} (h : i < j) :
    (s.byteAt .ibuf (6 + 2 * i), s.byteAt .ibuf (7 + 2 * i)) ∈ s.inputEntries j :=
  List.mem_map.mpr ⟨i, List.mem_range.mpr h, rfl⟩

theorem mem_inputEntries_symbols {s : State} {j : Nat} {b : Byte} :
    b ∈ (s.inputEntries j).map Prod.fst ↔ ∃ i < j, s.byteAt .ibuf (6 + 2 * i) = b := by
  simp [inputEntries_symbols]

/-- The entries before entry `j`, that entry, and those behind it. -/
theorem inputEntries_split (s : State) {j size : Nat} (h : j < size) : ∃ rest,
    s.inputEntries size = s.inputEntries j ++ (s.byteAt .ibuf (6 + 2 * j), s.byteAt .ibuf (7 + 2 * j)) :: rest := by
  obtain ⟨n, rfl⟩ : ∃ n, size = j + n + 1 := Nat.exists_eq_add_of_lt h
  rw [Nat.add_assoc, State.inputEntries, List.range_add, List.map_append, List.range_succ_eq_map]
  exact ⟨_, rfl⟩

theorem State.EntriesGood.symbols_nodup {s : State} {j : Nat} (h : s.EntriesGood j) : ((s.inputEntries j).map Prod.fst).Nodup := by
  rw [inputEntries_symbols, List.Nodup, List.pairwise_map]
  exact List.pairwise_lt_range.imp_of_mem fun _ hi hlt => (h _ (List.mem_range.mp hi)).2 _ hlt

/-- RDHDR gets through the entries that are good (rule R674). -/
theorem State.EntriesGood.readEntries_append {s : State} {j : Nat} (h : s.EntriesGood j) (rest : List (Byte × Byte))
    (t : Table (BitVec 32)) :
    readEntries 0 (s.inputEntries j ++ rest) [] t
      = readEntries j rest ((s.inputEntries j).map Prod.fst).reverse (t.putEntries (s.inputEntries j)) := by
  have hcount : ∀ e ∈ s.inputEntries j, e.2 ≠ 0 := fun e he => by
    obtain ⟨i, hi, rfl⟩ := List.mem_map.mp he
    exact (h i (List.mem_range.mp hi)).1
  have hlength : (s.inputEntries j).length = j := List.length_map _ |>.trans List.length_range
  rw [Machine.readEntries_append hcount h.symbols_nodup fun _ _ => List.not_mem_nil, List.append_nil, hlength, Nat.zero_add]

/-! ### How RDHDR's checks end -/

theorem rdhdr_of_tooLong {s : State} (h : s.params.ibufSize < s.inLen.toNat) :
    rdhdr s = .raised { kind := .ioFailure, info := 0 } s := if_pos h

theorem rdhdr_of_empty {s : State} (h : s.inLen = 0) : rdhdr s = .raised (formatFailure 1 0) s := by
  have hzero : s.inLen.toNat = 0 := congrArg BitVec.toNat h
  rw [rdhdr, if_neg (by omega), if_pos (by omega)]

/-- The magic is checked before the length of six (rule R672). -/
theorem rdhdr_of_badMagic {s : State} (hpos : 1 ≤ s.inLen.toNat) (hin : s.inLen.toNat ≤ s.params.ibufSize)
    (hmagic : s.byteAt .ibuf 0 ≠ s.params.magic) : rdhdr s = .raised (formatFailure 2 0) s := by
  rw [rdhdr, if_neg (Nat.not_lt.mpr hin), if_neg (Nat.not_lt.mpr hpos), if_pos hmagic]

/-- An input too short for the fixed bytes or for the table they announce is truncated (rule R671). -/
theorem rdhdr_of_truncated {s : State} (hpos : 1 ≤ s.inLen.toNat) (hin : s.inLen.toNat ≤ s.params.ibufSize)
    (hmagic : s.byteAt .ibuf 0 = s.params.magic)
    (hshort : s.inLen.toNat < 6 ∨ s.inLen.toNat < 6 + 2 * ((s.byteAt .ibuf 5).toNat % 32)) :
    rdhdr s = .raised (formatFailure 1 0) s := by
  rw [← sizeField_eq] at hshort
  rw [rdhdr, if_neg (Nat.not_lt.mpr hin), if_neg (Nat.not_lt.mpr hpos), if_neg (not_not_intro hmagic)]
  rcases hshort with hfixed | htable
  · rw [if_pos hfixed]
  · rw [if_pos htable, ite_self]

/-- The state a successful RDHDR commits, `t` being the table it has read (rule R670). -/
def rdhdrCommit (s : State) (t : Table (BitVec 32)) : State :=
  { s.invalidate with
    freq := t
    origSize := s.inputWord 1
    pad := padField (s.byteAt .ibuf 5)
    inOff := BitVec.ofNat 32 (6 + 2 * sizeField (s.byteAt .ibuf 5)) }

section Entries

variable {s : State} (hin : s.inLen.toNat ≤ s.params.ibufSize) (hmagic : s.byteAt .ibuf 0 = s.params.magic)
  (hlen : 6 + 2 * ((s.byteAt .ibuf 5).toNat % 32) ≤ s.inLen.toNat)

include hin hmagic hlen

/-- With length and magic sound, RDHDR raises the failure of the first bad entry (rule R674). -/
theorem rdhdr_of_badEntry {f : Failure}
    (h : readEntries 0 (s.inputEntries ((s.byteAt .ibuf 5).toNat % 32)) [] (Table.tabulate fun _ => 0) = .error f) :
    rdhdr s = .raised f s := by
  rw [← sizeField_eq] at hlen h
  rw [rdhdr, if_neg (Nat.not_lt.mpr hin), if_neg (by omega), if_neg (not_not_intro hmagic), if_neg (by omega),
    if_neg (Nat.not_lt.mpr hlen), h]

/-- With length and magic sound, RDHDR commits the table of the entries (rule R670). -/
theorem rdhdr_of_goodEntries {t : Table (BitVec 32)}
    (h : readEntries 0 (s.inputEntries ((s.byteAt .ibuf 5).toNat % 32)) [] (Table.tabulate fun _ => 0) = .ok t) :
    rdhdr s = .ok (rdhdrCommit s t) := by
  rw [← sizeField_eq] at hlen h
  rw [rdhdr, if_neg (Nat.not_lt.mpr hin), if_neg (by omega), if_neg (not_not_intro hmagic), if_neg (by omega),
    if_neg (Nat.not_lt.mpr hlen), h]
  rfl

end Entries

/-- IN_OFF is the header's length (rule R676). -/
theorem rdhdrCommit_inOff_toNat (s : State) (t : Table (BitVec 32)) :
    (rdhdrCommit s t).inOff.toNat = 6 + 2 * ((s.byteAt .ibuf 5).toNat % 32) := by
  rw [rdhdrCommit, sizeField_eq, BitVec.toNat_ofNat]
  omega

/-- Settles O36: one equation of RDHDR per check; the two last clauses are the two ways to be truncated. -/
theorem rdhdrChecksLengthAndMagicInOrder : Obligations.RdhdrChecksLengthAndMagicInOrder := by
  intro s
  refine ⟨fun hlong => ?_, fun hempty => ?_, fun hpos hin hmagic => ?_, fun hpos hin hmagic hshort => ?_,
    fun hsix hin hmagic hshort => ?_⟩
  · exact exec_of_raised (i := .rdhdr) (rdhdr_of_tooLong hlong)
  · exact exec_of_raised (i := .rdhdr) (rdhdr_of_empty hempty)
  · exact exec_of_raised (i := .rdhdr) (rdhdr_of_badMagic hpos hin hmagic)
  · exact exec_of_raised (i := .rdhdr) (rdhdr_of_truncated hpos hin hmagic (.inl hshort))
  · exact exec_of_raised (i := .rdhdr) (rdhdr_of_truncated (by omega) hin hmagic (.inr hshort))

/-- Settles O35: all entries are good, so RDHDR commits the zero table with each of them put in, under its own symbol alone. -/
theorem rdhdrReadsTheHeader : Obligations.RdhdrReadsTheHeader := by
  intro s size hin hmagic hlen hcounts hdistinct
  have hgood : s.EntriesGood size := fun j hj => ⟨hcounts j hj, hdistinct j hj⟩
  have hread := hgood.readEntries_append [] (Table.tabulate fun _ => 0)
  rw [List.append_nil] at hread
  have hrun : commandRun .rdhdr s = .ok (rdhdrCommit s ((Table.tabulate fun _ => 0).putEntries (s.inputEntries size))) :=
    rdhdr_of_goodEntries hin hmagic hlen hread
  refine ⟨_, exec_of_ok hrun, fun j hj => ?_, fun b hb => ?_, inputWord_toNat s 1, padField_toNat _, rdhdrCommit_inOff_toNat s
    ((Table.tabulate fun _ => 0).putEntries (s.inputEntries size)), rfl⟩
  · have hentry := Table.entry_putEntries_of_mem hgood.symbols_nodup (mem_inputEntries hj) (Table.tabulate fun _ => 0)
    exact (congrArg BitVec.toNat hentry).trans (BitVec.toNat_setWidth_of_le (by decide))
  · have habsent : b ∉ (s.inputEntries size).map Prod.fst := fun hmem => by
      obtain ⟨j, hj, hsymbol⟩ := mem_inputEntries_symbols.mp hmem
      exact hb j hj hsymbol
    exact (Table.entry_putEntries_absent habsent _).trans (Table.entry_tabulate _ b)

/-- Settles O37: RDHDR gets through the good entries before entry j, and entry j raises its failure, the zero count first. -/
theorem rdhdrReportsItsFirstBadEntry : Obligations.RdhdrReportsItsFirstBadEntry := by
  intro s j size repeats hin hmagic hlen hj hbefore
  have hgood : s.EntriesGood j := fun i hi =>
    ⟨(hbefore i hi).1, fun k hk hsame => (hbefore i hi).2 ⟨k, hk, hsame⟩⟩
  obtain ⟨rest, hsplit⟩ := inputEntries_split s hj
  have hread := hgood.readEntries_append ((s.byteAt .ibuf (6 + 2 * j), s.byteAt .ibuf (7 + 2 * j)) :: rest)
    (Table.tabulate fun _ => 0)
  rw [← hsplit] at hread
  refine ⟨fun hzero => ?_, fun hcount hrepeats => ?_⟩
  · rw [hzero, readEntries_zero_count] at hread
    exact exec_of_raised (i := .rdhdr) (rdhdr_of_badEntry hin hmagic hlen hread)
  · rw [readEntries_repeat hcount (List.mem_reverse.mpr (mem_inputEntries_symbols.mpr hrepeats))] at hread
    exact exec_of_raised (i := .rdhdr) (rdhdr_of_badEntry hin hmagic hlen hread)

end Sys2Proof.Machine
end

section
/-! PROOFS. CLEAR, and the composite commands as their sub-steps run one after the other (rules R705, R720, R730). -/

namespace Sys2Proof.Machine

/-! ### How a chain of sub-steps completes -/

theorem ErrorKind.code_ne_zero (k : ErrorKind) : k.code ≠ 0 := by
  cases k <;> decide

/-- A sub-step run alone sees DONE 1 and BUSY 0 where a composite command is still under way; it ends alike in both (rule R720). -/
def IgnoresCompletion (k : State → Run) : Prop := ∀ s, (k s.succeed).complete = (k s).complete

theorem complete_of_exec {i : Instr} {s t : State} (h : exec i s = .next t) : (commandRun i s).complete = t :=
  Host.Outcome.next.inj ((exec_eq i s).symm.trans h)

theorem exec_of_complete {i : Instr} {s t : State} (h : (commandRun i s).complete = t) : exec i s = .next t :=
  (exec_eq i s).trans (congrArg _ h)

/-- A run that completes with ERRCODE 0 has committed (rules R800, R820). -/
theorem Run.ok_of_complete {r : Run} {t : State} (h : r.complete = t) (ht : t.errcode = 0) : ∃ u, r = .ok u ∧ u.succeed = t := by
  cases r with
  | ok u => exact ⟨u, rfl, h⟩
  | raised f u => exact absurd ((congrArg State.errcode h).trans ht) f.kind.code_ne_zero

/-- After a sub-step that succeeds, the next one ends as it does from the state the first one completes in (rule R720). -/
theorem Run.andThen_complete {r : Run} {k : State → Run} {t u : State} (hk : IgnoresCompletion k) (hr : r.complete = t)
    (ht : t.errcode = 0) (hu : (k t).complete = u) : (r.andThen k).complete = u := by
  obtain ⟨v, rfl, rfl⟩ := Run.ok_of_complete hr ht
  exact (hk v).symm.trans hu

/-- After a sub-step that fails, nothing more runs (rule R720). -/
theorem Run.andThen_of_failed {r : Run} {t : State} (hkept : r.state.errcode = 0) (hr : r.complete = t) (ht : t.errcode ≠ 0)
    (k : State → Run) : r.andThen k = r := by
  cases r with
  | ok u => exact absurd ((congrArg State.errcode hr).symm.trans hkept) ht
  | raised f u => rfl

/-- ERRCODE is still 0 where the next sub-step ends, be it with success or with an error to report (rule R822). -/
theorem Run.andThen_state_errcode {r : Run} {k : State → Run} {t : State} (hk : ∀ s, (k s).state.errcode = s.errcode)
    (hr : r.complete = t) (ht : t.errcode = 0) : (r.andThen k).state.errcode = 0 := by
  obtain ⟨u, rfl, rfl⟩ := Run.ok_of_complete hr ht
  exact (hk u).trans ht

/-! ### The sub-steps ignore completion -/

/-- Two checks on one condition complete alike when their branches do. -/
theorem Run.complete_ite {p : Prop} [Decidable p] {a a' b b' : Run} (ha : a.complete = a'.complete) (hb : b.complete = b'.complete) :
    (if p then a else b).complete = (if p then a' else b').complete := by
  split
  · exact ha
  · exact hb

theorem norm_ignoresCompletion : IgnoresCompletion norm := fun s => Run.complete_ite rfl <| by
  rw [State.succeed_params, State.succeed_freq]
  cases s.params.policy with
  | saturate => rfl
  | fault => cases firstOver s.freq <;> rfl

theorem build_ignoresCompletion : IgnoresCompletion build := fun s => by
  rw [build, build, State.succeed_freq]
  cases huffmanTree s.freq <;> rfl

theorem gencode_ignoresCompletion : IgnoresCompletion gencode := fun _ => Run.complete_ite rfl rfl

theorem setPayloadOffset_ignoresCompletion : IgnoresCompletion setPayloadOffset := fun _ => rfl

theorem pack_ignoresCompletion : IgnoresCompletion pack := fun s => Run.complete_ite rfl <| Run.complete_ite rfl <| by
  have hinput : s.succeed.input s.succeed.inLen.toNat = s.input s.inLen.toNat := rfl
  simp only [hinput, State.succeed_codeLen]
  cases firstMissing s.codeLen (s.input s.inLen.toNat) with
  | some i => rfl
  | none => exact Run.complete_ite rfl rfl

theorem wrhdr_ignoresCompletion : IgnoresCompletion wrhdr := fun s => Run.complete_ite rfl <| by
  rw [State.succeed_freq]
  cases firstOver s.freq with
  | some b => rfl
  | none => exact Run.complete_ite rfl rfl

theorem unpackBits_ignoresCompletion : IgnoresCompletion unpackBits := fun _ =>
  Run.complete_ite rfl <| Run.complete_ite rfl <| Run.complete_ite rfl rfl

theorem unpack_ignoresCompletion : IgnoresCompletion unpack := fun s =>
  Run.complete_ite rfl <| Run.complete_ite rfl <| Run.complete_ite rfl <| by
    have hleaf : singleLeaf s.succeed = singleLeaf s := rfl
    rw [hleaf]
    cases singleLeaf s with
    | some b => rfl
    | none => exact unpackBits_ignoresCompletion s

/-! ### No run writes ERRCODE, only its completion does -/

theorem analyze_state_errcode (s : State) : (analyze s).state.errcode = s.errcode := by
  rcases analyze_cases s with ⟨f, hraised⟩ | ⟨-, -, hok⟩
  · rw [hraised, Run.state_raised]
  · rw [hok, Run.state_ok]

theorem norm_state_errcode (s : State) : (norm s).state.errcode = s.errcode := by
  rcases norm_cases s with ⟨f, hraised⟩ | ⟨-, -, -, hfault⟩ | ⟨-, -, hsaturate⟩
  · rw [hraised, Run.state_raised]
  · rw [hfault, Run.state_ok, State.invalidate_errcode]
  · rw [hsaturate, Run.state_ok, State.invalidate_errcode]

theorem build_state_errcode (s : State) : (build s).state.errcode = s.errcode := by
  rcases build_cases s with ⟨-, hraised⟩ | ⟨arena, r, -, hok⟩
  · rw [hraised, Run.state_raised]
  · rw [hok, Run.state_ok]

theorem pack_state_errcode (s : State) : (pack s).state.errcode = s.errcode := by
  rcases pack_cases s with ⟨f, lo, hi, hraised⟩ | ⟨stream, -, -, -, -, -, hok⟩
  · rw [hraised, Run.state_raised, State.spoil_errcode]
  · rw [hok, Run.state_ok, State.putBytes_errcode]

theorem rdhdr_state_errcode (s : State) : (rdhdr s).state.errcode = s.errcode := by
  rcases rdhdr_cases s with ⟨f, hraised⟩ | ⟨t, -, -, -, -, hok⟩
  · rw [hraised, Run.state_raised]
  · rw [hok, Run.state_ok, State.invalidate_errcode]

/-! ### What the sub-steps of COMPRESS leave for the next ones -/

theorem presentCount_pos_of_entry {t : Table (BitVec 32)} {b : Byte} (h : 1 ≤ (t.entry b).toNat) : 1 ≤ presentCount t := by
  rw [← popcountPresent_eq, popcountPresent]
  exact List.length_pos_of_mem (mem_present.mpr h)

theorem presentCount_saturate (t : Table (BitVec 32)) : presentCount (saturate t) = presentCount t := by
  have hpresent (k : Nat) : (1 ≤ ((saturate t).entry (BitVec.ofNat 8 k)).toNat) = (1 ≤ (t.entry (BitVec.ofNat 8 k)).toNat) := by
    rw [saturate_entry, Nat.le_min, eq_iff_iff]
    omega
  simp only [presentCount, hpresent]

/-- An ANALYZE that succeeds leaves a table that is not empty, so BUILD has something to build (rules R401, R450). -/
theorem presentCount_pos_of_analyze {s a : State} (h : exec .analyze s = .next a) (ha : a.errcode = 0) :
    1 ≤ presentCount a.freq := by
  obtain ⟨t, hok, rfl⟩ := Run.ok_of_complete (complete_of_exec h) ha
  rcases analyze_cases s with ⟨f, hraised⟩ | ⟨hpos, -, hcommit⟩
  · exact Run.noConfusion (hraised.symm.trans hok)
  · obtain rfl := Run.ok.inj (hcommit.symm.trans hok)
    refine presentCount_pos_of_entry (b := s.byteAt .ibuf 0) ?_
    rw [State.succeed_freq, countBytes_input_entry]
    exact List.countP_pos_iff.mpr ⟨0, List.mem_range.mpr hpos, beq_self_eq_true _⟩

/-- A NORM that succeeds leaves as many present symbols, at most 31, with counts of at most 255 (rules R420, R423). -/
theorem capacity_of_norm {a b : State} (h : exec .norm a = .next b) (hb : b.errcode = 0) :
    presentCount b.freq = presentCount a.freq ∧ presentCount b.freq ≤ 31 ∧ ∀ x, (b.freq.entry x).toNat ≤ 255 := by
  obtain ⟨t, hok, rfl⟩ := Run.ok_of_complete (complete_of_exec h) hb
  rcases norm_cases a with ⟨f, hraised⟩ | ⟨hcount, -, hwithin, hcommit⟩ | ⟨hcount, -, hcommit⟩
  · exact Run.noConfusion (hraised.symm.trans hok)
  · obtain rfl := Run.ok.inj (hcommit.symm.trans hok)
    exact ⟨rfl, (popcountPresent_eq a.freq).symm.trans_le hcount, firstOver_eq_none.mp hwithin⟩
  · obtain rfl := Run.ok.inj (hcommit.symm.trans hok)
    rw [State.succeed_freq, presentCount_saturate, ← popcountPresent_eq]
    exact ⟨rfl, hcount, fun x => (saturate_entry a.freq x).trans_le (Nat.min_le_right _ _)⟩

/-- On a table that is not empty neither BUILD nor the GENCODE after it can fail, and both keep the table (rules R450, R500). -/
theorem build_gencode_succeed {b c d : State} (hpos : 1 ≤ presentCount b.freq) (hc : exec .build b = .next c)
    (hd : exec .gencode c = .next d) : c.errcode = b.errcode ∧ d.errcode = b.errcode ∧ d.freq = b.freq := by
  obtain ⟨arena, r, -, hcommit⟩ := exec_build_next hpos hc
  have htree : c.treeV = true := by rw [hcommit, State.succeed_treeV]
  obtain rfl := Host.Outcome.next.inj ((exec_gencode_of_tree htree).symm.trans hd)
  have hc0 : c.errcode = b.errcode := by rw [hcommit, State.succeed_errcode]
  have hfreq : c.freq = b.freq := by rw [hcommit, State.succeed_freq]
  exact ⟨hc0, hc0, hfreq⟩

/-- A PACK that succeeds keeps FREQ and has its payload inside OBUF, so the header's room before OUT_OFF is there too (rule R555). -/
theorem offset_fits_of_pack {s e : State} (h : exec .pack s = .next e) (he : e.errcode = 0) :
    e.freq = s.freq ∧ s.outOff.toNat ≤ e.params.obufSize := by
  obtain ⟨t, hok, rfl⟩ := Run.ok_of_complete (complete_of_exec h) he
  rcases pack_cases s with ⟨f, lo, hi, hraised⟩ | ⟨stream, -, -, -, -, hout, hcommit⟩
  · exact Run.noConfusion (hraised.symm.trans hok)
  · obtain rfl := Run.ok.inj (hcommit.symm.trans hok)
    exact ⟨rfl, (Nat.le_add_right _ _).trans hout⟩

/-- With the offset COMPRESS gives PACK, WRHDR cannot fail after a PACK that succeeds: the table is within capacity and the header
ends where the payload begins (rules R720, R811). -/
theorem wrhdr_succeeds_after_pack {d e f : State} (hcount : presentCount d.freq ≤ 31) (hcounts : ∀ b, (d.freq.entry b).toNat ≤ 255)
    (he : exec .pack { d with outOff := BitVec.ofNat 32 (6 + 2 * presentCount d.freq) } = .next e) (he0 : e.errcode = 0)
    (hf : exec .wrhdr e = .next f) : f.errcode = 0 := by
  obtain ⟨hkept, hout⟩ := offset_fits_of_pack he he0
  have hfit : 6 + 2 * presentCount d.freq < 2 ^ 32 := by omega
  rw [BitVec.toNat_ofNat, Nat.mod_eq_of_lt hfit] at hout
  rw [← show e.freq = d.freq from hkept] at hcount hcounts hout
  have hrun : commandRun .wrhdr e = .ok (wrhdrCommit e) := wrhdr_of_fits hcount hcounts hout
  obtain rfl := Host.Outcome.next.inj ((exec_of_ok hrun).symm.trans hf)
  exact he0

/-! ### The composite commands -/

/-- Settles O39: COMPRESS stops at the first sub-step that fails, and completes as WRHDR does when all before it succeed; BUILD and
GENCODE succeed on the table a good NORM leaves, and WRHDR in the room PACK's offset has kept for it. -/
theorem compressRunsItsSteps : Obligations.CompressRunsItsSteps := by
  intro s a b c d e f hs ha
  have hthroughA : (analyze s).complete = a := complete_of_exec ha
  refine ⟨fun hfail => ?_, fun ha0 hb => ?_⟩
  · have hstop := Run.andThen_of_failed ((analyze_state_errcode s).trans hs) hthroughA hfail
    exact exec_of_complete (i := .compress) (by simp only [commandRun, compress, hstop, hthroughA])
  have hthroughB := Run.andThen_complete norm_ignoresCompletion hthroughA ha0 (complete_of_exec hb)
  refine ⟨fun hfail => ?_, fun hb0 hc hd he => ?_⟩
  · have hstop := Run.andThen_of_failed (Run.andThen_state_errcode norm_state_errcode hthroughA ha0) hthroughB hfail
    exact exec_of_complete (i := .compress) (by simp only [commandRun, compress, hstop, hthroughB])
  obtain ⟨hsame, hcount, hcounts⟩ := capacity_of_norm hb hb0
  obtain ⟨hc0, hd0, hfreq⟩ := build_gencode_succeed ((presentCount_pos_of_analyze ha ha0).trans_eq hsame.symm) hc hd
  rw [hb0] at hc0 hd0
  have hthroughC := Run.andThen_complete build_ignoresCompletion hthroughB hb0 (complete_of_exec hc)
  have hthroughD := Run.andThen_complete gencode_ignoresCompletion hthroughC hc0 (complete_of_exec hd)
  have hthroughOffset := Run.andThen_complete setPayloadOffset_ignoresCompletion hthroughD hd0 rfl
  have hpack : (pack (setPayloadOffset d).complete).complete = e := by
    refine (pack_ignoresCompletion _).trans (complete_of_exec (i := .pack) ?_)
    rw [headerLength_eq]
    exact he
  have hthroughE := Run.andThen_complete pack_ignoresCompletion hthroughOffset hd0 hpack
  refine ⟨fun hfail => ?_, fun he0 hf => ⟨?_, ?_⟩⟩
  · have hkept := Run.andThen_state_errcode pack_state_errcode hthroughOffset hd0
    have hstop := Run.andThen_of_failed hkept hthroughE hfail
    exact exec_of_complete (i := .compress) (by simp only [commandRun, compress, hstop, hthroughE])
  · rw [← hfreq] at hcount hcounts
    exact wrhdr_succeeds_after_pack hcount hcounts he he0 hf
  · exact exec_of_complete (i := .compress) (Run.andThen_complete wrhdr_ignoresCompletion hthroughE he0 (complete_of_exec hf))

/-- Settles O42: DECOMPRESS stops at the first sub-step that fails, and completes as UNPACK does when both before it succeed. -/
theorem decompressRunsItsSteps : Obligations.DecompressRunsItsSteps := by
  intro s a b c hs ha
  have hthroughA : (rdhdr s).complete = a := complete_of_exec ha
  refine ⟨fun hfail => ?_, fun ha0 hb => ?_⟩
  · have hstop := Run.andThen_of_failed ((rdhdr_state_errcode s).trans hs) hthroughA hfail
    exact exec_of_complete (i := .decompress) (by simp only [commandRun, decompress, hstop, hthroughA])
  have hthroughB := Run.andThen_complete build_ignoresCompletion hthroughA ha0 (complete_of_exec hb)
  refine ⟨fun hfail => ?_, fun hb0 hc => ?_⟩
  · have hstop := Run.andThen_of_failed (Run.andThen_state_errcode build_state_errcode hthroughA ha0) hthroughB hfail
    exact exec_of_complete (i := .decompress) (by simp only [commandRun, decompress, hstop, hthroughB])
  · exact exec_of_complete (i := .decompress)
      (Run.andThen_complete unpack_ignoresCompletion hthroughB hb0 (complete_of_exec hc))

/-! ### CLEAR -/

/-- Settles O12: CLEAR's constant tables are the reset tables, and every other element it writes is a reset value as it stands. -/
theorem clearRestoresResetValues : Obligations.ClearRestoresResetValues := by
  intro s
  refine (exec_of_ok (i := .clear) rfl).trans ?_
  simp only [Table.tabulate_const]
  rfl

end Sys2Proof.Machine
end

section
/-! PROOFS. The interrupt output: what raises it and what clears it (rule R840). -/

namespace Sys2Proof.Machine

/-! ### No command writes CTRL.IE -/

theorem analyze_state_ie (s : State) : (analyze s).state.ie = s.ie := by
  rcases analyze_cases s with ⟨f, hraised⟩ | ⟨-, -, hok⟩
  · rw [hraised, Run.state_raised]
  · rw [hok, Run.state_ok]

theorem norm_state_ie (s : State) : (norm s).state.ie = s.ie := by
  rcases norm_cases s with ⟨f, hraised⟩ | ⟨-, -, -, hfault⟩ | ⟨-, -, hsaturate⟩
  · rw [hraised, Run.state_raised]
  · rw [hfault, Run.state_ok, State.invalidate_ie]
  · rw [hsaturate, Run.state_ok, State.invalidate_ie]

theorem build_state_ie (s : State) : (build s).state.ie = s.ie := by
  rcases build_cases s with ⟨-, hraised⟩ | ⟨arena, r, -, hok⟩
  · rw [hraised, Run.state_raised]
  · rw [hok, Run.state_ok]

theorem gencode_state_ie (s : State) : (gencode s).state.ie = s.ie := by
  rcases gencode_cases s with ⟨-, hraised⟩ | ⟨-, hok⟩
  · rw [hraised, Run.state_raised]
  · rw [hok, Run.state_ok]

theorem pack_state_ie (s : State) : (pack s).state.ie = s.ie := by
  rcases pack_cases s with ⟨f, lo, hi, hraised⟩ | ⟨stream, -, -, -, -, -, hok⟩
  · rw [hraised, Run.state_raised, State.spoil_ie]
  · rw [hok, Run.state_ok, State.putBytes_ie]

theorem unpack_state_ie (s : State) : (unpack s).state.ie = s.ie := by
  rcases unpack_cases s with ⟨f, hraised⟩ | ⟨out, consumed, -, -, -, -, hok⟩
  · rw [hraised, Run.state_raised, State.spoil_ie]
  · rw [hok, Run.state_ok, unpackCommit, State.putBytes_ie]

theorem wrhdr_state_ie (s : State) : (wrhdr s).state.ie = s.ie := by
  rcases wrhdr_cases s with ⟨f, hraised⟩ | ⟨-, -, -, hok⟩
  · rw [hraised, Run.state_raised, State.spoil_ie]
  · rw [hok, Run.state_ok, State.putBytes_ie]

theorem rdhdr_state_ie (s : State) : (rdhdr s).state.ie = s.ie := by
  rcases rdhdr_cases s with ⟨f, hraised⟩ | ⟨t, -, -, -, -, hok⟩
  · rw [hraised, Run.state_raised]
  · rw [hok, Run.state_ok, State.invalidate_ie]

theorem commandRun_state_ie (i : Instr) (s : State) : (commandRun i s).state.ie = s.ie :=
  commandRun_keeps (P := fun t => t.ie = s.ie) (fun _ h => h) (fun t h => (analyze_state_ie t).trans h)
    (fun t h => (norm_state_ie t).trans h) (fun t h => (build_state_ie t).trans h) (fun t h => (gencode_state_ie t).trans h)
    (fun _ h => h) (fun t h => (pack_state_ie t).trans h) (fun t h => (unpack_state_ie t).trans h)
    (fun t h => (wrhdr_state_ie t).trans h) (fun t h => (rdhdr_state_ie t).trans h) i s rfl

/-! ### What raises and what clears irq -/

theorem State.irq_eq_true_iff (s : State) : s.irq = true ↔ s.done = true ∧ s.ie = true := Bool.and_eq_true_iff

theorem State.irq_of_done {s : State} (h : s.done = true) : s.irq = s.ie := by
  rw [State.irq, h, Bool.true_and]

theorem State.irq_of_done_eq_false {s : State} (h : s.done = false) : s.irq = false := by
  rw [State.irq, h, Bool.false_and]

theorem State.irq_of_ie_eq_false {s : State} (h : s.ie = false) : s.irq = false := by
  rw [State.irq, h, Bool.and_false]

/-- A completion, successful or failed, sets DONE, so it raises irq exactly under CTRL.IE (rules R820, R822). -/
theorem Run.complete_irq (r : Run) : r.complete.irq = r.state.ie := by
  cases r with
  | ok s => exact State.irq_of_done s.succeed_done
  | raised f s => exact State.irq_of_done (s.failCommand_done f)

theorem exec_irq {i : Instr} {s t : State} (h : exec i s = .next t) : t.irq = s.ie := by
  rw [← complete_of_exec h, Run.complete_irq, commandRun_state_ie]

/-- The start of a command clears DONE (rule R822). -/
theorem startCommand_irq (s : State) (w : Word) : (s.startCommand w).irq = false :=
  State.irq_of_done_eq_false (s.accept_done w (Config.latency s.draws))

theorem ackStatus_irq (s : State) {v : Word} (h : v.getLsbD 1 = true) : (s.ackStatus v).irq = false := by
  refine State.irq_of_done_eq_false ?_
  rw [State.ackStatus_done, h, Bool.not_true, Bool.and_false]

/-- A write of STATUS is honoured whether or not a command is in flight (rules R151, R950). -/
theorem hostWriteReg_status (s : State) (v : Word) : hostWriteReg s .status v = s.ackStatus v := by
  rw [hostWriteReg, writeRegBusy, writeReg, ite_self]

theorem state_of_writeReg {off : BitVec 12} {s t : State} {v : Word} (hoff : registerFault .word off = none)
    (h : hostAccess (.writeReg .word off v) s = .next t) : hostWriteReg s (regAt off) v = t :=
  Host.Outcome.next.inj ((hostAccess_writeReg hoff s v).symm.trans h)

/-- Settles O54: a completion sets DONE and keeps CTRL.IE, and each clearing event clears one of the two bits irq is made of. -/
theorem interruptFollowsDoneAndEnable : Obligations.InterruptFollowsDoneAndEnable := by
  refine ⟨State.irq_eq_true_iff, rfl, fun _ _ _ => exec_irq, fun s t w hidle h => ?start, fun s t v h hack => ?ack,
    fun s t v hidle h hdisable => ?disable⟩
  case start =>
    have ht : hostWriteReg s .cmd w = t := state_of_writeReg rfl h
    rw [← ht, hostWriteReg_idle hidle, writeReg, startCommand_irq]
  case ack =>
    have ht : hostWriteReg s .status v = t := state_of_writeReg rfl h
    rw [← ht, hostWriteReg_status, ackStatus_irq s hack]
  case disable =>
    have ht : hostWriteReg s .ctrl v = t := state_of_writeReg rfl h
    rw [← ht, hostWriteReg_idle hidle, writeReg, State.irq_of_ie_eq_false hdisable]

end Sys2Proof.Machine
end

section
/-! PROOFS. Command words and whose step it is: decoding and encoding, what starts a command, and what completes it (rules R230, R300
to R302, R740, R940, R941). -/

namespace Sys2Proof.Machine

/-! ### The opcode map -/

theorem mem_of_lookupOpcode {op : Byte} {i : Instr} {rows : List (Byte × Instr)} (h : lookupOpcode op rows = some i) :
    (op, i) ∈ rows := by
  induction rows with
  | nil => cases h
  | cons row rows ih =>
    rw [lookupOpcode] at h
    split at h
    case isTrue heq =>
      obtain rfl := Option.some.inj h
      rw [heq]
      exact List.mem_cons_self
    case isFalse => exact List.mem_cons_of_mem _ (ih h)

theorem opcodeTable_row_opcode : ∀ row ∈ opcodeTable, row.1 = opcode row.2 := by decide

/-- The opcode map gives a command for its own opcode and for no other (rule R302). -/
theorem lookupOpcode_eq_some_iff {op : Byte} {i : Instr} : lookupOpcode op opcodeTable = some i ↔ op = opcode i := by
  refine ⟨fun h => opcodeTable_row_opcode _ (mem_of_lookupOpcode h), ?_⟩
  rintro rfl
  cases i <;> rfl

/-- A word is a command's iff its reserved bits are 0 and its opcode is the command's (rule R300). -/
theorem eq_encode_iff {w : Word} {i : Instr} : w = encode i ↔ w.extractLsb' 8 24 = 0#24 ∧ opcodeField w = opcode i := by
  have hlow : (opcodeField w).toNat = w.toNat % 2 ^ 8 := by
    rw [opcodeField, BitVec.extractLsb'_toNat, Nat.shiftRight_zero]
  have hhigh : (w.extractLsb' 8 24).toNat = w.toNat / 2 ^ 8 := by
    rw [BitVec.extractLsb'_toNat, Nat.shiftRight_eq_div_pow]
    omega
  rw [encode, ← BitVec.toNat_inj, ← BitVec.toNat_inj, ← BitVec.toNat_inj, hlow, hhigh, toNat_append_eq_add, BitVec.toNat_ofNat]
  omega

theorem decode_eq_ok_iff {w : Word} {i : Instr} :
    decode w = .ok i ↔ w.extractLsb' 8 24 = 0#24 ∧ lookupOpcode (opcodeField w) opcodeTable = some i := by
  rw [decode]
  by_cases hclear : w.extractLsb' 8 24 = 0#24
  · cases hlookup : lookupOpcode (opcodeField w) opcodeTable <;> simp [hclear]
  · simp [hclear]

theorem decode_eq_ok_iff_eq_encode {w : Word} {i : Instr} : decode w = .ok i ↔ w = encode i := by
  rw [decode_eq_ok_iff, lookupOpcode_eq_some_iff, eq_encode_iff]

/-- Settles O2: the decoder accepts exactly the words with reserved bits 0 and the command's opcode, and the command's word is the
one such word. -/
theorem decodeAndEncodeAgree : Obligations.DecodeAndEncodeAgree := fun _ _ _ => decode_eq_ok_iff_eq_encode

/-- Settles O1: each word of the map is its command's word. -/
theorem specWordsDecode : Obligations.SpecWordsDecode := by
  refine ⟨?_, ?_, ?_, ?_, ?_, ?_, ?_, ?_, ?_, ?_, ?_, ?_⟩ <;> exact decode_eq_ok_iff_eq_encode.mpr rfl

/-- A word that is no command's is not decoded (rule R301). -/
theorem decode_error_of_ne_encode {w : Word} (h : ∀ i, w ≠ encode i) : ∃ e, decode w = .error e := by
  cases hdecode : decode w with
  | ok i => exact absurd (decode_eq_ok_iff_eq_encode.mp hdecode) (h i)
  | error e => exact ⟨e, rfl⟩

/-! ### Whose step it is -/

theorem step_idle {s : State} (h : s.inflight = none) : step s = hostTurn s := by
  rw [step, advance, h]

theorem step_waiting {s : State} {w : Word} {n : Nat} (h : s.inflight = some { word := w, latency := n + 1 }) :
    step s = hostTurn { s with inflight := some { word := w, latency := n } } := by
  rw [step, advance, h]

theorem step_completing {s : State} {w : Word} (h : s.inflight = some { word := w, latency := 0 }) : step s = completeWord w s := by
  rw [step, advance, h]

theorem hostTurn_nil {s : State} (h : s.host = []) : hostTurn s = .next s := by
  rw [hostTurn, h]

theorem hostTurn_cons {s : State} {op : HostOp} {ops : List HostOp} (h : s.host = op :: ops) :
    hostTurn s = hostAccess op { s with host := ops } := by
  rw [hostTurn, h]

theorem completeWord_ok {w : Word} {i : Instr} (h : decode w = .ok i) (s : State) : completeWord w s = exec i s := by
  rw [completeWord, h]

theorem completeWord_error {w : Word} {e : DecodeError} (h : decode w = .error e) (s : State) :
    completeWord w s = .next (s.failedWith 9 w) := by
  rw [completeWord, h]
  rfl

/-- Settles O4: with no latency left the step completes the word, and the word is a command's. -/
theorem stepRunsTheDecodedCommand : Obligations.StepRunsTheDecodedCommand := fun s _ _ hinflight hdecode =>
  (step_completing hinflight).trans (completeWord_ok hdecode s)

/-- Settles O5: an idle or a waiting step is a turn of the host, and such a turn is its first pending access. -/
theorem stepGivesTheHostItsTurn : Obligations.StepGivesTheHostItsTurn := fun _ =>
  ⟨fun hidle hnone => (step_idle hidle).trans (hostTurn_nil hnone),
    fun _ _ hidle hops => (step_idle hidle).trans (hostTurn_cons hops),
    fun _ _ hwaiting hnone => (step_waiting hwaiting).trans (hostTurn_nil hnone),
    fun _ _ _ _ hwaiting hops => (step_waiting hwaiting).trans (hostTurn_cons hops)⟩

/-! ### The start of a command -/

/-- Settles O6: offset 0 is CMD's, and an idle write of CMD starts the command with the latency drawn. -/
theorem cmdWriteStartsACommand : Obligations.CmdWriteStartsACommand := by
  intro s w hidle
  refine ⟨Config.latency s.draws, (hostAccess_writeReg rfl s w).trans ?_⟩
  rw [hostWriteReg_idle hidle]
  rfl

/-- Settles O3: the start does not look at the word, and the completion of a word that is not decoded is the failure rule's. -/
theorem illegalWordsFailWithTheWord : Obligations.IllegalWordsFailWithTheWord := by
  intro s w hillegal
  obtain ⟨e, hdecode⟩ := decode_error_of_ne_encode hillegal
  exact ⟨cmdWriteStartsACommand s w, fun hinflight => (step_completing hinflight).trans (completeWord_error hdecode s)⟩

/-! ### Completion -/

theorem Run.complete_inflight (r : Run) : r.complete.inflight = none := by
  cases r <;> rfl

theorem Run.complete_done (r : Run) : r.complete.done = true := by
  cases r <;> rfl

/-- Every word completes, a command's and an illegal one (rules R740, R940). -/
theorem completeWord_completes (w : Word) (s : State) :
    ∃ t, completeWord w s = .next t ∧ t.inflight = none ∧ t.done = true := by
  cases hdecode : decode w with
  | ok i => exact ⟨_, (completeWord_ok hdecode s).trans (exec_eq i s), Run.complete_inflight _, Run.complete_done _⟩
  | error e => exact ⟨_, completeWord_error hdecode s, rfl, rfl⟩

/-- The host only waits: it polls, awaits the interrupt or makes no access. -/
def OnlyWaits (ops : List HostOp) : Prop := ∀ op ∈ ops, op = .poll ∨ op = .awaitIrq ∨ op = .pause

/-- A turn of a host that only waits leaves the command in flight, and a host that only waits. -/
theorem hostTurn_of_onlyWaits {s : State} (h : OnlyWaits s.host) :
    ∃ t, hostTurn s = .next t ∧ t.inflight = s.inflight ∧ OnlyWaits t.host := by
  cases hhost : s.host with
  | nil => exact ⟨s, hostTurn_nil hhost, rfl, h⟩
  | cons op ops =>
    rw [hhost] at h
    have hrest : OnlyWaits ops := fun o ho => h o (List.mem_cons_of_mem op ho)
    rw [hostTurn_cons hhost]
    rcases h op List.mem_cons_self with rfl | rfl | rfl
    · refine ⟨_, rfl, ?_⟩
      rw [State.hostPoll]
      split
      · exact ⟨rfl, h⟩
      · exact ⟨rfl, hrest⟩
    · refine ⟨_, rfl, ?_⟩
      split
      · exact ⟨rfl, hrest⟩
      · exact ⟨rfl, h⟩
    · exact ⟨_, rfl, rfl, hrest⟩

theorem run_succ_of_next {M : Host.Core} {s t : M.State} (h : M.step s = .next t) (k : Nat) : M.run (k + 1) s = M.run k t := by
  rw [Host.Core.run, h]

theorem run_succ_of_step {s t : State} (h : step s = .next t) (k : Nat) :
    Host.Core.run core (k + 1) s = Host.Core.run core k t := run_succ_of_next (M := core) h k

/-- Settles O7, by induction on the latency: each turn of the waiting host counts it down, and the step at 0 completes. -/
theorem startedCommandCompletes : Obligations.StartedCommandCompletes := by
  intro s w n hinflight hhost
  induction n generalizing s with
  | zero =>
    obtain ⟨t, hcomplete, hdone⟩ := completeWord_completes w s
    exact ⟨t, run_succ_of_step ((step_completing hinflight).trans hcomplete) 0, hdone⟩
  | succ n ih =>
    obtain ⟨t, hturn, hkept, hwaits⟩ :=
      hostTurn_of_onlyWaits (s := { s with inflight := some { word := w, latency := n } }) hhost
    obtain ⟨u, hrun, hdone⟩ := ih t hkept hwaits
    exact ⟨u, (run_succ_of_step ((step_waiting hinflight).trans hturn) (n + 1)).trans hrun, hdone⟩

end Sys2Proof.Machine
end

section
/-! PROOFS. The codes of a valid tree: who has one, their lengths, that none begins another, and completeness (rules R502 to R507). -/

namespace Sys2Proof.Machine

/-! ### The codes of a tree -/

namespace CodeTree

/-- The codes of a tree: "0" for a single leaf (rule R503), else each leaf's path (rule R501). -/
def codes : CodeTree → List (Byte × Bits)
  | .leaf b => [(b, [false])]
  | .node l r => (CodeTree.node l r).paths

theorem codes_syms (t : CodeTree) : t.codes.map Prod.fst = t.syms := by
  cases t with
  | leaf b => rfl
  | node l r => exact paths_syms (.node l r)

theorem code_ne_nil {t : CodeTree} {c : Byte × Bits} (h : c ∈ t.codes) : c.2 ≠ [] := by
  cases t with
  | leaf b =>
    obtain rfl := List.mem_singleton.mp h
    exact List.cons_ne_nil _ _
  | node l r => exact ne_nil_of_mem_paths_node h

/-- A code has at most n − 1 bits, or is the one bit of a single leaf (rules R503, R506). -/
theorem code_length_le {t : CodeTree} {c : Byte × Bits} (h : c ∈ t.codes) : c.2.length ≤ max 1 (t.syms.length - 1) := by
  cases t with
  | leaf b =>
    obtain rfl := List.mem_singleton.mp h
    exact Nat.le_max_left _ _
  | node l r =>
    have hpath := path_le_depth (.node l r) c h
    have hdepth := depth_lt (.node l r)
    omega

/-- No leaf's code begins another leaf's (rule R504). -/
theorem codes_prefixFree (t : CodeTree) : t.codes.Pairwise fun c d => ¬ c.2 <+: d.2 ∧ ¬ d.2 <+: c.2 := by
  cases t with
  | leaf b => exact List.pairwise_singleton _ _
  | node l r => exact paths_prefixFree (.node l r)

theorem not_prefix_of_mem_codes {t : CodeTree} {c d : Byte × Bits} (hc : c ∈ t.codes) (hd : d ∈ t.codes) (hne : c ≠ d) :
    ¬ c.2 <+: d.2 := by
  have : Std.Symm fun c d : Byte × Bits => ¬ c.2 <+: d.2 ∧ ¬ d.2 <+: c.2 := ⟨fun _ _ h => h.symm⟩
  exact (t.codes_prefixFree.forall hc hd hne).1

end CodeTree

/-- The tree TREE_V promises, with the codes GENCODE reads off it (rules R114, R501, R503). -/
theorem State.ValidityOk.codes {s : State} (hvalid : s.ValidityOk) (htree : s.treeV = true) :
    ∃ tree, Grows (fun j => s.node[j]?) s.root.toNat tree ∧ tree.syms.Perm (present s.freq)
      ∧ treeCodes s.node s.root = tree.codes := by
  obtain ⟨-, tree, hgrows, hperm⟩ := hvalid.tree htree
  have hdepth : tree.depth < 511 := by
    have := tree.depth_lt
    have := hperm.length_eq.trans (popcountPresent_eq s.freq)
    have := presentCount_le s.freq
    omega
  refine ⟨tree, hgrows, hperm, (treeCodes_grows hgrows hdepth).trans ?_⟩
  cases tree <;> rfl

/-! ### The code table of a tree over the present symbols -/

section CodeTable

variable {tree : CodeTree} {freq : Table (BitVec 32)} (hperm : tree.syms.Perm (present freq))

include hperm

theorem syms_length : tree.syms.length = presentCount freq :=
  hperm.length_eq.trans (popcountPresent_eq freq)

theorem mem_codes_syms_iff {b : Byte} : b ∈ tree.codes.map Prod.fst ↔ 1 ≤ (freq.entry b).toNat := by
  rw [tree.codes_syms, hperm.mem_iff, mem_present]

theorem codes_syms_nodup : (tree.codes.map Prod.fst).Nodup := by
  rw [tree.codes_syms]
  exact hperm.nodup_iff.mpr (present_nodup freq)

theorem code_of_mem_codes {c : Byte × Bits} (h : c ∈ tree.codes) : (codeTable tree.codes).entry c.1 = c.2 :=
  codeTable_entry (codes_syms_nodup hperm) h

/-- A present symbol's entry of the code table is the code of its leaf. -/
theorem mem_codes_of_present {b : Byte} (hb : 1 ≤ (freq.entry b).toNat) : (b, (codeTable tree.codes).entry b) ∈ tree.codes := by
  obtain ⟨⟨_, p⟩, hmem, rfl⟩ := List.mem_map.mp ((mem_codes_syms_iff hperm).mpr hb)
  rwa [code_of_mem_codes hperm hmem]

/-- An absent symbol has no code (rule R502). -/
theorem code_of_absent {b : Byte} (hb : ¬ 1 ≤ (freq.entry b).toNat) : (codeTable tree.codes).entry b = [] :=
  codeTable_entry_absent (mt (mem_codes_syms_iff hperm).mp hb)

theorem code_pos_iff {b : Byte} : 1 ≤ ((codeTable tree.codes).entry b).length ↔ 1 ≤ (freq.entry b).toNat := by
  by_cases hb : 1 ≤ (freq.entry b).toNat
  · have hne := CodeTree.code_ne_nil (mem_codes_of_present hperm hb)
    exact iff_of_true (List.length_pos_iff.mpr hne) hb
  · rw [code_of_absent hperm hb]
    exact iff_of_false (by simp) hb

theorem codeTable_length_le (b : Byte) : ((codeTable tree.codes).entry b).length ≤ max 1 (presentCount freq - 1) := by
  by_cases hb : 1 ≤ (freq.entry b).toNat
  · rw [← syms_length hperm]
    exact CodeTree.code_length_le (mem_codes_of_present hperm hb)
  · rw [code_of_absent hperm hb]
    exact Nat.zero_le _

/-- CODE_LEN has room for every code's length (rules R113, R506). -/
theorem codeLengths_toNat (b : Byte) :
    ((codeLengths (codeTable tree.codes)).entry b).toNat = ((codeTable tree.codes).entry b).length := by
  have hle := codeTable_length_le hperm b
  have hcount := presentCount_le freq
  rw [codeLengths_entry, BitVec.toNat_ofNat, Nat.mod_eq_of_lt (by omega)]

/-- A sum over the present symbols is the sum over the leaves of the tree. -/
theorem sum_present_codes (f : Byte → Nat) : ((present freq).map f).sum = (tree.codes.map fun c => f c.1).sum := by
  rw [← (hperm.map f).sum_eq, ← tree.codes_syms, List.map_map]
  rfl

end CodeTable

/-- What GENCODE leaves on a valid tree: the code table of the tree and the lengths of its codes (rule R500). -/
theorem exec_gencode_codes {s t : State} (hvalid : s.ValidityOk) (htree : s.treeV = true) (h : exec .gencode s = .next t) :
    ∃ tree : CodeTree, tree.syms.Perm (present s.freq) ∧ t.code = codeTable tree.codes
      ∧ t.codeLen = codeLengths (codeTable tree.codes) := by
  obtain ⟨tree, -, hperm, hcodes⟩ := hvalid.codes htree
  obtain rfl := Host.Outcome.next.inj ((exec_gencode_of_tree htree).symm.trans h)
  exact ⟨tree, hperm, congrArg codeTable hcodes, congrArg (fun cs => codeLengths (codeTable cs)) hcodes⟩

/-- Settles O22: the present symbols are the leaves, and a leaf's code is not empty. -/
theorem exactlyPresentSymbolsHaveCodes : Obligations.ExactlyPresentSymbolsHaveCodes := by
  intro s t hvalid htree hexec b
  obtain ⟨tree, hperm, -, hlen⟩ := exec_gencode_codes hvalid htree hexec
  rw [hlen, codeLengths_toNat hperm]
  exact code_pos_iff hperm

/-- Settles O23: the codes of two symbols are the codes of two leaves. -/
theorem codesArePrefixFree : Obligations.CodesArePrefixFree := by
  intro s t hvalid htree hexec b c hne hb hc
  obtain ⟨tree, hperm, hcode, -⟩ := exec_gencode_codes hvalid htree hexec
  have hpresent := exactlyPresentSymbolsHaveCodes s t hvalid htree hexec
  rw [hcode]
  exact CodeTree.not_prefix_of_mem_codes (mem_codes_of_present hperm ((hpresent b).mp hb))
    (mem_codes_of_present hperm ((hpresent c).mp hc)) fun heq => hne (congrArg Prod.fst heq)

/-- Settles O24: a path of a tree of n leaves has at most n − 1 bits, which CODE_LEN holds uncut. -/
theorem codeLengthsAreBounded : Obligations.CodeLengthsAreBounded := by
  intro s t hvalid htree hcount hexec
  obtain ⟨tree, hperm, hcode, hlen⟩ := exec_gencode_codes hvalid htree hexec
  refine ⟨fun k _ => ?_, fun b => ?_⟩
  · rw [hlen, hcode, codeLengths_toNat hperm]
  · have hle := codeTable_length_le hperm b
    rw [hcode]
    omega

/-- A sum over all symbols in which only the present ones count is the sum over the present ones. -/
theorem sum_symbols_ite_present (t : Table (BitVec 32)) (f : Byte → Nat) :
    ((List.range 256).map fun k => if 1 ≤ (t.entry (BitVec.ofNat 8 k)).toNat then f (BitVec.ofNat 8 k) else 0).sum
      = ((present t).map f).sum := by
  have hmap : ((List.range 256).map fun k => if 1 ≤ (t.entry (BitVec.ofNat 8 k)).toNat then f (BitVec.ofNat 8 k) else 0)
      = symbols.map fun b => if 1 ≤ (t.entry b).toNat then f b else 0 := by
    rw [symbols, List.map_map]
    rfl
  rw [hmap, List.sum_map_ite, present_eq]
  simp

/-- Settles O25: the sum over the present symbols is the sum over the leaves' paths, which are complete. -/
theorem codeIsComplete : Obligations.CodeIsComplete := by
  intro s t hvalid htree hcount hexec
  obtain ⟨tree, hperm, -, hlen⟩ := exec_gencode_codes hvalid htree hexec
  have hsyms := syms_length hperm
  have hdepth := tree.depth_lt
  have hle := presentCount_le s.freq
  obtain ⟨l, r, rfl⟩ := tree_node (hcount.trans_eq hsyms.symm)
  have hterm : ∀ c ∈ (CodeTree.node l r).codes, 2 ^ (255 - (t.codeLen.entry c.1).toNat) = 2 ^ (255 - c.2.length) := fun c hc => by
    rw [hlen, codeLengths_toNat hperm, code_of_mem_codes hperm hc]
  rw [sum_symbols_ite_present s.freq fun b => 2 ^ (255 - (t.codeLen.entry b).toNat), sum_present_codes hperm,
    List.map_congr_left hterm]
  exact CodeTree.paths_complete (.node l r) (by omega)

end Sys2Proof.Machine
end

section
/-! PROOFS. BUILD: when it succeeds, that it leaves a tree, and that its merges are greedy (rules R450 to R459). -/

namespace Sys2Proof.Machine

/-! ### When BUILD succeeds -/

/-- The state a successful BUILD commits, given the tree as NODE, ROOT and NNODES hold it (rule R450). -/
def buildCommit (s : State) (node : Vector Node 511) (root : BitVec 9) (nnodes : BitVec 10) : State :=
  { s with node := node, root := root, nnodes := nnodes, treeV := true, codeV := false }

theorem treeOf_of_huffmanTree {t : Table (BitVec 32)} {arena : List Node} {r : Nat} (h : huffmanTree t = some (arena, r)) :
    treeOf t = some (arenaOf arena, BitVec.ofNat 9 r, BitVec.ofNat 10 arena.length) := by
  rw [treeOf, h, Option.map_some]

/-- BUILD commits the tree of FREQ (rules R114, R450). -/
theorem build_of_treeOf {s : State} {node : Vector Node 511} {root : BitVec 9} {nnodes : BitVec 10}
    (h : treeOf s.freq = some (node, root, nnodes)) : build s = .ok (buildCommit s node root nnodes) := by
  obtain ⟨⟨arena, r⟩, htree, heq⟩ := Option.map_eq_some_iff.mp h
  obtain ⟨rfl, rfl, rfl⟩ : arenaOf arena = node ∧ BitVec.ofNat 9 r = root ∧ BitVec.ofNat 10 arena.length = nnodes := by
    simpa only [Prod.mk.injEq] using heq
  rw [build, htree]
  rfl

theorem build_of_empty {s : State} (h : presentCount s.freq = 0) :
    build s = .raised { kind := .invalidFrequencyTable, info := 0 } s := by
  rw [build, huffmanTree_eq_none.mpr h]

/-- ROOT has room for the index of the root. -/
theorem root_toNat {t : Table (BitVec 32)} {arena : List Node} {r : Nat} (h : huffmanTree t = some (arena, r)) :
    (BitVec.ofNat 9 r).toNat = r := by
  obtain ⟨-, -, -, hroot⟩ := huffmanTree_some h
  have := presentCount_le t
  rw [BitVec.toNat_ofNat, Nat.mod_eq_of_lt (by omega)]

/-- A table that is not empty has a tree, with its root last (rules R450, R459). -/
theorem exists_treeOf {t : Table (BitVec 32)} (hpos : 1 ≤ presentCount t) :
    ∃ node root nnodes, treeOf t = some (node, root, nnodes) ∧ root.toNat = 2 * presentCount t - 2
      ∧ nnodes.toNat = 2 * presentCount t - 1 := by
  cases htree : huffmanTree t with
  | none => exact absurd (huffmanTree_eq_none.mp htree) (by omega)
  | some p =>
    obtain ⟨arena, r⟩ := p
    obtain ⟨-, -, hlen, hroot⟩ := huffmanTree_some htree
    exact ⟨_, _, _, treeOf_of_huffmanTree htree, (root_toNat htree).trans hroot,
      (nnodes_toNat (huffmanTree_length_le htree)).trans hlen⟩

/-- Settles O16: BUILD computes a tree exactly for a table that is not empty, and the tree of n leaves has 2n − 1 entries. -/
theorem buildCompletesWithRootAndCount : Obligations.BuildCompletesWithRootAndCount := by
  intro s
  refine ⟨fun hempty => exec_of_raised (i := .build) (build_of_empty hempty), fun hpos => ?_⟩
  obtain ⟨node, root, nnodes, htree, hroot, hnnodes⟩ := exists_treeOf hpos
  exact ⟨_, exec_of_ok (i := .build) (build_of_treeOf htree), hroot, hnnodes, rfl⟩

/-! ### The entries BUILD leaves -/

/-- After BUILD the entries, ROOT and NNODES are those of the computed tree. -/
theorem exec_build_entries {s t : State} (hpos : 1 ≤ presentCount s.freq) (h : exec .build s = .next t) :
    ∃ arena r, huffmanTree s.freq = some (arena, r) ∧ t.root.toNat = r ∧ t.nnodes.toNat = arena.length
      ∧ ∀ i, t.entryAt i = arena.getD i Node.zero := by
  obtain ⟨arena, r, htree, hcommit⟩ := exec_build_next hpos h
  have hfit := huffmanTree_length_le htree
  have hnode : t.node = arenaOf arena := by rw [hcommit, State.succeed_node]
  have hroot : t.root.toNat = r := by rw [hcommit, State.succeed_root, root_toNat htree]
  have hnnodes : t.nnodes.toNat = arena.length := by rw [hcommit, State.succeed_nnodes, nnodes_toNat hfit]
  exact ⟨arena, r, htree, hroot, hnnodes, entryAt_of_node hnode hfit⟩

section Tree

variable {t : Table (BitVec 32)} {arena : List Node} {r : Nat} (htree : huffmanTree t = some (arena, r))

include htree

theorem huffmanTree_internal_iff {i : Nat} (hi : i < arena.length) :
    (arena.getD i Node.zero).leaf = false ↔ presentCount t ≤ i := by
  rw [← Bool.not_eq_true, huffmanTree_leaf_iff htree hi, Nat.not_lt]

/-- The entry in front number `i` is the leaf of the i-th present symbol (rule R451). -/
theorem huffmanTree_leaf_entry {i : Nat} (hi : i < presentCount t) :
    ∃ b, (present t)[i]? = some b ∧ arena.getD i Node.zero = leafNode t b := by
  obtain ⟨-, hmerges, -, -⟩ := huffmanTree_some htree
  have hlt : i < (present t).length := by
    have hcount : (present t).length = presentCount t := popcountPresent_eq t
    omega
  refine ⟨(present t)[i], List.getElem?_eq_getElem hlt, hmerges.getD_of_leaf ?_⟩
  rw [leaves, List.getElem?_map, List.getElem?_eq_getElem hlt, Option.map_some]

theorem huffmanTree_childOf_iff {j k : Nat} : ChildOf (leaves t) arena j k ↔
    k < arena.length ∧ (arena.getD k Node.zero).leaf = false
      ∧ ((arena.getD k Node.zero).left.toNat = j ∨ (arena.getD k Node.zero).right.toNat = j) := by
  rw [ChildOf, leaves_length]
  constructor
  · rintro ⟨hinternal, hlt, hchild⟩
    exact ⟨hlt, (huffmanTree_internal_iff htree hlt).mpr hinternal, hchild⟩
  · rintro ⟨hlt, hinternal, hchild⟩
    exact ⟨(huffmanTree_internal_iff htree hlt).mp hinternal, hlt, hchild⟩

/-- Every entry but the root has exactly one parent (rule R458 (c)). -/
theorem huffmanTree_parent {j : Nat} (hj : j < arena.length) (hne : j ≠ r) : ∃! k, ChildOf (leaves t) arena j k := by
  obtain ⟨hpos, hmerges, -, -⟩ := huffmanTree_some htree
  have hle := presentCount_le t
  rw [← leaves_length] at hpos hle
  rcases hmerges.parents hpos hle j hj with ⟨hactive, -⟩ | ⟨-, hparent⟩
  · exact absurd (List.mem_singleton.mp hactive) hne
  · exact hparent

/-- Entry `i` is the leaf of `b` iff `b` is the i-th present symbol (rules R451, R458 (d)). -/
theorem huffmanTree_leaf_sym_iff {i : Nat} {b : Byte} :
    (i < arena.length ∧ (arena.getD i Node.zero).leaf = true ∧ (arena.getD i Node.zero).sym = b) ↔ (present t)[i]? = some b := by
  obtain ⟨hpos, -, hlen, -⟩ := huffmanTree_some htree
  constructor
  · rintro ⟨hlt, hleaf, rfl⟩
    obtain ⟨c, hc, hentry⟩ := huffmanTree_leaf_entry htree ((huffmanTree_leaf_iff htree hlt).mp hleaf)
    rw [hentry]
    exact hc
  · intro hb
    have hcount : (present t).length = presentCount t := popcountPresent_eq t
    obtain ⟨hlt, -⟩ := List.getElem?_eq_some_iff.mp hb
    obtain ⟨c, hc, hentry⟩ := huffmanTree_leaf_entry htree (hlt.trans_eq hcount)
    obtain rfl := Option.some.inj (hc.symm.trans hb)
    rw [hentry]
    exact ⟨by omega, rfl, rfl⟩

end Tree

theorem presentBelow_unique {t : Table (BitVec 32)} {b : Byte} {i : Nat} (h : (present t)[i]? = some b) : i = presentBelow t b := by
  have hb : 1 ≤ (t.entry b).toNat := mem_present.mp (List.mem_of_getElem? h)
  have hlt := (List.getElem?_eq_some_iff.mp h).1
  exact (List.getElem?_inj hlt (present_nodup t)).mp (h.trans (present_getElem hb).symm)

/-- Settles O18: the children of an internal entry are earlier ones, the leaves are in front, every entry but the one left active
has one parent, and leaf i is the i-th present symbol's. -/
theorem buildMakesATree : Obligations.BuildMakesATree := by
  intro s t hpos hexec
  obtain ⟨arena, r, htree, hroot, hnnodes, hentry⟩ := exec_build_entries hpos hexec
  obtain ⟨-, hmerges, hlen, -⟩ := huffmanTree_some htree
  have hle := presentCount_le s.freq
  simp only [hroot, hnnodes, hentry]
  refine ⟨fun i hi hinternal => ?_, fun i hi hleaf => ?_, fun j hj hne => ?_, fun b => ?_⟩
  · have hbehind := (huffmanTree_internal_iff htree hi).mp hinternal
    rw [← leaves_length] at hpos hle hbehind
    obtain ⟨-, hleft, hright, hdiff⟩ := hmerges.child_lt hpos hle hbehind hi
    exact ⟨fun heq => hdiff (congrArg BitVec.toNat heq), hleft, hright⟩
  · obtain ⟨b, -, hleafNode⟩ := huffmanTree_leaf_entry htree ((huffmanTree_leaf_iff htree hi).mp hleaf)
    rw [hleafNode]
    exact ⟨rfl, rfl⟩
  · simpa only [huffmanTree_childOf_iff htree] using huffmanTree_parent htree hj hne
  · simp only [huffmanTree_leaf_sym_iff htree]
    exact ⟨fun hb => ⟨presentBelow s.freq b, present_getElem hb, fun _ => presentBelow_unique⟩,
      fun ⟨i, hi, _⟩ => mem_present.mp (List.mem_of_getElem? hi)⟩

/-! ### Greedy merges -/

theorem getD_take {arena : List Node} {i k : Nat} (h : k < i) : (arena.take i).getD k Node.zero = arena.getD k Node.zero := by
  rw [List.getD_eq_getElem?_getD, List.getElem?_take_of_lt h, List.getD_eq_getElem?_getD]

theorem nodeFreq_take {arena : List Node} {i k : Nat} (h : k < i) :
    nodeFreq (arena.take i) k = (arena.getD k Node.zero).nfreq.toNat := by
  rw [nodeFreq, getD_take h]

/-- The counts of the present symbols fit the 40 bits of NFREQ together (rule R457). -/
theorem leaves_sum_lt (t : Table (BitVec 32)) : ((leaves t).map fun n => n.nfreq.toNat).sum < 2 ^ 40 := by
  have hcount : ∀ c ∈ (leaves t).map (fun n => n.nfreq.toNat), c ≤ 2 ^ 32 - 1 := fun c hc => by
    obtain ⟨n, hn, rfl⟩ := List.mem_map.mp hc
    obtain ⟨b, -, rfl⟩ := List.mem_map.mp hn
    have hlt := (t.entry b).isLt
    have hnfreq : (leafNode t b).nfreq.toNat = (t.entry b).toNat := BitVec.toNat_setWidth_of_le (by decide)
    omega
  have hsum := List.sum_le_card_nsmul _ _ hcount
  have hle := presentCount_le t
  rw [List.length_map, leaves_length, smul_eq_mul] at hsum
  omega

/-- The sum of the leaves' frequencies is the sum of all counts. -/
theorem leaves_sum (t : Table (BitVec 32)) :
    ((leaves t).map fun n => n.nfreq.toNat).sum = ((List.range 256).map fun k => (t.entry (BitVec.ofNat 8 k)).toNat).sum := by
  have hnfreq (b : Byte) : (leafNode t b).nfreq.toNat = (t.entry b).toNat := BitVec.toNat_setWidth_of_le (by decide)
  have hall (k : Nat) : (if 1 ≤ (t.entry (BitVec.ofNat 8 k)).toNat then (t.entry (BitVec.ofNat 8 k)).toNat else 0)
      = (t.entry (BitVec.ofNat 8 k)).toNat := by
    split <;> omega
  rw [leaves, List.map_map]
  simp only [Function.comp_def, hnfreq]
  rw [← sum_symbols_ite_present t fun b => (t.entry b).toNat]
  simp only [hall]

/-- An internal entry's frequency is the exact sum of its children's: all active frequencies together fit NFREQ (rule R457). -/
theorem Merges.mergedNode_nfreq_toNat {ls arena : List Node} {active : List Nat} (h : Merges ls arena active)
    (hfit : (ls.map fun n => n.nfreq.toNat).sum < 2 ^ 40) {a b : Nat} (ha : leastOf arena active = some a)
    (hb : leastOf arena (active.erase a) = some b) :
    (mergedNode arena a b).nfreq.toNat = nodeFreq arena a + nodeFreq arena b := by
  have hsum := h.sum hfit
  have ha' := List.sum_map_erase (nodeFreq arena) (leastOf_some ha).1
  have hb' := List.sum_map_erase (nodeFreq arena) (leastOf_some hb).1
  rw [mergedNode, BitVec.toNat_ofNat, Nat.mod_eq_of_lt (by omega)]

/-- At the time of entry `i` the unmerged entries are the active ones (rule R453). -/
theorem unmergedAt_iff_mem_active {s : State} {t : Table (BitVec 32)} {arena : List Node} {r i : Nat} {act : List Nat}
    (htree : huffmanTree t = some (arena, r)) (hentry : ∀ i, s.entryAt i = arena.getD i Node.zero) (hi : i < arena.length)
    (hm : Merges (leaves t) (arena.take i) act) {j : Nat} : s.UnmergedAt i j ↔ j ∈ act := by
  obtain ⟨hpos, -, -, -⟩ := huffmanTree_some htree
  have hle := presentCount_le t
  rw [← leaves_length] at hpos hle
  have hlength : (arena.take i).length = i := List.length_take_of_le hi.le
  have hchild : ∀ k, ChildOf (leaves t) (arena.take i) j k ↔
      k < i ∧ (s.entryAt k).leaf = false ∧ ((s.entryAt k).left.toNat = j ∨ (s.entryAt k).right.toNat = j) := fun k => by
    rw [ChildOf, hlength, leaves_length, hentry]
    by_cases hk : k < i
    · rw [getD_take hk, huffmanTree_internal_iff htree (hk.trans hi)]
      tauto
    · tauto
  have hunmerged : s.UnmergedAt i j ↔ j < i ∧ ∀ k, ¬ ChildOf (leaves t) (arena.take i) j k := by
    simp only [State.UnmergedAt, hchild, not_and, not_or]
  rw [hunmerged]
  constructor
  · rintro ⟨hj, hno⟩
    rcases hm.parents hpos hle j (hj.trans_eq hlength.symm) with ⟨hactive, -⟩ | ⟨-, k, hk, -⟩
    · exact hactive
    · exact absurd hk (hno k)
  · intro hactive
    have hj := hm.active_rising.2 j hactive
    refine ⟨hj.trans_eq hlength, ?_⟩
    rcases hm.parents hpos hle j hj with ⟨-, hno⟩ | ⟨hnot, -⟩
    · exact hno
    · exact absurd hactive hnot

/-- The order of keys at the time of entry `i` is the order of the keys BUILD leaves (rule R453). -/
theorem keyBefore_of_keyLess {s : State} {arena : List Node} {i j k : Nat} (hentry : ∀ i, s.entryAt i = arena.getD i Node.zero)
    (hj : j < i) (hk : k < i) (h : keyLess (arena.take i) j k = true) : s.KeyBefore j k := by
  rw [keyLess_iff, nodeFreq_take hj, nodeFreq_take hk] at h
  rw [State.KeyBefore, hentry, hentry]
  exact h.imp_right fun ⟨heq, hlt⟩ => ⟨BitVec.eq_of_toNat_eq heq, hlt⟩

/-- Settles O19: entry i is the merge of the two active entries of least key, and the last active entry has the whole sum. -/
theorem buildMergesTheTwoLeastKeys : Obligations.BuildMergesTheTwoLeastKeys := by
  intro s t hpos hexec
  obtain ⟨arena, r, htree, hroot, hnnodes, hentry⟩ := exec_build_entries hpos hexec
  obtain ⟨-, hmerges, hlen, -⟩ := huffmanTree_some htree
  have hle := presentCount_le s.freq
  refine ⟨fun i hi hinternal => ?_, ?_⟩
  · rw [hnnodes] at hi
    rw [← leaves_length] at hinternal
    obtain ⟨act, a, b, hm, ha, hb, hmerged⟩ := hmerges.history hinternal hi
    obtain ⟨hmemA, hmemB, hne, hleastA, hleastB⟩ := hm.children ha hb
    have hunmerged (j : Nat) : t.UnmergedAt i j ↔ j ∈ act := unmergedAt_iff_mem_active htree hentry hi hm
    have hlt : ∀ j ∈ act, j < i := fun j hj => (hm.active_rising.2 j hj).trans_eq (List.length_take_of_le hi.le)
    have hltA := hlt a hmemA
    have hltB := hlt b hmemB
    have hnode : t.entryAt i = mergedNode (arena.take i) a b := by
      rw [hentry, List.getD_eq_getElem?_getD, hmerged, Option.getD_some]
    have hsum := hm.mergedNode_nfreq_toNat (leaves_sum_lt s.freq) ha hb
    rw [nodeFreq_take hltA, nodeFreq_take hltB, ← hentry, ← hentry] at hsum
    simp only [hnode, mergedNode_left (arena := arena.take i) (b := b) (show a < 512 by omega),
      mergedNode_right (arena := arena.take i) (a := a) (show b < 512 by omega), hunmerged]
    exact ⟨hmemA, fun j hj hja => keyBefore_of_keyLess hentry hltA (hlt j hj) (hleastA j hj hja), hmemB, hne.symm,
      fun j hj hja hjb => keyBefore_of_keyLess hentry hltB (hlt j hj) (hleastB j hj hja hjb), hsum⟩
  · have hsum := hmerges.sum (leaves_sum_lt s.freq)
    rw [leaves_sum, List.map_singleton, List.sum_singleton, nodeFreq] at hsum
    rw [hroot, hentry]
    exact hsum

end Sys2Proof.Machine
end

section
/-! PROOFS. What every run of a command keeps: the host's side, the error registers, and the bounds of OBUF and OUT_LEN (rules R122
to R127, R206, R403, R820, R822). -/

namespace Sys2Proof.Machine

/-! ### The relation -/

/-- `t` has the parameters, CTRL.IE, IN_LEN, IBUF and the host's side of `s` (rules R122 to R124, R200). -/
def State.SameInputs (s t : State) : Prop :=
  t.ie = s.ie ∧ t.params = s.params ∧ t.inLen = s.inLen ∧ t.ibuf = s.ibuf ∧ t.host = s.host ∧ t.rdata = s.rdata ∧ t.epoch = s.epoch

/-- What a run that takes `s` to `t` keeps: the host's inputs, ERRCODE and ERR_INFO; OBUF's canonical form and bounds; and the bound of
OUT_LEN. -/
def State.RunKeeps (s t : State) : Prop :=
  s.SameInputs t
    ∧ (t.errcode = s.errcode ∧ t.errInfo = s.errInfo)
    ∧ (s.obuf.wf → t.obuf.wf) ∧ (s.obuf.within s.params.obufSize → t.obuf.within t.params.obufSize)
    ∧ (s.outLen.toNat ≤ s.params.obufSize → t.outLen.toNat ≤ t.params.obufSize)

theorem State.RunKeeps.refl (s : State) : s.RunKeeps s :=
  ⟨⟨rfl, rfl, rfl, rfl, rfl, rfl, rfl⟩, ⟨rfl, rfl⟩, id, id, id⟩

theorem State.RunKeeps.trans {s t u : State} (h1 : s.RunKeeps t) (h2 : t.RunKeeps u) : s.RunKeeps u := by
  obtain ⟨⟨hie, hparams, hinLen, hibuf, hhost, hrdata, hepoch⟩, ⟨herrcode, herrInfo⟩, hwf, hwithin, houtLen⟩ := h1
  obtain ⟨⟨hie', hparams', hinLen', hibuf', hhost', hrdata', hepoch'⟩, ⟨herrcode', herrInfo'⟩, hwf', hwithin', houtLen'⟩ := h2
  exact ⟨⟨hie'.trans hie, hparams'.trans hparams, hinLen'.trans hinLen, hibuf'.trans hibuf, hhost'.trans hhost,
    hrdata'.trans hrdata, hepoch'.trans hepoch⟩, ⟨herrcode'.trans herrcode, herrInfo'.trans herrInfo⟩, hwf' ∘ hwf,
    hwithin' ∘ hwithin, houtLen' ∘ houtLen⟩

theorem State.runKeeps_spoil (s : State) (lo hi : Nat) : s.RunKeeps (s.spoil lo hi) :=
  ⟨⟨rfl, rfl, rfl, rfl, rfl, rfl, rfl⟩, ⟨rfl, rfl⟩, fun h => State.spoil_wf h lo hi, fun h => State.spoil_within h lo hi, id⟩

/-- A commit writes OBUF inside its size and an OUT_LEN inside it (rules R127, R206). -/
theorem State.runKeeps_output {s : State} {a : Nat} {bs : List Byte} {n : Word} (hfits : a + bs.length ≤ s.params.obufSize)
    (hn : s.outLen.toNat ≤ s.params.obufSize → n.toNat ≤ s.params.obufSize) :
    s.RunKeeps { s.putBytes a bs with outLen := n } :=
  ⟨⟨rfl, rfl, rfl, rfl, rfl, rfl, rfl⟩, ⟨rfl, rfl⟩, fun h => Memory.writeBytes_wf h a bs,
    fun h => Memory.writeBytes_within h hfits, hn⟩

/-! ### The units -/

theorem clear_runKeeps (s : State) : s.RunKeeps (clear s).state :=
  ⟨⟨rfl, rfl, rfl, rfl, rfl, rfl, rfl⟩, ⟨rfl, rfl⟩, id, id, fun _ => Nat.zero_le _⟩

theorem analyze_runKeeps (s : State) : s.RunKeeps (analyze s).state := by
  rcases analyze_cases s with ⟨f, hraised⟩ | ⟨-, -, hok⟩
  · rw [hraised]; exact .refl s
  · rw [hok]; exact .refl s

theorem norm_runKeeps (s : State) : s.RunKeeps (norm s).state := by
  rcases norm_cases s with ⟨f, hraised⟩ | ⟨-, -, -, hfault⟩ | ⟨-, -, hsaturate⟩
  · rw [hraised]; exact .refl s
  · rw [hfault]; exact .refl s
  · rw [hsaturate]; exact .refl s

theorem build_runKeeps (s : State) : s.RunKeeps (build s).state := by
  rcases build_cases s with ⟨-, hraised⟩ | ⟨arena, r, -, hok⟩
  · rw [hraised]; exact .refl s
  · rw [hok, Run.state_ok]; exact ⟨⟨rfl, rfl, rfl, rfl, rfl, rfl, rfl⟩, ⟨rfl, rfl⟩, id, id, id⟩

theorem gencode_runKeeps (s : State) : s.RunKeeps (gencode s).state := by
  rcases gencode_cases s with ⟨-, hraised⟩ | ⟨-, hok⟩
  · rw [hraised]; exact .refl s
  · rw [hok]; exact .refl s

theorem pack_runKeeps (s : State) : s.RunKeeps (pack s).state := by
  rcases pack_cases s with ⟨f, lo, hi, hraised⟩ | ⟨stream, -, -, -, -, hfits, hok⟩
  · rw [hraised]; exact s.runKeeps_spoil lo hi
  · rw [hok]
    refine State.runKeeps_output hfits fun _ => ?_
    exact (BitVec.toNat_ofNat _ 32).trans_le <| (Nat.mod_le _ _).trans hfits

theorem unpack_runKeeps (s : State) : s.RunKeeps (unpack s).state := by
  rcases unpack_cases s with ⟨f, hraised⟩ | ⟨out, consumed, hlen, -, -, hfits, hok⟩
  · rw [hraised]; exact s.runKeeps_spoil 0 s.origSize.toNat
  · rw [hok]
    exact State.runKeeps_output (by omega) fun _ => hfits

theorem wrhdr_runKeeps (s : State) : s.RunKeeps (wrhdr s).state := by
  rcases wrhdr_cases s with ⟨f, hraised⟩ | ⟨-, -, hfits, hok⟩
  · rw [hraised]; exact s.runKeeps_spoil 0 (headerLength s.freq)
  · rw [hok]
    refine State.runKeeps_output (by rw [headerBytes_length]; omega) fun hold => ?_
    exact (BitVec.toNat_ofNat _ 32).trans_le <| (Nat.mod_le _ _).trans (Nat.max_le.mpr ⟨hold, hfits⟩)

theorem rdhdr_runKeeps (s : State) : s.RunKeeps (rdhdr s).state := by
  rcases rdhdr_cases s with ⟨f, hraised⟩ | ⟨t, -, -, -, -, hok⟩
  · rw [hraised]; exact .refl s
  · rw [hok]; exact .refl s

theorem commandRun_runKeeps (i : Instr) (s : State) : s.RunKeeps (commandRun i s).state :=
  commandRun_keeps (P := s.RunKeeps) (fun t h => h.trans (clear_runKeeps t)) (fun t h => h.trans (analyze_runKeeps t))
    (fun t h => h.trans (norm_runKeeps t)) (fun t h => h.trans (build_runKeeps t)) (fun t h => h.trans (gencode_runKeeps t))
    (fun _ h => h) (fun t h => h.trans (pack_runKeeps t)) (fun t h => h.trans (unpack_runKeeps t))
    (fun t h => h.trans (wrhdr_runKeeps t)) (fun t h => h.trans (rdhdr_runKeeps t)) i s (.refl s)

theorem Run.complete_sameInputs {s : State} {r : Run} (h : s.SameInputs r.state) : s.SameInputs r.complete := by
  cases r <;> exact h

/-- Settles O9: no run writes the host's side, and no completion does. -/
theorem commandsNeverWriteTheHostsInputs : Obligations.CommandsNeverWriteTheHostsInputs := by
  intro i s t hexec
  obtain ⟨hkept, -⟩ := commandRun_runKeeps i s
  rw [← complete_of_exec hexec]
  exact Run.complete_sameInputs hkept

/-! ### No command's run raises IllegalCommand -/

/-- The run commits, or raises an error other than IllegalCommand. -/
def Run.NotIllegal : Run → Prop
  | .ok _ => True
  | .raised f _ => f.kind ≠ .illegalCommand

theorem Run.notIllegal_ok (s : State) : (Run.ok s).NotIllegal := trivial

theorem Run.notIllegal_raised {k : ErrorKind} (h : k ≠ .illegalCommand) (info : Word) (s : State) :
    (Run.raised { kind := k, info := info } s).NotIllegal := h

theorem Run.notIllegal_ite {p : Prop} [Decidable p] {a b : Run} (ha : a.NotIllegal) (hb : b.NotIllegal) :
    (if p then a else b).NotIllegal := by
  split
  · exact ha
  · exact hb

theorem Run.NotIllegal.andThen {r : Run} {k : State → Run} (hr : r.NotIllegal) (hk : ∀ s, (k s).NotIllegal) :
    (r.andThen k).NotIllegal := by
  cases r with
  | ok s => exact hk s
  | raised f s => exact hr

theorem analyze_notIllegal (s : State) : (analyze s).NotIllegal :=
  Run.notIllegal_ite (Run.notIllegal_raised (by decide) _ s)
    (Run.notIllegal_ite (Run.notIllegal_raised (by decide) _ s) (Run.notIllegal_ok _))

theorem norm_notIllegal (s : State) : (norm s).NotIllegal := by
  refine Run.notIllegal_ite (Run.notIllegal_raised (by decide) _ s) ?_
  split
  · split
    · exact Run.notIllegal_raised (by decide) _ s
    · exact Run.notIllegal_ok _
  · exact Run.notIllegal_ok _

theorem build_notIllegal (s : State) : (build s).NotIllegal := by
  rw [build]
  split
  · exact Run.notIllegal_raised (by decide) _ s
  · exact Run.notIllegal_ok _

theorem gencode_notIllegal (s : State) : (gencode s).NotIllegal :=
  Run.notIllegal_ite (Run.notIllegal_ok _) (Run.notIllegal_raised (by decide) _ s)

theorem packFails_notIllegal {k : ErrorKind} (h : k ≠ .illegalCommand) (info : Word) (s : State) :
    (packFails s { kind := k, info := info }).NotIllegal := h

theorem pack_notIllegal (s : State) : (pack s).NotIllegal := by
  refine Run.notIllegal_ite (packFails_notIllegal (by decide) _ s) (Run.notIllegal_ite (packFails_notIllegal (by decide) _ s) ?_)
  simp only
  split
  · exact packFails_notIllegal (by decide) _ s
  · exact Run.notIllegal_ite (packFails_notIllegal (by decide) _ s) (Run.notIllegal_ok _)

theorem unpackFails_notIllegal {k : ErrorKind} (h : k ≠ .illegalCommand) (info : Word) (s : State) :
    (unpackFails s { kind := k, info := info }).NotIllegal := h

theorem unpackBits_notIllegal (s : State) : (unpackBits s).NotIllegal :=
  Run.notIllegal_ite (unpackFails_notIllegal (by decide) _ s) (Run.notIllegal_ite (unpackFails_notIllegal (by decide) _ s)
    (Run.notIllegal_ite (unpackFails_notIllegal (by decide) _ s) (Run.notIllegal_ok _)))

theorem unpack_notIllegal (s : State) : (unpack s).NotIllegal := by
  refine Run.notIllegal_ite (unpackFails_notIllegal (by decide) _ s) (Run.notIllegal_ite (unpackFails_notIllegal (by decide) _ s)
    (Run.notIllegal_ite (unpackFails_notIllegal (by decide) _ s) ?_))
  split
  · exact Run.notIllegal_ok _
  · exact unpackBits_notIllegal s

theorem wrhdrFails_notIllegal {k : ErrorKind} (h : k ≠ .illegalCommand) (info : Word) (s : State) :
    (wrhdrFails s { kind := k, info := info }).NotIllegal := h

theorem wrhdr_notIllegal (s : State) : (wrhdr s).NotIllegal := by
  refine Run.notIllegal_ite (wrhdrFails_notIllegal (by decide) _ s) ?_
  split
  · exact wrhdrFails_notIllegal (by decide) _ s
  · exact Run.notIllegal_ite (wrhdrFails_notIllegal (by decide) _ s) (Run.notIllegal_ok _)

/-- Every bad entry of a header is a FormatError (rule R674). -/
theorem readEntries_error_kind {j : Nat} {es : List (Byte × Byte)} {seen : List Byte} {t : Table (BitVec 32)} {f : Failure}
    (h : readEntries j es seen t = .error f) : f.kind = .formatError := by
  induction es generalizing j seen t with
  | nil => cases h
  | cons e es ih =>
    rw [readEntries] at h
    split at h
    · obtain rfl := Except.error.inj h
      rfl
    · split at h
      · obtain rfl := Except.error.inj h
        rfl
      · exact ih h

theorem rdhdr_notIllegal (s : State) : (rdhdr s).NotIllegal := by
  refine Run.notIllegal_ite (Run.notIllegal_raised (by decide) _ s) (Run.notIllegal_ite (Run.notIllegal_raised (by decide) _ s)
    (Run.notIllegal_ite (Run.notIllegal_raised (by decide) _ s) (Run.notIllegal_ite (Run.notIllegal_raised (by decide) _ s)
    (Run.notIllegal_ite (Run.notIllegal_raised (by decide) _ s) ?_))))
  split
  case h_1 f hentries =>
    refine Run.notIllegal_raised (k := f.kind) ?_ f.info s
    rw [readEntries_error_kind hentries]
    decide
  case h_2 => exact Run.notIllegal_ok _

theorem commandRun_notIllegal (i : Instr) (s : State) : (commandRun i s).NotIllegal := by
  cases i with
  | nop => exact Run.notIllegal_ok s
  | clear => exact Run.notIllegal_ok _
  | analyze => exact analyze_notIllegal s
  | norm => exact norm_notIllegal s
  | build => exact build_notIllegal s
  | gencode => exact gencode_notIllegal s
  | pack => exact pack_notIllegal s
  | unpack => exact unpack_notIllegal s
  | wrhdr => exact wrhdr_notIllegal s
  | rdhdr => exact rdhdr_notIllegal s
  | compress =>
    exact (((((analyze_notIllegal s).andThen norm_notIllegal).andThen build_notIllegal).andThen gencode_notIllegal).andThen
      (fun _ => Run.notIllegal_ok _)).andThen pack_notIllegal |>.andThen wrhdr_notIllegal
  | decompress => exact ((rdhdr_notIllegal s).andThen build_notIllegal).andThen unpack_notIllegal

theorem ErrorKind.code_bounds {k : ErrorKind} (h : k ≠ .illegalCommand) : 1 ≤ k.code.toNat ∧ k.code.toNat ≤ 8 := by
  cases k
  case illegalCommand => exact absurd rfl h
  all_goals decide

/-- Settles O8: a run that commits has written no error register, and one that raises has one of the eight errors of a command. -/
theorem everyCommandCompletes : Obligations.EveryCommandCompletes := by
  intro i s
  refine ⟨_, exec_eq i s, ?_, Run.complete_done _, ?_⟩
  · rw [State.busy, Run.complete_inflight]
    rfl
  · obtain ⟨-, herror, -⟩ := commandRun_runKeeps i s
    have hkind := commandRun_notIllegal i s
    cases hrun : commandRun i s with
    | ok t =>
      rw [hrun] at herror
      exact .inl herror
    | raised f t =>
      rw [hrun] at hkind
      obtain ⟨hpos, hle⟩ := ErrorKind.code_bounds hkind
      exact .inr ⟨hpos, hle, rfl⟩

end Sys2Proof.Machine
end

section
/-! PROOFS. The invariants: what every step keeps, from the moves of the host and the runs of the commands (rules R20, R113 to R115,
R121, R127, R131, R206, R462, R800, R822). -/

namespace Sys2Proof.Machine

/-! ### How a step keeps a property -/

/-- The property is kept by each move that steps are made of: the completion of a command or of an illegal word, a turn of the host
that changes only the host's side and the latency, OVR set, a register write, a byte written inside a buffer, and reset. -/
structure KeptByMoves (P : State → Prop) : Prop where
  run : ∀ i s, P s → P (commandRun i s).complete
  illegal : ∀ s f, P s → P (s.failCommand f)
  turn : ∀ s fl ops r d, fl.isSome = s.busy → P s → P { s with inflight := fl, host := ops, rdata := r, draws := d }
  overrun : ∀ s, P s → P { s with ovr := true }
  writeReg : ∀ s v r, P s → P (Machine.writeReg s v r)
  writeByte : ∀ s b a v, a < bufferSize s.params b → P s → P (hostWriteByte s a v b)
  reset : ∀ s, P s → P s.hostReset

theorem writeRegBusy_cases (s : State) (v : Word) (r : Reg) :
    writeRegBusy s v r = Machine.writeReg s v .status ∨ writeRegBusy s v r = { s with ovr := true } := by
  cases r
  case status => exact .inl rfl
  all_goals exact .inr rfl

section Moves

variable {P : State → Prop} (hP : KeptByMoves P)

include hP

theorem KeptByMoves.readReg {s : State} (hs : P s) (r : Reg) : P (hostReadReg s r) := by
  unfold hostReadReg
  split
  · exact hP.turn s s.inflight s.host _ _ rfl hs
  · exact hP.turn s s.inflight s.host _ s.draws rfl hs

theorem KeptByMoves.hostWriteReg {s : State} (hs : P s) (r : Reg) (v : Word) : P (hostWriteReg s r v) := by
  unfold Machine.hostWriteReg
  split
  · rcases writeRegBusy_cases s v r with hstatus | hoverrun
    · rw [hstatus]
      exact hP.writeReg s v .status hs
    · rw [hoverrun]
      exact hP.overrun s hs
  · exact hP.writeReg s v r hs

theorem KeptByMoves.readByte {s : State} (hs : P s) (b : Buffer) (a : Nat) : P (hostReadByte s b a) := by
  unfold hostReadByte
  split
  · exact hP.turn s s.inflight s.host _ _ rfl hs
  · exact hP.turn s s.inflight s.host _ s.draws rfl hs

theorem KeptByMoves.poll {s : State} (hs : P s) : P s.hostPoll := by
  unfold State.hostPoll
  split
  · exact hP.turn s s.inflight _ _ s.draws rfl hs
  · exact hP.turn s s.inflight s.host _ s.draws rfl hs

theorem KeptByMoves.hostAccess {op : HostOp} {s t : State} (hs : P s) (h : hostAccess op s = .next t) : P t := by
  rcases hostAccess_cases h with ⟨off, -, -, rfl⟩ | ⟨off, v, -, -, rfl⟩ | ⟨b, a, -, -, rfl⟩ | ⟨b, a, v, -, ha, -, rfl⟩
    | ⟨-, rfl⟩ | ⟨-, rfl⟩ | ⟨-, rfl⟩ | ⟨-, rfl⟩
  · exact hP.readReg hs _
  · exact hP.hostWriteReg hs _ v
  · exact hP.readByte hs b _
  · exact hP.writeByte s b _ v ha hs
  · exact hP.poll hs
  · split
    · exact hs
    · exact hP.turn s s.inflight _ s.rdata s.draws rfl hs
  · exact hs
  · exact hP.reset s hs

/-- Every step is made of the moves (rules R230, R940). -/
theorem KeptByMoves.step {s t : State} (hs : P s) (h : step s = .next t) : P t := by
  rcases step_cases h with ⟨w, i, -, -, rfl⟩ | ⟨w, e, -, -, rfl⟩ | ⟨fl, hfl, hturn⟩
  · exact hP.run i s hs
  · exact hP.illegal s _ hs
  · have hbusy : fl.isSome = s.busy := by
      rcases hfl with ⟨rfl, hidle⟩ | ⟨w, n, rfl, hwaiting⟩
      · rw [State.busy, hidle]
      · rw [State.busy, hwaiting]
        rfl
    rcases hturn with ⟨-, rfl⟩ | ⟨op, ops, -, haccess⟩
    · exact hP.turn s fl s.host s.rdata s.draws hbusy hs
    · exact hP.hostAccess (hP.turn s fl ops s.rdata s.draws hbusy hs) haccess

end Moves

/-! ### The buffers and the parameters -/

theorem complete_buffersOk {p : Params} {r : Run} (h : r.state.BuffersOk ∧ r.state.params = p) :
    r.complete.BuffersOk ∧ r.complete.params = p := by
  cases r <;> exact h

theorem commandRun_buffersOk {s : State} (i : Instr) (h : s.BuffersOk) :
    (commandRun i s).state.BuffersOk ∧ (commandRun i s).state.params = s.params := by
  obtain ⟨hibufWf, hobufWf, hibuf, hobuf⟩ := h
  obtain ⟨⟨-, hparams, -, hsame, -⟩, -, hwf, hwithin, -⟩ := commandRun_runKeeps i s
  refine ⟨⟨?_, hwf hobufWf, ?_, hwithin hobuf⟩, hparams⟩
  · rw [hsame]
    exact hibufWf
  · rw [hsame, hparams]
    exact hibuf

theorem hostWriteByte_buffersOk {s : State} (h : s.BuffersOk) {a : Nat} (v : Byte) {b : Buffer} (ha : a < bufferSize s.params b) :
    (hostWriteByte s a v b).BuffersOk := by
  obtain ⟨hibufWf, hobufWf, hibuf, hobuf⟩ := h
  cases b with
  | ibuf => exact ⟨Memory.write_wf hibufWf a v, hobufWf, Memory.write_within hibuf ha v, hobuf⟩
  | obuf => exact ⟨hibufWf, Memory.write_wf hobufWf a v, hibuf, Memory.write_within hobuf ha v⟩

theorem hostReset_buffersOk (s : State) : s.hostReset.BuffersOk :=
  ⟨List.Pairwise.nil, List.Pairwise.nil, fun _ hc => absurd hc List.not_mem_nil, fun _ hc => absurd hc List.not_mem_nil⟩

theorem buffersOk_keptByMoves (p : Params) : KeptByMoves fun s => s.BuffersOk ∧ s.params = p where
  run i s h := by
    obtain ⟨hok, hsame⟩ := commandRun_buffersOk i h.1
    exact complete_buffersOk ⟨hok, hsame.trans h.2⟩
  illegal _ _ h := h
  turn _ _ _ _ _ _ h := h
  overrun _ h := h
  writeReg s v r h := by cases r <;> exact h
  writeByte s b a v ha h := ⟨hostWriteByte_buffersOk h.1 v ha, by cases b <;> exact h.2⟩
  reset s h := ⟨hostReset_buffersOk s, h.2⟩

/-- Settles O57: no move takes a byte out of its buffer or writes the parameters. -/
theorem stepKeepsTheBuffers : Obligations.StepKeepsTheBuffers := fun s _ hs hstep =>
  (buffersOk_keptByMoves s.params).step ⟨hs, rfl⟩ hstep

/-! ### The command protocol -/

theorem ErrorKind.code_le (k : ErrorKind) : k.code.toNat ≤ 9 := by
  cases k <;> decide

theorem failCommand_protocolOk (s : State) (f : Failure) : (s.failCommand f).ProtocolOk :=
  ⟨nofun, f.kind.code_le, fun hzero => absurd hzero f.kind.code_ne_zero, Nat.zero_le _⟩

theorem commandRun_complete_protocolOk {s : State} (i : Instr) (h : s.ProtocolOk) : (commandRun i s).complete.ProtocolOk := by
  obtain ⟨-, hcode, hinfo, hlen⟩ := h
  obtain ⟨-, ⟨herrcode, herrInfo⟩, -, -, houtLen⟩ := commandRun_runKeeps i s
  cases hrun : commandRun i s with
  | ok t =>
    rw [hrun, Run.state_ok] at herrcode herrInfo houtLen
    rw [← herrcode] at hcode hinfo
    rw [← herrInfo] at hinfo
    exact ⟨nofun, hcode, hinfo, houtLen hlen⟩
  | raised f t => exact failCommand_protocolOk t f

theorem writeReg_protocolOk {s : State} (v : Word) (r : Reg) (h : s.ProtocolOk) : (writeReg s v r).ProtocolOk := by
  cases r with
  | cmd =>
    obtain ⟨-, -, -, hlen⟩ := h
    exact ⟨fun _ => ⟨rfl, rfl, rfl⟩, Nat.zero_le _, fun _ => rfl, hlen⟩
  | status =>
    obtain ⟨hbusy, hrest⟩ := h
    refine ⟨fun hb => ?_, hrest⟩
    obtain ⟨hdone, herror⟩ := hbusy hb
    refine ⟨?_, herror⟩
    rw [writeReg, State.ackStatus_done, hdone, Bool.false_and]
  | _ => exact h

theorem protocolOk_keptByMoves : KeptByMoves State.ProtocolOk where
  run i _ h := commandRun_complete_protocolOk i h
  illegal s f _ := failCommand_protocolOk s f
  turn s fl _ _ _ hbusy h := ⟨fun hfl => h.1 (hbusy.symm.trans hfl), h.2⟩
  overrun _ h := h
  writeReg _ v r h := writeReg_protocolOk v r h
  writeByte _ b _ _ _ h := by cases b <;> exact h
  reset _ _ := ⟨nofun, Nat.zero_le _, fun _ => rfl, Nat.zero_le _⟩

/-- Settles O58: the start of a command clears what BUSY promises to be 0, and every completion ends BUSY. -/
theorem stepKeepsTheProtocol : Obligations.StepKeepsTheProtocol := fun _ _ => protocolOk_keptByMoves.step

/-! ### The validity flags -/

/-- `t` has the tree and the code table of `s`, and either the counters and the flags of `s` too, or both flags clear: what a run or
a host access leaves that is none of BUILD, GENCODE, CLEAR and reset (rules R114, R115). -/
def State.KeepsOrInvalidates (s t : State) : Prop :=
  (t.node = s.node ∧ t.root = s.root ∧ t.nnodes = s.nnodes ∧ t.codeLen = s.codeLen ∧ t.code = s.code)
    ∧ (t.freq = s.freq ∧ t.treeV = s.treeV ∧ t.codeV = s.codeV ∨ t.treeV = false ∧ t.codeV = false)

theorem State.KeepsOrInvalidates.refl (s : State) : s.KeepsOrInvalidates s :=
  ⟨⟨rfl, rfl, rfl, rfl, rfl⟩, .inl ⟨rfl, rfl, rfl⟩⟩

/-- With both flags clear and the tree and the code table as they were, any counters will do. -/
theorem State.keepsOrInvalidates_invalidate (s : State) (freq : Table (BitVec 32)) :
    s.KeepsOrInvalidates { s.invalidate with freq := freq } :=
  ⟨⟨rfl, rfl, rfl, rfl, rfl⟩, .inr ⟨rfl, rfl⟩⟩

theorem State.KeepsOrInvalidates.validityOk {s t : State} (h : s.KeepsOrInvalidates t) (hs : s.ValidityOk) : t.ValidityOk := by
  obtain ⟨⟨hnode, hroot, hnnodes, hcodeLen, hcode⟩, ⟨hfreq, htreeV, hcodeV⟩ | ⟨htreeV, hcodeV⟩⟩ := h
  · exact validityOk_congr hs hfreq hnode hroot hnnodes hcodeLen hcode htreeV hcodeV
  · exact validityOk_of_clear htreeV hcodeV

theorem analyze_keepsOrInvalidates (s : State) : s.KeepsOrInvalidates (analyze s).state := by
  rcases analyze_cases s with ⟨f, hraised⟩ | ⟨-, -, hok⟩
  · rw [hraised]; exact .refl s
  · rw [hok]; exact s.keepsOrInvalidates_invalidate _

theorem norm_keepsOrInvalidates (s : State) : s.KeepsOrInvalidates (norm s).state := by
  rcases norm_cases s with ⟨f, hraised⟩ | ⟨-, -, -, hfault⟩ | ⟨-, -, hsaturate⟩
  · rw [hraised]; exact .refl s
  · rw [hfault]; exact s.keepsOrInvalidates_invalidate s.freq
  · rw [hsaturate]; exact s.keepsOrInvalidates_invalidate _

theorem pack_keepsOrInvalidates (s : State) : s.KeepsOrInvalidates (pack s).state := by
  rcases pack_cases s with ⟨f, lo, hi, hraised⟩ | ⟨stream, -, -, -, -, -, hok⟩
  · rw [hraised]; exact .refl s
  · rw [hok]; exact .refl s

theorem unpack_keepsOrInvalidates (s : State) : s.KeepsOrInvalidates (unpack s).state := by
  rcases unpack_cases s with ⟨f, hraised⟩ | ⟨out, consumed, -, -, -, -, hok⟩
  · rw [hraised]; exact .refl s
  · rw [hok]; exact .refl s

theorem wrhdr_keepsOrInvalidates (s : State) : s.KeepsOrInvalidates (wrhdr s).state := by
  rcases wrhdr_cases s with ⟨f, hraised⟩ | ⟨-, -, -, hok⟩
  · rw [hraised]; exact .refl s
  · rw [hok]; exact .refl s

theorem rdhdr_keepsOrInvalidates (s : State) : s.KeepsOrInvalidates (rdhdr s).state := by
  rcases rdhdr_cases s with ⟨f, hraised⟩ | ⟨t, -, -, -, -, hok⟩
  · rw [hraised]; exact .refl s
  · rw [hok]; exact s.keepsOrInvalidates_invalidate t

theorem writeReg_keepsOrInvalidates (s : State) (v : Word) (r : Reg) : s.KeepsOrInvalidates (writeReg s v r) := by
  cases r with
  | freq b => exact s.keepsOrInvalidates_invalidate _
  | _ => exact .refl s

theorem hostWriteByte_keepsOrInvalidates (s : State) (a : Nat) (v : Byte) (b : Buffer) :
    s.KeepsOrInvalidates (hostWriteByte s a v b) := by
  cases b <;> exact .refl s

/-- A property of the tree, the code table, the counters and the flags is kept by every run if BUILD, GENCODE and CLEAR keep it. -/
theorem commandRun_keeps_of_invalidating {P : State → Prop} (hkeeps : ∀ s t, s.KeepsOrInvalidates t → P s → P t)
    (hclear : ∀ s, P s → P (clear s).state) (hbuild : ∀ s, P s → P (build s).state) (hgencode : ∀ s, P s → P (gencode s).state)
    (i : Instr) (s : State) (hs : P s) : P (commandRun i s).state :=
  commandRun_keeps hclear (fun t => hkeeps t _ (analyze_keepsOrInvalidates t)) (fun t => hkeeps t _ (norm_keepsOrInvalidates t))
    hbuild hgencode (fun t => hkeeps t _ (.refl t)) (fun t => hkeeps t _ (pack_keepsOrInvalidates t))
    (fun t => hkeeps t _ (unpack_keepsOrInvalidates t)) (fun t => hkeeps t _ (wrhdr_keepsOrInvalidates t))
    (fun t => hkeeps t _ (rdhdr_keepsOrInvalidates t)) i s hs

theorem Run.complete_keepsOrInvalidates (r : Run) : r.state.KeepsOrInvalidates r.complete := by
  cases r <;> exact .refl _

/-- Such a property is kept by every move of a step if BUILD, GENCODE and CLEAR keep it and it holds at reset. -/
theorem keptByMoves_of_invalidating {P : State → Prop} (hkeeps : ∀ s t, s.KeepsOrInvalidates t → P s → P t)
    (hclear : ∀ s, P s → P (clear s).state) (hbuild : ∀ s, P s → P (build s).state) (hgencode : ∀ s, P s → P (gencode s).state)
    (hreset : ∀ s : State, P s.hostReset) : KeptByMoves P where
  run i s h := hkeeps _ _ (Run.complete_keepsOrInvalidates _) (commandRun_keeps_of_invalidating hkeeps hclear hbuild hgencode i s h)
  illegal s _ h := hkeeps s _ (.refl s) h
  turn s _ _ _ _ _ h := hkeeps s _ (.refl s) h
  overrun s h := hkeeps s _ (.refl s) h
  writeReg s v r h := hkeeps s _ (writeReg_keepsOrInvalidates s v r) h
  writeByte s b a v _ h := hkeeps s _ (hostWriteByte_keepsOrInvalidates s a v b) h
  reset s _ := hreset s

/-- Settles O59: BUILD and GENCODE make true what the flags claim, and every other move leaves it or clears both flags. -/
theorem stepKeepsTheValidityFlags : Obligations.StepKeepsTheValidityFlags := fun _ _ =>
  (keptByMoves_of_invalidating (fun _ _ h => h.validityOk) (fun _ _ => validityOk_of_clear rfl rfl) (fun _ => build_validity)
    (fun _ => gencode_validity) fun _ => validityOk_of_clear rfl rfl).step

/-! ### The arrays -/

/-- The arena is zero behind its entries, and CODE_LEN is the length of CODE (rules R113, R462). -/
def State.ArraysOk (s : State) : Prop := s.ArenaTailZero ∧ s.CodeLengthsAgree

theorem State.KeepsOrInvalidates.arraysOk {s t : State} (h : s.KeepsOrInvalidates t) (hs : s.ArraysOk) : t.ArraysOk := by
  obtain ⟨⟨hnode, -, hnnodes, hcodeLen, hcode⟩, -⟩ := h
  rwa [State.ArraysOk, State.ArenaTailZero, State.CodeLengthsAgree, hnode, hnnodes, hcodeLen, hcode]

/-- Empty arrays are in order: CLEAR's and reset's. -/
theorem arraysOk_of_empty {s : State} (hnode : s.node = Vector.replicate 511 Node.zero)
    (hcodeLen : s.codeLen = Vector.replicate 256 0) (hcode : s.code = Vector.replicate 256 []) : s.ArraysOk := by
  refine ⟨fun i hi _ => ?_, fun k _ => ?_⟩
  · rw [hnode, Vector.getElem?_replicate, if_pos hi]
  · rw [hcodeLen, hcode, Table.entry_replicate, Table.entry_replicate]
    rfl

theorem build_arraysOk {s : State} (h : s.ArraysOk) : (build s).state.ArraysOk := by
  rcases build_cases s with ⟨-, hraised⟩ | ⟨arena, r, htree, hok⟩
  · rwa [hraised]
  · rw [hok, Run.state_ok]
    exact ⟨arenaTailZero_of_node rfl (nnodes_toNat (huffmanTree_length_le htree)), h.2⟩

theorem gencode_arraysOk {s : State} (hvalid : s.ValidityOk) (h : s.ArraysOk) : (gencode s).state.ArraysOk := by
  rcases gencode_cases s with ⟨-, hraised⟩ | ⟨htree, hok⟩
  · rwa [hraised]
  · obtain ⟨tree, -, hperm, hcodes⟩ := hvalid.codes htree
    rw [hok, hcodes]
    exact ⟨h.1, fun k _ => codeLengths_toNat hperm _⟩

theorem arraysOk_keptByMoves : KeptByMoves fun s => s.ValidityOk ∧ s.ArraysOk :=
  keptByMoves_of_invalidating (fun _ _ h hs => ⟨h.validityOk hs.1, h.arraysOk hs.2⟩)
    (fun _ _ => ⟨validityOk_of_clear rfl rfl, arraysOk_of_empty rfl (Table.tabulate_const 0) (Table.tabulate_const [])⟩)
    (fun _ hs => ⟨build_validity hs.1, build_arraysOk hs.2⟩)
    (fun _ hs => ⟨gencode_validity hs.1, gencode_arraysOk hs.1 hs.2⟩)
    fun _ => ⟨validityOk_of_clear rfl rfl, arraysOk_of_empty rfl rfl rfl⟩

/-- Settles O60: BUILD commits zeros behind its entries, and the codes GENCODE reads off a valid tree fit CODE_LEN. -/
theorem stepKeepsTheArrays : Obligations.StepKeepsTheArrays := fun _ _ hvalid htail hlengths hstep =>
  (arraysOk_keptByMoves.step ⟨hvalid, htail, hlengths⟩ hstep).2

/-- Settles O56: the buffers and arrays are empty, and both flags are clear. -/
theorem resetMeetsTheInvariants : Obligations.ResetMeetsTheInvariants := by
  obtain ⟨hibufWf, hobufWf⟩ := State.reset_memory_wf
  refine ⟨⟨hibufWf, hobufWf, fun _ hc => absurd hc List.not_mem_nil, fun _ hc => absurd hc List.not_mem_nil⟩,
    ⟨nofun, Nat.zero_le _, fun _ => rfl, Nat.zero_le _⟩, validityOk_of_clear rfl rfl, ?_⟩
  exact arraysOk_of_empty (s := State.reset) rfl rfl rfl

end Sys2Proof.Machine
end

section
/-! PROOFS. The payload and header units: their failures in order, the single leaf, the bits UNPACK consumes, and the header read back
(rules R423, R554, R557, R605, R615, R650, R678). -/

namespace Sys2Proof.Machine

/-! ### NORM and WRHDR -/

/-- Settles O15: what a good NORM leaves is what WRHDR's capacity checks ask for. -/
theorem normMakesTheHeaderWritable : Obligations.NormMakesTheHeaderWritable := by
  intro s t _ hexec ht
  obtain ⟨-, hcount, hcounts⟩ := capacity_of_norm hexec ht
  exact ⟨hcount, hcounts, fun hout => ⟨_, exec_of_ok (i := .wrhdr) (wrhdr_of_fits hcount hcounts hout), ht⟩⟩

/-! ### PACK's failures -/

/-- The codes of the input bytes that exist, as CODE stands. -/
def State.existingStream (s : State) : Bits := codeStream s.code (s.input (min s.inLen.toNat s.params.ibufSize))

/-- A PACK that fails completes by the failure rule, OBUF outside the payload's range unchanged (rules R557, R820). -/
theorem exec_pack_of_fails {s : State} {f : Failure} (h : pack s = packFails s f) :
    ∃ t, exec .pack s = .next t
      ∧ s.FailedSpoiling t f.kind.code f.info s.outOff.toNat (s.outOff.toNat + ceilDiv8 s.existingStream.length) := by
  refine ⟨(s.spoil s.outOff.toNat (s.outOff.toNat + ceilDiv8 s.existingStream.length)).failCommand f, ?_, rfl,
    s.byteAt_spoil s.outOff.toNat (s.outOff.toNat + ceilDiv8 s.existingStream.length)⟩
  rw [exec_eq, commandRun, h]
  rfl

theorem pack_of_no_codes {s : State} (h : s.codeV = false) : pack s = packFails s { kind := .notReady, info := 2 } := if_pos h

theorem pack_of_input_tooLong {s : State} (hcode : s.codeV = true) (hin : s.params.ibufSize < s.inLen.toNat) :
    pack s = packFails s { kind := .ioFailure, info := 0 } := by
  rw [pack, if_neg (by simp [hcode]), if_pos hin]

theorem pack_of_missing {s : State} {i : Nat} (hcode : s.codeV = true) (hin : s.inLen.toNat ≤ s.params.ibufSize)
    (hmissing : firstMissing s.codeLen (s.input s.inLen.toNat) = some i) :
    pack s = packFails s { kind := .missingCode, info := BitVec.ofNat 32 i } := by
  rw [pack, if_neg (by simp [hcode]), if_neg (Nat.not_lt.mpr hin)]
  simp only [hmissing]

theorem pack_of_output_tooLong {s : State} (hcode : s.codeV = true) (hin : s.inLen.toNat ≤ s.params.ibufSize)
    (hcoded : firstMissing s.codeLen (s.input s.inLen.toNat) = none)
    (hout : s.params.obufSize < s.outOff.toNat + ceilDiv8 (codeStream s.code (s.input s.inLen.toNat)).length) :
    pack s = packFails s { kind := .ioFailure, info := 1 } := by
  rw [← packBits_length] at hout
  rw [pack, if_neg (by simp [hcode]), if_neg (Nat.not_lt.mpr hin)]
  simp only [hcoded, if_pos hout]

/-- The first byte without a code is at the least such offset (rule R554). -/
theorem firstMissing_input_eq_some {codeLen : Table (BitVec 8)} {s : State} {n i : Nat} (hi : i < n)
    (hmissing : codeLen.entry (s.byteAt .ibuf i) = 0) (hbefore : ∀ j < i, codeLen.entry (s.byteAt .ibuf j) ≠ 0) :
    firstMissing codeLen (s.input n) = some i := by
  rw [firstMissing, List.findIdx?_eq_some_iff_getElem]
  simpa [State.input, hi, hmissing] using hbefore

/-- Settles O27: one equation of PACK per check, and the failure rule. -/
theorem packReportsItsFirstFailure : Obligations.PackReportsItsFirstFailure := by
  intro s stream last
  have hstream : s.existingStream = stream := codeStream_input s.code s _
  have hlast : last = s.outOff.toNat + ceilDiv8 s.existingStream.length := by rw [hstream]; rfl
  rw [hlast]
  refine ⟨fun hno => ?_, fun hcode hlong => ?_, fun i hcode hin hi hmissing hbefore => ?_, fun hcode hin hcoded hlong => ?_⟩
  · exact exec_pack_of_fails (pack_of_no_codes hno)
  · exact exec_pack_of_fails (pack_of_input_tooLong hcode hlong)
  · exact exec_pack_of_fails (pack_of_missing hcode hin (firstMissing_input_eq_some hi hmissing hbefore))
  · rw [State.existingStream, Nat.min_eq_left hin] at hlong
    exact exec_pack_of_fails (pack_of_output_tooLong hcode hin (firstMissing_input_eq_none.mpr hcoded) hlong)

/-! ### UNPACK on a single leaf -/

/-- With a leaf as root UNPACK commits its symbol ORIG_SIZE times (rule R605). -/
theorem unpack_of_leaf_root {s : State} {n : Node} (htree : s.treeV = true) (hin : s.inLen.toNat ≤ s.params.ibufSize)
    (hout : s.origSize.toNat ≤ s.params.obufSize) (hroot : s.node[s.root.toNat]? = some n) (hleaf : n.leaf = true) :
    unpack s = .ok (unpackCommit s (List.replicate s.origSize.toNat n.sym) 0) := by
  have hsingle : singleLeaf s = some n.sym := by simp [singleLeaf, hroot, hleaf]
  rw [unpack, if_neg (by simp [htree]), if_neg (Nat.not_lt.mpr hin), if_neg (Nat.not_lt.mpr hout), hsingle]

/-- Each byte of a commit of one symbol repeated is that symbol. -/
theorem unpackCommit_replicate_byteAt (s : State) (n : Nat) (b : Byte) (consumed : Nat) {k : Nat} (hk : k < n) :
    (unpackCommit s (List.replicate n b) consumed).byteAt .obuf k = b := by
  have hbyte := unpackCommit_byteAt_inside s (List.replicate n b) consumed (k := k) (by rwa [List.length_replicate])
  rw [List.getElem?_replicate, if_pos hk] at hbyte
  exact Option.some.inj hbyte

/-- Settles O28: the commit is of the one symbol, and of no consumed bit. -/
theorem unpackRepeatsASingleLeaf : Obligations.UnpackRepeatsASingleLeaf := by
  intro s n htree hin hout hroot hleaf
  refine ⟨_, exec_of_ok (i := .unpack) (unpack_of_leaf_root htree hin hout hroot hleaf), fun k hk => ?_, fun k hk => ?_, rfl⟩
  · exact unpackCommit_replicate_byteAt s s.origSize.toNat n.sym 0 hk
  · exact unpackCommit_byteAt_outside s (List.replicate s.origSize.toNat n.sym) 0 (by rwa [List.length_replicate])

/-! ### The bits UNPACK consumes -/

/-- Everything UNPACK can do with an internal root and both lengths sound: CorruptStream, or a commit that has consumed at least a bit
per symbol and at most the meaningful ones (rules R606, R609, R615). -/
theorem unpackBits_cases (s : State) :
    (∃ info, unpackBits s = unpackFails s { kind := .corruptStream, info := info })
      ∨ ∃ out consumed, s.origSize.toNat ≤ consumed ∧ consumed ≤ s.meaningfulBits.length
          ∧ unpackBits s = .ok (unpackCommit s out consumed) := by
  by_cases hgeometry : s.inLen.toNat < s.inOff.toNat ∨ s.inLen.toNat = s.inOff.toNat ∧ s.pad ≠ 0
  · exact .inl ⟨0, unpackBits_of_corrupt_geometry hgeometry⟩
  · obtain ⟨hoff, hpad⟩ := not_or.mp hgeometry
    have hrun := unpackBits_of_decodeLoop (Nat.not_lt.mp hoff) (fun hempty => not_not.mp fun hne => hpad ⟨hempty.symm, hne⟩) rfl
    obtain ⟨-, hsymbols, hbits⟩ := decodeLoop_bounds s.node s.root s.meaningfulBits s.root s.origSize.toNat
    split at hrun
    case isTrue => exact .inl ⟨_, hrun⟩
    case isFalse hall => exact .inr ⟨_, _, (Nat.not_lt.mp hall).trans hsymbols, hbits, hrun⟩

theorem errcode_of_exec_unpack_fails {s t : State} {f : Failure} (h : unpack s = unpackFails s f) (hexec : exec .unpack s = .next t) :
    t.errcode = f.kind.code := by
  have hcomplete := complete_of_exec hexec
  rw [commandRun, h] at hcomplete
  rw [← hcomplete]
  rfl

/-- Settles O32: a commit has consumed a bit per symbol, and otherwise UNPACK has failed. -/
theorem unpackNeedsABitPerSymbol : Obligations.UnpackNeedsABitPerSymbol := by
  intro s n htree hroot hinternal hzero
  refine ⟨_, exec_eq .unpack s, ?_⟩
  rw [← State.meaningfulBits_length]
  by_cases hin : s.inLen.toNat ≤ s.params.ibufSize
  case neg =>
    have hrun := unpack_of_input_tooLong htree (Nat.not_le.mp hin)
    have herror := errcode_of_exec_unpack_fails hrun (exec_eq .unpack s)
    exact ⟨fun h => absurd (herror.symm.trans h) (ErrorKind.code_ne_zero _), fun h => absurd h hin⟩
  by_cases hout : s.origSize.toNat ≤ s.params.obufSize
  case neg =>
    have hrun := unpack_of_output_tooLong htree hin (Nat.not_le.mp hout)
    have herror := errcode_of_exec_unpack_fails hrun (exec_eq .unpack s)
    exact ⟨fun h => absurd (herror.symm.trans h) (ErrorKind.code_ne_zero _), fun _ h => absurd h hout⟩
  have hbits := unpack_of_internal_root htree hin hout hroot hinternal
  rcases unpackBits_cases s with ⟨info, hfails⟩ | ⟨out, consumed, hsymbols, hconsumed, hok⟩
  · have herror := errcode_of_exec_unpack_fails (hbits.trans hfails) (exec_eq .unpack s)
    exact ⟨fun h => absurd (herror.symm.trans h) (ErrorKind.code_ne_zero _), fun _ _ _ => herror⟩
  · have hrun : commandRun .unpack s = .ok (unpackCommit s out consumed) := hbits.trans hok
    have hnbits : (commandRun .unpack s).complete.nbits.toNat = consumed := by
      rw [hrun, Run.complete_ok, State.succeed_nbits, unpackCommit_nbits_toNat out hconsumed]
    rw [hnbits]
    exact ⟨fun _ => ⟨hsymbols, hconsumed⟩, fun _ _ hshort => absurd (hsymbols.trans hconsumed) (Nat.not_le.mpr hshort)⟩

/-! ### WRHDR's failures -/

/-- A WRHDR that fails completes by the failure rule, OBUF from 6 + 2T on unchanged (rules R650, R820). -/
theorem exec_wrhdr_of_fails {s : State} {f : Failure} (h : wrhdr s = wrhdrFails s f) :
    ∃ t, exec .wrhdr s = .next t ∧ s.FailedSpoiling t f.kind.code f.info 0 (6 + 2 * presentCount s.freq) := by
  rw [← headerLength_eq]
  refine ⟨(s.spoil 0 (headerLength s.freq)).failCommand f, ?_, rfl, s.byteAt_spoil 0 (headerLength s.freq)⟩
  rw [exec_eq, commandRun, h, wrhdrFails, Run.complete_raised]

theorem wrhdr_of_tooMany {s : State} (h : 31 < presentCount s.freq) :
    wrhdr s = wrhdrFails s { kind := .capacityExceeded, info := BitVec.ofNat 32 (presentCount s.freq) } := by
  rw [← popcountPresent_eq] at h ⊢
  exact if_pos h

theorem wrhdr_of_over {s : State} {b : Byte} (hcount : presentCount s.freq ≤ 31) (hover : firstOver s.freq = some b) :
    wrhdr s = wrhdrFails s { kind := .capacityExceeded, info := overInfo b } := by
  rw [← popcountPresent_eq] at hcount
  rw [wrhdr, if_neg (Nat.not_lt.mpr hcount), hover]

theorem wrhdr_of_output_tooShort {s : State} (hcount : presentCount s.freq ≤ 31) (hcounts : ∀ b, (s.freq.entry b).toNat ≤ 255)
    (hout : s.params.obufSize < 6 + 2 * presentCount s.freq) : wrhdr s = wrhdrFails s { kind := .ioFailure, info := 1 } := by
  rw [← popcountPresent_eq] at hcount
  rw [← headerLength_eq] at hout
  rw [wrhdr, if_neg (Nat.not_lt.mpr hcount), firstOver_eq_none.mpr hcounts]
  exact if_pos hout

/-- Settles O34: one equation of WRHDR per check, and the failure rule. -/
theorem wrhdrReportsItsFirstFailure : Obligations.WrhdrReportsItsFirstFailure := by
  intro s size
  refine ⟨fun hmany => ?_, fun b hcount hover hleast => ?_, fun hcount hcounts hshort => ?_⟩
  · exact exec_wrhdr_of_fails (wrhdr_of_tooMany hmany)
  · exact exec_wrhdr_of_fails (wrhdr_of_over hcount (firstOver_eq_some hover hleast))
  · exact exec_wrhdr_of_fails (wrhdr_of_output_tooShort hcount hcounts hshort)

/-! ### The header read back -/

/-- A WRHDR that succeeds has passed its checks and committed the header (rule R650). -/
theorem wrhdr_ok {s t : State} (h : wrhdr s = .ok t) :
    presentCount s.freq ≤ 31 ∧ (∀ b, (s.freq.entry b).toNat ≤ 255) ∧ 6 + 2 * presentCount s.freq ≤ s.params.obufSize
      ∧ t = wrhdrCommit s := by
  rcases wrhdr_cases s with ⟨f, hraised⟩ | ⟨hcount, hover, hout, hok⟩
  · exact Run.noConfusion (hraised.symm.trans h)
  · rw [popcountPresent_eq] at hcount
    rw [headerLength_eq] at hout
    exact ⟨hcount, firstOver_eq_none.mp hover, hout, (Run.ok.inj (hok.symm.trans h)).symm⟩

/-- The table as entries in ascending order, symbol and count byte (rules R314, R651). -/
def tableEntries (t : Table (BitVec 32)) : List (Byte × Byte) := (present t).map fun b => (b, (t.entry b).setWidth 8)

theorem tableEntries_symbols (t : Table (BitVec 32)) : (tableEntries t).map Prod.fst = present t := by
  simp [tableEntries, Function.comp_def]

/-- With counts that fit a byte, the entries put into the zero table make the table again (rule R678). -/
theorem putEntries_tableEntries {t : Table (BitVec 32)} (hcounts : ∀ b, (t.entry b).toNat ≤ 255) :
    (Table.tabulate fun _ => 0).putEntries (tableEntries t) = t := by
  refine Table.ext fun b => ?_
  by_cases hb : 1 ≤ (t.entry b).toNat
  · have hmem : (b, (t.entry b).setWidth 8) ∈ tableEntries t := List.mem_map.mpr ⟨b, mem_present.mpr hb, rfl⟩
    have hnodup : ((tableEntries t).map Prod.fst).Nodup := by
      rw [tableEntries_symbols]
      exact present_nodup t
    have hle := hcounts b
    rw [Table.entry_putEntries_of_mem hnodup hmem]
    apply BitVec.eq_of_toNat_eq
    rw [BitVec.toNat_setWidth, BitVec.toNat_setWidth]
    omega
  · have habsent : b ∉ (tableEntries t).map Prod.fst := by
      rw [tableEntries_symbols, mem_present]
      exact hb
    have hzero : (t.entry b).toNat = 0 := Nat.lt_one_iff.mp (Nat.not_le.mp hb)
    rw [Table.entry_putEntries_absent habsent, Table.entry_tabulate]
    exact BitVec.eq_of_toNat_eq hzero.symm

section ReadBack

variable {s u : State}
  (hbytes : ∀ a < 6 + 2 * presentCount s.freq, u.byteAt .ibuf a = (wrhdrCommit s).byteAt .obuf a)

include hbytes

/-- The table entries RDHDR reads are those WRHDR wrote. -/
theorem inputEntries_of_header : u.inputEntries (presentCount s.freq) = tableEntries s.freq := by
  have hlength : (present s.freq).length = presentCount s.freq := popcountPresent_eq s.freq
  apply List.ext_getElem
  · rw [State.inputEntries, tableEntries, List.length_map, List.length_map, List.length_range, hlength]
  · intro j hj hj'
    rw [State.inputEntries, List.length_map, List.length_range] at hj
    have hsymbol : (present s.freq)[j]? = some ((present s.freq)[j]'(by omega)) := List.getElem?_eq_getElem (by omega)
    have hpresent := mem_present.mp (List.mem_of_getElem? hsymbol)
    obtain ⟨hfirst, hsecond⟩ := wrhdrCommit_entry hpresent
    rw [← presentBelow_unique hsymbol] at hfirst hsecond
    simp only [State.inputEntries, tableEntries, List.getElem_map, List.getElem_range]
    rw [hbytes _ (by omega), hbytes _ (by omega), hfirst, hsecond]

/-- They are good: the symbols are different and no count is zero (rule R674). -/
theorem readEntries_of_header (hcounts : ∀ b, (s.freq.entry b).toNat ≤ 255) :
    readEntries 0 (u.inputEntries (presentCount s.freq)) [] (Table.tabulate fun _ => 0) = .ok s.freq := by
  rw [inputEntries_of_header hbytes]
  have hcount : ∀ e ∈ tableEntries s.freq, e.2 ≠ 0 := fun e he hzero => by
    obtain ⟨b, hb, rfl⟩ := List.mem_map.mp he
    have hpos := mem_present.mp hb
    have hle := hcounts b
    have hbyte : ((s.freq.entry b).setWidth 8).toNat = 0 := congrArg BitVec.toNat hzero
    rw [BitVec.toNat_setWidth] at hbyte
    omega
  have hnodup : ((tableEntries s.freq).map Prod.fst).Nodup := by
    rw [tableEntries_symbols]
    exact present_nodup s.freq
  have hread := readEntries_append hcount hnodup (fun _ _ => List.not_mem_nil) 0 [] (Table.tabulate fun _ => 0)
  rw [List.append_nil, putEntries_tableEntries hcounts] at hread
  exact hread

theorem padSizeByte_of_header (hcount : presentCount s.freq ≤ 31) :
    (u.byteAt .ibuf 5).toNat = s.pad.toNat * 32 + presentCount s.freq := by
  rw [hbytes 5 (by omega), wrhdrCommit_padSize_toNat hcount]

/-- RDHDR commits the header WRHDR wrote (rule R678). -/
theorem rdhdr_of_header (hcount : presentCount s.freq ≤ 31) (hcounts : ∀ b, (s.freq.entry b).toNat ≤ 255)
    (hmagic : u.params.magic = s.params.magic) (hin : u.inLen.toNat ≤ u.params.ibufSize)
    (hlen : 6 + 2 * presentCount s.freq ≤ u.inLen.toNat) : rdhdr u = .ok (rdhdrCommit u s.freq) := by
  have hbyte0 : u.byteAt .ibuf 0 = u.params.magic := by
    rw [hbytes 0 (by omega), hmagic]
    exact wrhdrCommit_byteAt_inside rfl
  have hsize : (u.byteAt .ibuf 5).toNat % 32 = presentCount s.freq := by
    rw [padSizeByte_of_header hbytes hcount]
    omega
  have hread := readEntries_of_header hbytes hcounts
  rw [← hsize] at hread hlen
  exact rdhdr_of_goodEntries hin hbyte0 hlen hread

/-- ORIG_SIZE, PAD and IN_OFF as read back from the header (rules R212, R676, R678). -/
theorem rdhdrCommit_of_header (hcount : presentCount s.freq ≤ 31) :
    (rdhdrCommit u s.freq).origSize = s.origSize ∧ (rdhdrCommit u s.freq).pad = s.pad
      ∧ (rdhdrCommit u s.freq).inOff.toNat = 6 + 2 * presentCount s.freq := by
  have hbyte5 := padSizeByte_of_header hbytes hcount
  refine ⟨BitVec.eq_of_toNat_eq ?_, BitVec.eq_of_toNat_eq ?_, ?_⟩
  · have hsize := inputWord_toNat u 1
    rw [hbytes 1 (by omega), hbytes (1 + 1) (by omega), hbytes (1 + 2) (by omega), hbytes (1 + 3) (by omega)] at hsize
    exact hsize.trans (wrhdrCommit_origSize s)
  · have hpad := padField_toNat (u.byteAt .ibuf 5)
    refine hpad.trans ?_
    omega
  · rw [rdhdrCommit_inOff_toNat, hbyte5]
    omega

end ReadBack

/-- Settles O38: RDHDR finds the header WRHDR committed and reads each field back. -/
theorem rdhdrInvertsWrhdr : Obligations.RdhdrInvertsWrhdr := by
  intro s t u _ hexec ht hmagic hin hlen hbytes
  obtain ⟨v, hok, rfl⟩ := Run.ok_of_complete (complete_of_exec hexec) ht
  obtain ⟨hcount, hcounts, -, rfl⟩ := wrhdr_ok hok
  obtain ⟨horig, hpad, hoff⟩ := rdhdrCommit_of_header hbytes hcount
  exact ⟨_, exec_of_ok (i := .rdhdr) (rdhdr_of_header hbytes hcount hcounts hmagic hin hlen), rfl, rfl, horig, hpad, hoff⟩

end Sys2Proof.Machine
end

section
/-! PROOFS. UNPACK undoes PACK: the payload's bits read back, and the symbols they decode to (rules R605, R612). -/

namespace Sys2Proof.Machine

/-! ### The payload read back -/

section Payload

variable {s u : State} {stream : Bits}
  (hlen : u.inLen.toNat = u.inOff.toNat + ceilDiv8 stream.length) (hpad : u.pad = (packCommit s stream).pad)
  (hbytes : ∀ k < ceilDiv8 stream.length,
    u.byteAt .ibuf (u.inOff.toNat + k) = (packCommit s stream).byteAt .obuf (s.outOff.toNat + k))

include hlen hpad

theorem meaningfulBits_length_of_payload : u.meaningfulBits.length = stream.length := by
  rw [State.meaningfulBits_length, hpad, packCommit_pad_toNat, hlen, ceilDiv8]
  omega

theorem pad_eq_zero_of_empty_payload (hempty : u.inOff.toNat = u.inLen.toNat) : u.pad = 0 := by
  apply BitVec.eq_of_toNat_eq
  rw [hpad, packCommit_pad_toNat]
  have hnone : ceilDiv8 stream.length = 0 := by omega
  rw [hnone, Nat.mul_zero, Nat.zero_sub]
  rfl

include hbytes

/-- The meaningful bits of a payload PACK wrote are the stream it packed (rules R553, R601). -/
theorem meaningfulBits_of_payload : u.meaningfulBits = stream := by
  have hlength := meaningfulBits_length_of_payload hlen hpad
  refine List.ext_getElem hlength fun k hk hk' => ?_
  have hin : k < 8 * ceilDiv8 stream.length := by
    rw [ceilDiv8]
    omega
  have hbit := packCommit_payloadBit s stream hin
  rw [← hbytes (k / 8) (by omega), List.getD_eq_getElem _ _ hk'] at hbit
  simp only [State.meaningfulBits, State.payloadBits, List.getElem_map, List.getElem_range, State.payloadBit]
  exact hbit

end Payload

/-! ### The symbols of a stream of codes -/

theorem eq_replicate_of_leaf {b : Byte} {freq : Table (BitVec 32)} (hperm : (CodeTree.leaf b).syms.Perm (present freq)) {xs : List Byte}
    (hxs : ∀ x ∈ xs, 1 ≤ (freq.entry x).toNat) : xs = List.replicate xs.length b :=
  List.eq_replicate_iff.mpr ⟨rfl, fun x hx => List.mem_singleton.mp (hperm.mem_iff.mpr (mem_present.mpr (hxs x hx)))⟩

/-- UNPACK of the codes of present symbols commits these symbols, be the tree a single leaf or not; it consumes the codes' bits when
it is not (rules R602, R605, R610, R612). -/
theorem unpack_of_codeStream {u : State} {tree : CodeTree} {freq : Table (BitVec 32)} {xs : List Byte}
    (hgrows : Grows (fun j => u.node[j]?) u.root.toNat tree) (hperm : tree.syms.Perm (present freq))
    (hxs : ∀ x ∈ xs, 1 ≤ (freq.entry x).toNat) (htree : u.treeV = true) (hin : u.inLen.toNat ≤ u.params.ibufSize)
    (hout : u.origSize.toNat ≤ u.params.obufSize) (hlength : xs.length = u.origSize.toNat) (hoff : u.inOff.toNat ≤ u.inLen.toNat)
    (hpad : u.inOff.toNat = u.inLen.toNat → u.pad = 0) (hbits : u.meaningfulBits = codeStream (codeTable tree.codes) xs) :
    ∃ consumed, unpack u = .ok (unpackCommit u xs consumed)
      ∧ ((u.entryAt u.root.toNat).leaf = false → consumed = (codeStream (codeTable tree.codes) xs).length) := by
  cases hgrows with
  | leaf hroot hleaf =>
    rw [eq_replicate_of_leaf hperm hxs, hlength, entryAt_of_getElem? hroot, hleaf]
    exact ⟨0, unpack_of_leaf_root htree hin hout hroot hleaf, nofun⟩
  | @node _ n l r hroot hinternal hleft hright =>
    have hgrows := Grows.node hroot hinternal hleft hright
    have hloop : decodeLoop u.node u.root u.meaningfulBits u.root u.origSize.toNat
        = (xs, (codeStream (codeTable (CodeTree.node l r).codes) xs).length) := by
      have hcodes := decodeLoop_codes hgrows (codeTable (CodeTree.node l r).codes).entry xs
        (fun x hx => mem_codes_of_present hperm (hxs x hx)) [] 0
      rw [List.append_nil, decodeLoop_zero, List.append_nil, Nat.zero_add, Nat.add_zero] at hcodes
      rw [hbits, ← hlength]
      exact hcodes
    exact ⟨_, (unpack_of_decodeLoop htree hgrows hin hout hoff hpad hloop).trans (if_neg hlength.ge.not_gt), fun _ => rfl⟩

/-! ### PACK's input -/

/-- A PACK that succeeds has passed its checks and committed the payload (rule R550). -/
theorem pack_ok {s t : State} (h : pack s = .ok t) :
    s.codeV = true ∧ s.inLen.toNat ≤ s.params.ibufSize ∧ (∀ i < s.inLen.toNat, s.codeLen.entry (s.byteAt .ibuf i) ≠ 0)
      ∧ s.outOff.toNat + ceilDiv8 (codeStream s.code (s.input s.inLen.toNat)).length ≤ s.params.obufSize
      ∧ t = packCommit s (codeStream s.code (s.input s.inLen.toNat)) := by
  rcases pack_cases s with ⟨f, lo, hi, hraised⟩ | ⟨stream, rfl, hcode, hin, hcoded, hout, hok⟩
  · exact Run.noConfusion (hraised.symm.trans h)
  · rw [packBits_length] at hout
    exact ⟨hcode, hin, firstMissing_input_eq_none.mp hcoded, hout, (Run.ok.inj (hok.symm.trans h)).symm⟩

theorem mem_input {s : State} {n : Nat} {x : Byte} : x ∈ s.input n ↔ ∃ i < n, s.byteAt .ibuf i = x := by
  simp [State.input]

theorem input_length (s : State) (n : Nat) : (s.input n).length = n := by
  simp [State.input]

theorem input_getElem? (s : State) {n k : Nat} (hk : k < n) : (s.input n)[k]? = some (s.byteAt .ibuf k) := by
  simp [State.input, hk]

/-- Each input byte PACK has packed on a valid tree is a present symbol: it has a code (rule R502). -/
theorem input_present {s : State} {tree : CodeTree} (hperm : tree.syms.Perm (present s.freq))
    (hcodeLen : s.codeLen = codeLengths (codeTable tree.codes))
    (hcoded : ∀ i < s.inLen.toNat, s.codeLen.entry (s.byteAt .ibuf i) ≠ 0) :
    ∀ x ∈ s.input s.inLen.toNat, 1 ≤ (s.freq.entry x).toNat := by
  intro x hx
  obtain ⟨i, hi, rfl⟩ := mem_input.mp hx
  have hne := hcoded i hi
  rw [hcodeLen] at hne
  rw [← code_pos_iff hperm, ← codeLengths_toNat hperm]
  exact Nat.pos_of_ne_zero fun hzero => hne (BitVec.eq_of_toNat_eq hzero)

/-- UNPACK, with the tree the codes came from, commits the input PACK encoded: the payload's meaningful bits are the stream PACK packed,
and every input byte is a present symbol (rule R612). -/
theorem unpack_of_pack {s t u : State} (hvalid : s.ValidityOk) (hcodeV : s.codeV = true) (hpack : pack s = .ok t)
    (htreeV : u.treeV = true) (hnode : u.node = s.node) (hroot : u.root = s.root) (hin : u.inLen.toNat ≤ u.params.ibufSize)
    (hlen : u.inLen.toNat = u.inOff.toNat + (t.outLen.toNat - s.outOff.toNat))
    (hbytes : ∀ k < t.outLen.toNat - s.outOff.toNat,
      u.byteAt .ibuf (u.inOff.toNat + k) = t.byteAt .obuf (s.outOff.toNat + k))
    (horig : u.origSize = s.inLen) (hpad : u.pad = t.pad) (hout : s.inLen.toNat ≤ u.params.obufSize) :
    ∃ consumed, unpack u = .ok (unpackCommit u (s.input s.inLen.toNat) consumed)
      ∧ ((s.entryAt s.root.toNat).leaf = false → BitVec.ofNat 40 consumed = t.nbits) := by
  obtain ⟨-, -, hcoded, hfits, rfl⟩ := pack_ok hpack
  obtain ⟨htree, hcode, hcodeLen⟩ := hvalid.2 hcodeV
  obtain ⟨tree, hgrows, hperm, hcodes⟩ := hvalid.codes htree
  rw [hcodes] at hcode
  rw [packCommit_outLen_toNat hfits, Nat.add_sub_cancel_left] at hlen hbytes
  have hpresent := input_present hperm (hcodeLen.trans (congrArg codeLengths hcode)) hcoded
  have hbits := meaningfulBits_of_payload hlen hpad hbytes
  have hempty := pad_eq_zero_of_empty_payload hlen hpad
  rw [hcode] at hbits
  rw [← hnode, ← hroot] at hgrows
  rw [← horig] at hout
  obtain ⟨consumed, hrun, hconsumed⟩ := unpack_of_codeStream hgrows hperm hpresent htreeV hin hout
    (by rw [input_length, horig]) (by omega) hempty hbits
  refine ⟨consumed, hrun, fun hinternal => ?_⟩
  rw [State.entryAt, ← hnode, ← hroot] at hinternal
  rw [hconsumed hinternal, ← hcode]
  rfl

/-- OBUF then holds the input (rule R612). -/
theorem unpackCommit_input_byteAt (s u : State) {n k : Nat} (consumed : Nat) (hk : k < n) :
    (unpackCommit u (s.input n) consumed).byteAt .obuf k = s.byteAt .ibuf k := by
  have hbyte := unpackCommit_byteAt_inside u (s.input n) consumed (k := k) (by rwa [input_length])
  rw [input_getElem? s hk] at hbyte
  exact Option.some.inj hbyte

/-- Settles O44: UNPACK commits the input PACK encoded. -/
theorem unpackInvertsPack : Obligations.UnpackInvertsPack := by
  intro s t u hvalid hcodeV _ hexec ht htreeV hnode hroot hin hlen hbytes horig hpad hout
  obtain ⟨v, hok, rfl⟩ := Run.ok_of_complete (complete_of_exec hexec) ht
  obtain ⟨consumed, hrun, hnbits⟩ :=
    unpack_of_pack hvalid hcodeV hok htreeV hnode hroot hin hlen hbytes horig hpad hout
  exact ⟨_, exec_of_ok (i := .unpack) hrun, rfl, horig, fun k hk => unpackCommit_input_byteAt s u consumed hk, hnbits⟩

end Sys2Proof.Machine
end

section
/-! PROOFS. COMPRESS and DECOMPRESS end to end: what COMPRESS commits as a function of its input, when it succeeds, and the round trip
(rules R605, R720 to R731). -/

namespace Sys2Proof.Machine

/-! ### What the sub-steps of COMPRESS commit -/

theorem Run.andThen_eq_ok {r : Run} {k : State → Run} {t : State} : r.andThen k = .ok t ↔ ∃ u, r = .ok u ∧ k u = .ok t := by
  cases r with
  | ok s => simp
  | raised f s => simp

/-- The state a successful ANALYZE commits (rule R400). -/
def analyzeCommit (s : State) : State :=
  { s with freq := countBytes (s.input s.inLen.toNat), origSize := s.inLen, treeV := false, codeV := false }

/-- The table a successful NORM leaves of a table (rule R420). -/
def capTable : CountPolicy → Table (BitVec 32) → Table (BitVec 32)
  | .fault, t => t
  | .saturate, t => saturate t

/-- The state a successful NORM commits (rule R420). -/
def normCommit (s : State) : State := { s.invalidate with freq := capTable s.params.policy s.freq }

/-- The state a successful GENCODE commits (rule R500). -/
def gencodeCommit (s : State) : State :=
  { s with
    codeLen := codeLengths (codeTable (treeCodes s.node s.root))
    code := codeTable (treeCodes s.node s.root)
    codeV := true }

theorem analyze_ok {s t : State} (h : analyze s = .ok t) :
    1 ≤ s.inLen.toNat ∧ s.inLen.toNat ≤ s.params.ibufSize ∧ t = analyzeCommit s := by
  rcases analyze_cases s with ⟨f, hraised⟩ | ⟨hpos, hin, hok⟩
  · exact Run.noConfusion (hraised.symm.trans h)
  · exact ⟨hpos, hin, (Run.ok.inj (hok.symm.trans h)).symm⟩

theorem norm_ok {s t : State} (h : norm s = .ok t) :
    presentCount t.freq ≤ 31 ∧ (∀ b, (t.freq.entry b).toNat ≤ 255) ∧ t = normCommit s := by
  rcases norm_cases s with ⟨f, hraised⟩ | ⟨hcount, hpolicy, hover, hok⟩ | ⟨hcount, hpolicy, hok⟩
  · exact Run.noConfusion (hraised.symm.trans h)
  · obtain rfl := Run.ok.inj (hok.symm.trans h)
    rw [popcountPresent_eq] at hcount
    refine ⟨hcount, firstOver_eq_none.mp hover, ?_⟩
    rw [normCommit, hpolicy]
    rfl
  · obtain rfl := Run.ok.inj (hok.symm.trans h)
    rw [popcountPresent_eq, ← presentCount_saturate] at hcount
    refine ⟨hcount, fun b => (saturate_entry s.freq b).trans_le (Nat.min_le_right _ _), ?_⟩
    rw [normCommit, hpolicy]
    rfl

theorem build_ok {s t : State} (h : build s = .ok t) :
    ∃ node root nnodes, treeOf s.freq = some (node, root, nnodes) ∧ t = buildCommit s node root nnodes := by
  rcases Nat.eq_zero_or_pos (presentCount s.freq) with hempty | hpos
  · exact Run.noConfusion ((build_of_empty hempty).symm.trans h)
  · obtain ⟨node, root, nnodes, htree, -⟩ := exists_treeOf hpos
    exact ⟨node, root, nnodes, htree, (Run.ok.inj ((build_of_treeOf htree).symm.trans h)).symm⟩

theorem gencode_of_tree {s : State} (h : s.treeV = true) : gencode s = .ok (gencodeCommit s) := if_pos h

/-! ### The file PACK and WRHDR write -/

/-- The codes of the input, concatenated: what PACK packs (rule R551). -/
def State.packStream (c : State) : Bits := codeStream c.code (c.input c.inLen.toNat)

/-- The state PACK and then WRHDR commit (rules R550, R650). -/
def fileCommit (c : State) : State := wrhdrCommit (packCommit c c.packStream)

/-- The container: the header and behind it the payload (rule R310). -/
def State.container (c : State) : List Byte :=
  headerBytes c.params.magic c.origSize (BitVec.ofNat 3 (padCount c.packStream.length)) c.freq ++ packBits c.packStream

theorem container_length (c : State) : c.container.length = 6 + 2 * presentCount c.freq + ceilDiv8 c.packStream.length := by
  rw [State.container, List.length_append, headerBytes_length, headerLength_eq, packBits_length]

theorem container_congr {c c' : State} (hmagic : c.params.magic = c'.params.magic) (horig : c.origSize = c'.origSize)
    (hfreq : c.freq = c'.freq) (hstream : c.packStream = c'.packStream) : c.container = c'.container := by
  rw [State.container, State.container, hmagic, horig, hfreq, hstream]

/-- Byte k of the payload stands at OUT_OFF + k (rules R550, R552). -/
theorem packCommit_byteAt_inside (s : State) {stream : Bits} {k : Nat} (hk : k < (packBits stream).length) :
    (packCommit s stream).byteAt .obuf (s.outOff.toNat + k) = (packBits stream)[k] := by
  rw [State.byteAt_writeBytes s (packCommit s stream) s.outOff.toNat (packBits stream) rfl rfl, dif_pos (by omega)]
  simp only [Nat.add_sub_cancel_left]

/-- The table is within the format's limits, OUT_OFF lies where the header ends, and the payload fits: COMPRESS's state before PACK. -/
structure State.ReadyToWrite (c : State) : Prop where
  count : presentCount c.freq ≤ 31
  counts : ∀ b, (c.freq.entry b).toNat ≤ 255
  offset : c.outOff.toNat = 6 + 2 * presentCount c.freq
  pack : Machine.pack c = .ok (packCommit c c.packStream)

section File

variable {c : State} (hc : c.ReadyToWrite)

include hc

theorem State.ReadyToWrite.fits : c.outOff.toNat + ceilDiv8 c.packStream.length ≤ c.params.obufSize := by
  obtain ⟨-, -, -, hfits, -⟩ := pack_ok hc.pack
  exact hfits

theorem State.ReadyToWrite.wrhdr : wrhdr (packCommit c c.packStream) = .ok (fileCommit c) := by
  have hfits := hc.fits
  rw [hc.offset] at hfits
  exact wrhdr_of_fits hc.count hc.counts ((Nat.le_add_right _ _).trans hfits)

/-- OUT_LEN is the container's length (rule R722). -/
theorem State.ReadyToWrite.outLen_toNat : (fileCommit c).outLen.toNat = c.container.length := by
  have hpacked := packCommit_outLen_toNat hc.fits
  have hlen := wrhdrCommit_outLen_toNat (s := packCommit c c.packStream) hc.count
  have hfreq : (packCommit c c.packStream).freq = c.freq := rfl
  rw [hpacked, hc.offset, hfreq] at hlen
  rw [fileCommit, hlen, container_length]
  omega

/-- Behind the header stands what PACK has written. -/
theorem State.ReadyToWrite.byteAt_payload (k : Nat) :
    (fileCommit c).byteAt .obuf (6 + 2 * presentCount c.freq + k)
      = (packCommit c c.packStream).byteAt .obuf (c.outOff.toNat + k) := by
  rw [hc.offset]
  exact wrhdrCommit_byteAt_outside (s := packCommit c c.packStream) (Nat.le_add_right _ _)

/-- OBUF[0 … OUT_LEN − 1] holds the container. -/
theorem State.ReadyToWrite.byteAt_inside {a : Nat} (ha : a < c.container.length) :
    some ((fileCommit c).byteAt .obuf a) = c.container[a]? := by
  have hheader : (headerBytes c.params.magic c.origSize (BitVec.ofNat 3 (padCount c.packStream.length)) c.freq).length
      = 6 + 2 * presentCount c.freq := by rw [headerBytes_length, headerLength_eq]
  rw [container_length] at ha
  rw [State.container]
  by_cases hin : a < 6 + 2 * presentCount c.freq
  · have hget := List.getElem?_eq_getElem (hin.trans_eq hheader.symm)
    rw [List.getElem?_append_left (hin.trans_eq hheader.symm), hget]
    exact congrArg some (wrhdrCommit_byteAt_inside (s := packCommit c c.packStream) hget)
  · obtain ⟨k, rfl⟩ := Nat.exists_eq_add_of_le (Nat.not_lt.mp hin)
    have hk : k < (packBits c.packStream).length := by
      rw [packBits_length]
      omega
    rw [List.getElem?_append_right (by omega), hheader, Nat.add_sub_cancel_left, List.getElem?_eq_getElem hk, hc.byteAt_payload,
      packCommit_byteAt_inside c hk]

/-- OBUF behind the container is as before. -/
theorem State.ReadyToWrite.byteAt_outside {a : Nat} (ha : c.container.length ≤ a) :
    (fileCommit c).byteAt .obuf a = c.byteAt .obuf a := by
  rw [container_length, ← hc.offset] at ha
  obtain ⟨k, rfl⟩ : ∃ k, a = 6 + 2 * presentCount c.freq + k :=
    Nat.exists_eq_add_of_le (by rw [← hc.offset]; omega)
  rw [hc.byteAt_payload, hc.offset]
  refine packCommit_byteAt_outside c c.packStream (.inr ?_)
  rw [hc.offset] at ha ⊢
  exact ha

end File

/-! ### COMPRESS as a function of its input -/

/-- The table COMPRESS builds its tree from and writes in the header: the counts of the input, within the format's limits. -/
def State.compressTable (s : State) : Table (BitVec 32) := capTable s.params.policy (countBytes (s.input s.inLen.toNat))

/-- The state PACK starts from in COMPRESS, given the tree of the table: the codes made and OUT_OFF behind the header (rule R720). -/
def codedCommit (s : State) (node : Vector Node 511) (root : BitVec 9) (nnodes : BitVec 10) : State :=
  { s with
    freq := s.compressTable
    origSize := s.inLen
    node := node
    root := root
    nnodes := nnodes
    codeLen := codeLengths (codeTable (treeCodes node root))
    code := codeTable (treeCodes node root)
    treeV := true
    codeV := true
    outOff := BitVec.ofNat 32 (headerLength s.compressTable) }

theorem codedCommit_outOff_toNat {s : State} (hcount : presentCount s.compressTable ≤ 31) (node : Vector Node 511)
    (root : BitVec 9) (nnodes : BitVec 10) :
    (codedCommit s node root nnodes).outOff.toNat = 6 + 2 * presentCount s.compressTable := by
  have hoff : (codedCommit s node root nnodes).outOff = BitVec.ofNat 32 (headerLength s.compressTable) := rfl
  rw [hoff, headerLength_eq, BitVec.toNat_ofNat, Nat.mod_eq_of_lt (by omega)]

/-- On the tree of the table both flags are true to what they claim (rules R114, R115). -/
theorem codedCommit_validityOk {s : State} {node : Vector Node 511} {root : BitVec 9} {nnodes : BitVec 10}
    (htree : treeOf s.compressTable = some (node, root, nnodes)) : (codedCommit s node root nnodes).ValidityOk :=
  ⟨fun _ => htree, fun _ => ⟨rfl, rfl, rfl⟩⟩

/-- A COMPRESS that succeeds has built the tree of its table, and PACK and WRHDR have committed the file (rules R720, R722). -/
theorem compress_ok {s t : State} (h : compress s = .ok t) :
    ∃ node root nnodes, treeOf s.compressTable = some (node, root, nnodes)
      ∧ (codedCommit s node root nnodes).ReadyToWrite ∧ t = fileCommit (codedCommit s node root nnodes) := by
  simp only [compress, Run.andThen_eq_ok] at h
  obtain ⟨p, ⟨o, ⟨c, ⟨b, ⟨n, ⟨a, hanalyze, hnorm⟩, hbuild⟩, hgencode⟩, hoffset⟩, hpack⟩, hwrhdr⟩ := h
  obtain ⟨-, -, rfl⟩ := analyze_ok hanalyze
  obtain ⟨hcount, hcounts, rfl⟩ := norm_ok hnorm
  obtain ⟨node, root, nnodes, htree, rfl⟩ := build_ok hbuild
  obtain rfl := Run.ok.inj ((gencode_of_tree rfl).symm.trans hgencode)
  obtain rfl : codedCommit s node root nnodes = o := Run.ok.inj hoffset
  obtain ⟨-, -, -, -, rfl⟩ := pack_ok hpack
  obtain ⟨-, -, -, rfl⟩ := wrhdr_ok hwrhdr
  exact ⟨node, root, nnodes, htree, ⟨hcount, hcounts, codedCommit_outOff_toNat hcount node root nnodes, hpack⟩, rfl⟩

/-! ### Two runs on the same input -/

theorem input_congr {s s' : State} (hlen : s.inLen = s'.inLen)
    (hbytes : ∀ i < s.inLen.toNat, s.byteAt .ibuf i = s'.byteAt .ibuf i) :
    s.input s.inLen.toNat = s'.input s'.inLen.toNat := by
  rw [State.input, State.input, ← hlen]
  exact List.map_congr_left fun i hi => hbytes i (List.mem_range.mp hi)

/-- The files two states lead to are the same if the states agree on what a container holds. -/
theorem fileCommit_congr {c c' : State} (hc : c.ReadyToWrite) (hc' : c'.ReadyToWrite) (hcontainer : c.container = c'.container) :
    (∀ a < (fileCommit c).outLen.toNat, (fileCommit c).byteAt .obuf a = (fileCommit c').byteAt .obuf a)
      ∧ (fileCommit c).outLen = (fileCommit c').outLen := by
  refine ⟨fun a ha => Option.some.inj ?_, BitVec.eq_of_toNat_eq ?_⟩
  · rw [hc.outLen_toNat] at ha
    rw [hc.byteAt_inside ha, hc'.byteAt_inside (hcontainer ▸ ha), hcontainer]
  · rw [hc.outLen_toNat, hc'.outLen_toNat, hcontainer]

/-- Settles O41: the table, hence the tree and the stream, and the container are functions of the input, MAGIC and COUNT_POLICY. -/
theorem compressDependsOnItsInputOnly : Obligations.CompressDependsOnItsInputOnly := by
  intro s s' t t' hlen hbytes hmagic hpolicy _ _ hexec hexec' ht ht'
  obtain ⟨v, hok, rfl⟩ := Run.ok_of_complete (complete_of_exec hexec) ht
  obtain ⟨v', hok', rfl⟩ := Run.ok_of_complete (complete_of_exec hexec') ht'
  obtain ⟨node, root, nnodes, htree, hready, rfl⟩ := compress_ok hok
  obtain ⟨node', root', nnodes', htree', hready', rfl⟩ := compress_ok hok'
  have hinput := input_congr hlen hbytes
  have htable : s.compressTable = s'.compressTable := by rw [State.compressTable, hpolicy, hinput]; rfl
  rw [htable] at htree
  obtain ⟨rfl, rfl, rfl⟩ : node = node' ∧ root = root' ∧ nnodes = nnodes' := by
    simpa only [Option.some.injEq, Prod.mk.injEq] using htree.symm.trans htree'
  have hstream : (codedCommit s node root nnodes).packStream = (codedCommit s' node root nnodes).packStream :=
    congrArg (codeStream (codeTable (treeCodes node root))) hinput
  have hcontainer : (codedCommit s node root nnodes).container = (codedCommit s' node root nnodes).container :=
    container_congr hmagic hlen htable hstream
  obtain ⟨hfile, houtLen⟩ := fileCommit_congr hready hready' hcontainer
  refine ⟨hfile, houtLen, ?_, hlen, ?_, ?_, htable, rfl, rfl, rfl, rfl, rfl, rfl, rfl⟩
  · exact congrArg (fun t => BitVec.ofNat 32 (headerLength t)) htable
  · exact congrArg (fun p : Bits => BitVec.ofNat 3 (padCount p.length)) hstream
  · exact congrArg (fun p : Bits => BitVec.ofNat 40 p.length) hstream

/-! ### The round trip -/

theorem decompress_of_steps {s a b c : State} (hrdhdr : rdhdr s = .ok a) (hbuild : build a = .ok b) (hunpack : unpack b = .ok c) :
    decompress s = .ok c := by
  rw [decompress, hrdhdr, Run.andThen_ok, hbuild, Run.andThen_ok, hunpack]

/-- The state UNPACK starts from in DECOMPRESS of the file of `c`: the header read, and the tree of its table built (rule R730). -/
def fileRead (c u : State) : State := buildCommit (rdhdrCommit u c.freq) c.node c.root c.nnodes

/-- DECOMPRESS of a file written from a valid tree of its table: RDHDR reads the header back, BUILD makes the same tree of the same
table, and UNPACK undoes PACK (rules R612, R678, R731). -/
theorem decompress_of_file {c u : State} (hc : c.ReadyToWrite) (hvalid : c.ValidityOk) (horig : c.origSize = c.inLen)
    (hmagic : u.params.magic = c.params.magic) (hlen : u.inLen = (fileCommit c).outLen) (hin : u.inLen.toNat ≤ u.params.ibufSize)
    (hbytes : ∀ a < (fileCommit c).outLen.toNat, u.byteAt .ibuf a = (fileCommit c).byteAt .obuf a)
    (hout : c.inLen.toNat ≤ u.params.obufSize) :
    ∃ v consumed, decompress u = .ok (unpackCommit v (c.input c.inLen.toNat) consumed) ∧ v.errcode = u.errcode
      ∧ v.origSize = c.inLen := by
  obtain ⟨hcodeV, -⟩ := pack_ok hc.pack
  obtain ⟨htreeV, -, -⟩ := hvalid.2 hcodeV
  rw [hc.outLen_toNat, container_length] at hbytes
  have hulen : u.inLen.toNat = 6 + 2 * presentCount c.freq + ceilDiv8 c.packStream.length := by
    rw [hlen, hc.outLen_toNat, container_length]
  have hheader : ∀ a < 6 + 2 * presentCount c.freq, u.byteAt .ibuf a = (fileCommit c).byteAt .obuf a :=
    fun a ha => hbytes a (by omega)
  have hrdhdr := rdhdr_of_header (s := packCommit c c.packStream) hheader hc.count hc.counts hmagic hin (Nat.le.intro hulen.symm)
  obtain ⟨hsize, hpad, hinOff⟩ := rdhdrCommit_of_header (s := packCommit c c.packStream) hheader hc.count
  have hbuild : build (rdhdrCommit u c.freq) = .ok (fileRead c u) := build_of_treeOf (hvalid.1 htreeV)
  have hpayload : (packCommit c c.packStream).outLen.toNat - c.outOff.toNat = ceilDiv8 c.packStream.length := by
    rw [packCommit_outLen_toNat hc.fits, Nat.add_sub_cancel_left]
  have hvinOff : (fileRead c u).inOff.toNat = 6 + 2 * presentCount c.freq := hinOff
  have hvlen : (fileRead c u).inLen.toNat
      = (fileRead c u).inOff.toNat
        + ((packCommit c c.packStream).outLen.toNat - c.outOff.toNat) := by
    rw [hvinOff, hpayload]
    exact hulen
  have hvbytes : ∀ k < (packCommit c c.packStream).outLen.toNat - c.outOff.toNat,
      (fileRead c u).byteAt .ibuf
          ((fileRead c u).inOff.toNat + k)
        = (packCommit c c.packStream).byteAt .obuf (c.outOff.toNat + k) := fun k hk => by
    rw [hpayload] at hk
    rw [hvinOff, ← hc.byteAt_payload]
    exact hbytes _ (Nat.add_lt_add_left hk _)
  obtain ⟨consumed, hunpack, -⟩ :=
    unpack_of_pack (u := fileRead c u) hvalid hcodeV hc.pack rfl rfl rfl hin hvlen hvbytes (hsize.trans horig) hpad hout
  exact ⟨_, consumed, decompress_of_steps hrdhdr hbuild hunpack, rfl, hsize.trans horig⟩

/-- Settles O45: COMPRESS writes its file from the valid tree of its table. -/
theorem decompressInvertsCompress : Obligations.DecompressInvertsCompress := by
  intro s t u _ hexec ht hmagic hlen hin hbytes hout
  obtain ⟨v, hok, rfl⟩ := Run.ok_of_complete (complete_of_exec hexec) ht
  obtain ⟨node, root, nnodes, htree, hready, rfl⟩ := compress_ok hok
  rw [← hlen] at hin
  obtain ⟨v, consumed, hrun, herrcode, horig⟩ :=
    decompress_of_file hready (codedCommit_validityOk htree) rfl hmagic hlen hin hbytes hout
  exact ⟨_, exec_of_ok (i := .decompress) hrun, herrcode, horig,
    fun k hk => unpackCommit_input_byteAt (codedCommit s node root nnodes) v consumed hk⟩

end Sys2Proof.Machine
end

section
/-! PROOFS. When COMPRESS succeeds, and DECOMPRESS of a container with one table entry (rules R605, R721, R722, R730). -/

namespace Sys2Proof.Machine

/-! ### The table of an input within capacity -/

theorem norm_of_capacity {s : State} (hcount : presentCount s.freq ≤ 31)
    (hfault : s.params.policy = .fault → ∀ b, (s.freq.entry b).toNat ≤ 255) : norm s = .ok (normCommit s) := by
  cases hpolicy : s.params.policy with
  | fault =>
    rw [norm_of_fault_within hcount hpolicy (firstOver_eq_none.mpr (hfault hpolicy)), normCommit, hpolicy]
    rfl
  | saturate =>
    rw [norm_of_saturate hcount hpolicy, normCommit, hpolicy]
    rfl

/-- The format's limits leave each symbol present or absent (rule R421). -/
theorem capTable_present_iff (p : CountPolicy) (t : Table (BitVec 32)) (b : Byte) :
    1 ≤ ((capTable p t).entry b).toNat ↔ 1 ≤ (t.entry b).toNat := by
  cases p with
  | fault => rfl
  | saturate =>
    rw [capTable, saturate_entry]
    omega

theorem presentCount_capTable (p : CountPolicy) (t : Table (BitVec 32)) : presentCount (capTable p t) = presentCount t := by
  cases p with
  | fault => rfl
  | saturate => exact presentCount_saturate t

theorem presentCount_countBytes (s : State) : presentCount (countBytes (s.input s.inLen.toNat)) = s.inputDistinct := by
  simp only [presentCount, State.inputDistinct, countBytes_input_entry]

theorem presentCount_compressTable (s : State) : presentCount s.compressTable = s.inputDistinct :=
  (presentCount_capTable _ _).trans (presentCount_countBytes s)

theorem compressTable_entry_le {s : State} (hfault : s.params.policy = .fault → ∀ b, s.inputCount b ≤ 255) (b : Byte) :
    (s.compressTable.entry b).toNat ≤ 255 := by
  rw [State.compressTable]
  cases hpolicy : s.params.policy with
  | fault => exact (countBytes_input_entry s b).trans_le (hfault hpolicy b)
  | saturate => exact (saturate_entry _ b).trans_le (Nat.min_le_right _ _)

/-- Every input byte is present in the table (rule R400). -/
theorem compressTable_present {s : State} {i : Nat} (hi : i < s.inLen.toNat) :
    1 ≤ (s.compressTable.entry (s.byteAt .ibuf i)).toNat := by
  rw [State.compressTable, capTable_present_iff, countBytes_input_entry]
  exact List.countP_pos_iff.mpr ⟨i, List.mem_range.mpr hi, beq_self_eq_true _⟩

/-! ### The length of the stream -/

/-- A stream of codes of at least one and at most `m` bits is at least as long as the input and at most `m` times as long. -/
theorem codeStream_length_bounds {code : Table Bits} {m : Nat} (xs : List Byte)
    (hcode : ∀ x ∈ xs, 1 ≤ (code.entry x).length ∧ (code.entry x).length ≤ m) :
    xs.length ≤ (codeStream code xs).length ∧ (codeStream code xs).length ≤ m * xs.length := by
  induction xs with
  | nil => simp [codeStream]
  | cons x xs ih =>
    obtain ⟨hpos, hle⟩ := hcode x List.mem_cons_self
    obtain ⟨hlower, hupper⟩ := ih fun y hy => hcode y (List.mem_cons_of_mem x hy)
    rw [codeStream] at hlower hupper ⊢
    rw [List.flatMap_cons, List.length_append, List.length_cons, Nat.mul_succ]
    omega

section Coded

variable {s : State} {node : Vector Node 511} {root : BitVec 9} {nnodes : BitVec 10}
  (htree : treeOf s.compressTable = some (node, root, nnodes))

include htree

/-- Every input byte has a code, of at most 30 bits when at most 31 symbols are present (rules R502, R506). -/
theorem codedCommit_code_bounds (hcount : presentCount s.compressTable ≤ 31) {i : Nat} (hi : i < s.inLen.toNat) :
    1 ≤ ((codedCommit s node root nnodes).code.entry (s.byteAt .ibuf i)).length
      ∧ ((codedCommit s node root nnodes).code.entry (s.byteAt .ibuf i)).length ≤ 30 := by
  obtain ⟨tree, -, hperm, hcodes⟩ := (codedCommit_validityOk htree).codes rfl
  have hcode : (codedCommit s node root nnodes).code = codeTable tree.codes := congrArg codeTable hcodes
  have hle := codeTable_length_le hperm (s.byteAt .ibuf i)
  have hpos := (code_pos_iff hperm (b := s.byteAt .ibuf i)).mpr (compressTable_present hi)
  have hfreq : presentCount (codedCommit s node root nnodes).freq = presentCount s.compressTable := rfl
  rw [hcode]
  omega

theorem codedCommit_codeLen_ne_zero (hcount : presentCount s.compressTable ≤ 31) {i : Nat} (hi : i < s.inLen.toNat) :
    (codedCommit s node root nnodes).codeLen.entry (s.byteAt .ibuf i) ≠ 0 := by
  obtain ⟨hpos, hle⟩ := codedCommit_code_bounds htree hcount hi
  have hlen : (codedCommit s node root nnodes).codeLen.entry (s.byteAt .ibuf i)
      = BitVec.ofNat 8 ((codedCommit s node root nnodes).code.entry (s.byteAt .ibuf i)).length := codeLengths_entry _ _
  intro hzero
  have hnat : (BitVec.ofNat 8 ((codedCommit s node root nnodes).code.entry (s.byteAt .ibuf i)).length).toNat = 0 :=
    congrArg BitVec.toNat (hlen.symm.trans hzero)
  rw [BitVec.toNat_ofNat] at hnat
  omega

/-- The stream has a bit per input byte, and at most 30 (rule R722). -/
theorem codedCommit_packStream_length (hcount : presentCount s.compressTable ≤ 31) :
    s.inLen.toNat ≤ (codedCommit s node root nnodes).packStream.length
      ∧ (codedCommit s node root nnodes).packStream.length ≤ 30 * s.inLen.toNat := by
  have hbounds := codeStream_length_bounds (code := (codedCommit s node root nnodes).code) (m := 30) (s.input s.inLen.toNat)
    fun x hx => by
      obtain ⟨i, hi, rfl⟩ := mem_input.mp hx
      exact codedCommit_code_bounds htree hcount hi
  rw [input_length] at hbounds
  exact hbounds

/-- With OBUF large enough COMPRESS comes to PACK with a table within the limits, and PACK succeeds. -/
theorem codedCommit_readyToWrite (hcount : presentCount s.compressTable ≤ 31)
    (hcounts : ∀ b, (s.compressTable.entry b).toNat ≤ 255) (hin : s.inLen.toNat ≤ s.params.ibufSize)
    (hout : 68 + 4 * s.inLen.toNat ≤ s.params.obufSize) : (codedCommit s node root nnodes).ReadyToWrite := by
  have hoff := codedCommit_outOff_toNat hcount node root nnodes
  refine ⟨hcount, hcounts, hoff, pack_of_fits rfl hin (firstMissing_input_eq_none.mpr fun i hi => ?_) ?_⟩
  · exact codedCommit_codeLen_ne_zero htree hcount hi
  · obtain ⟨-, hlen⟩ := codedCommit_packStream_length htree hcount
    have hfit : 6 + 2 * presentCount s.compressTable + ceilDiv8 (codedCommit s node root nnodes).packStream.length
        ≤ s.params.obufSize := by
      rw [ceilDiv8]
      omega
    rw [hoff, packBits_length]
    exact hfit

/-- COMPRESS runs through its sub-steps when the input is within capacity and the file can be written (rule R720). -/
theorem compress_of_capacity (hready : (codedCommit s node root nnodes).ReadyToWrite) (hpos : 1 ≤ s.inLen.toNat)
    (hin : s.inLen.toNat ≤ s.params.ibufSize) (hfault : s.params.policy = .fault → ∀ b, s.inputCount b ≤ 255) :
    compress s = .ok (fileCommit (codedCommit s node root nnodes)) := by
  have hcount : presentCount (analyzeCommit s).freq ≤ 31 :=
    (presentCount_capTable s.params.policy _).symm.trans_le hready.count
  have hnorm := norm_of_capacity (s := analyzeCommit s) hcount
    fun hpolicy b => (countBytes_input_entry s b).trans_le (hfault hpolicy b)
  have hbuild := build_of_treeOf (s := normCommit (analyzeCommit s)) htree
  simp only [compress, Run.andThen_eq_ok]
  exact ⟨_, ⟨codedCommit s node root nnodes, ⟨_, ⟨_, ⟨_, ⟨_, analyze_of_fits hpos hin, hnorm⟩, hbuild⟩, gencode_of_tree rfl⟩, rfl⟩,
    hready.pack⟩, hready.wrhdr⟩

end Coded

/-- What COMPRESS writes, and that it writes nothing else (rule R720). -/
theorem fileCommit_codedCommit_frame (s : State) (node : Vector Node 511) (root : BitVec 9) (nnodes : BitVec 10) :
    let t := fileCommit (codedCommit s node root nnodes)
    t = { s with
      freq := t.freq, node := t.node, root := t.root, nnodes := t.nnodes, codeLen := t.codeLen, code := t.code
      treeV := true, codeV := true, origSize := t.origSize, outOff := t.outOff, obuf := t.obuf, pad := t.pad
      nbits := t.nbits, outLen := t.outLen } := rfl

/-- Settles O40: at most 31 symbols make codes of at most 30 bits, so the payload fits behind the header and every sub-step succeeds. -/
theorem compressSucceedsWithinCapacity : Obligations.CompressSucceedsWithinCapacity := by
  intro s hzero hpos hin hdistinct hfault hout
  rw [← presentCount_compressTable] at hdistinct ⊢
  obtain ⟨node, root, nnodes, htree, -⟩ := exists_treeOf (presentCount_pos_of_entry (compressTable_present hpos))
  have hready := codedCommit_readyToWrite htree hdistinct (compressTable_entry_le hfault) hin hout
  have hnbits : (fileCommit (codedCommit s node root nnodes)).nbits.toNat = (codedCommit s node root nnodes).packStream.length :=
    packCommit_nbits_toNat hready.fits
  have houtLen := hready.outLen_toNat
  obtain ⟨hbits, -⟩ := codedCommit_packStream_length htree hdistinct
  refine ⟨_, exec_of_ok (i := .compress) (compress_of_capacity htree hready hpos hin hfault), hzero, rfl, rfl, rfl,
    codedCommit_outOff_toNat hdistinct node root nnodes, ?_, ?_, ?_, fun a ha => ?_, ?_⟩
  · rw [State.succeed_outLen, State.succeed_nbits, houtLen, hnbits, container_length]
    rfl
  · rw [State.succeed_nbits, hnbits]
    exact hbits
  · exact wrhdrCommit_byteAt_inside rfl
  · exact hready.byteAt_outside (houtLen.symm.trans_le ha)
  · exact congrArg State.succeed (fileCommit_codedCommit_frame s node root nnodes)

/-! ### One table entry -/

/-- The table of one entry. -/
def singleTable (b c : Byte) : Table (BitVec 32) := (Table.tabulate fun _ => 0).put b (c.setWidth 32)

theorem present_singleTable {b c : Byte} (hc : c ≠ 0) : (present (singleTable b c)).Perm [b] := by
  refine (List.perm_ext_iff_of_nodup (present_nodup _) (List.nodup_singleton b)).mpr fun x => ?_
  rw [mem_present, singleTable, Table.entry_put, Table.entry_tabulate, List.mem_singleton]
  split
  case isTrue hx =>
    have hne : c.toNat ≠ 0 := fun hzero => hc (BitVec.eq_of_toNat_eq hzero)
    rw [BitVec.toNat_setWidth_of_le (by decide)]
    exact iff_of_true (Nat.pos_of_ne_zero hne) hx
  case isFalse hx => exact iff_of_false (by simp) hx

/-- The tree of a table of one entry is that symbol's leaf (rules R450, R455). -/
theorem treeOf_singleTable {b c : Byte} (hc : c ≠ 0) : ∃ node root nnodes n,
    treeOf (singleTable b c) = some (node, root, nnodes) ∧ node[root.toNat]? = some n ∧ n.leaf = true ∧ n.sym = b := by
  have hperm := present_singleTable (b := b) hc
  have hpos : 1 ≤ presentCount (singleTable b c) := presentCount_pos_of_entry (mem_present.mp (hperm.mem_iff.mpr List.mem_cons_self))
  obtain ⟨node, root, nnodes, htree, -⟩ := exists_treeOf hpos
  have hvalid : (buildCommit { State.reset with freq := singleTable b c } node root nnodes).ValidityOk := ⟨fun _ => htree, nofun⟩
  obtain ⟨-, tree, hgrows, hsyms⟩ := hvalid.tree rfl
  have hsingle : tree.syms.Perm [b] := hsyms.trans hperm
  cases hgrows with
  | leaf hroot hleaf => exact ⟨node, root, nnodes, _, htree, hroot, hleaf, List.singleton_perm_singleton.mp hsingle⟩
  | @node _ _ l r _ _ _ _ =>
    have hlength := hsingle.length_eq
    have hl := l.syms_pos
    have hr := r.syms_pos
    rw [CodeTree.syms, List.length_append, List.length_singleton] at hlength
    omega

/-- RDHDR reads the table of one entry (rule R673). -/
theorem rdhdr_of_singleEntry {s : State} (hlen : 8 ≤ s.inLen.toNat) (hin : s.inLen.toNat ≤ s.params.ibufSize)
    (hmagic : s.byteAt .ibuf 0 = s.params.magic) (hsize : (s.byteAt .ibuf 5).toNat % 32 = 1) (hcount : s.byteAt .ibuf 7 ≠ 0) :
    rdhdr s = .ok (rdhdrCommit s (singleTable (s.byteAt .ibuf 6) (s.byteAt .ibuf 7))) := by
  refine rdhdr_of_goodEntries hin hmagic (by rwa [hsize]) ?_
  rw [hsize]
  exact readEntries_good (seen := []) hcount List.not_mem_nil 0 [] _

/-- Settles O43: the tree of the one entry's table is a leaf, which UNPACK repeats. -/
theorem decompressRepeatsASingleSymbol : Obligations.DecompressRepeatsASingleSymbol := by
  intro s hlen hin hmagic hsize hcount size hout
  obtain ⟨node, root, nnodes, n, htree, hroot, hleaf, hsym⟩ := treeOf_singleTable (b := s.byteAt .ibuf 6) hcount
  have hrdhdr := rdhdr_of_singleEntry hlen hin hmagic hsize hcount
  have hbuild := build_of_treeOf (s := rdhdrCommit s (singleTable (s.byteAt .ibuf 6) (s.byteAt .ibuf 7))) htree
  have horig : (s.inputWord 1).toNat = size := inputWord_toNat s 1
  have hunpack := unpack_of_leaf_root
    (s := buildCommit (rdhdrCommit s (singleTable (s.byteAt .ibuf 6) (s.byteAt .ibuf 7))) node root nnodes)
    rfl hin (horig.trans_le hout) hroot hleaf
  refine ⟨_, exec_of_ok (i := .decompress) (decompress_of_steps hrdhdr hbuild hunpack), horig, fun k hk => ?_, fun k hk => ?_, ?_⟩
  · rw [← horig] at hk
    exact (unpackCommit_replicate_byteAt _ _ n.sym 0 hk).trans hsym
  · rw [← horig] at hk
    exact unpackCommit_byteAt_outside _ (List.replicate _ n.sym) 0 (by rw [List.length_replicate]; exact hk)
  · have hinOff : BitVec.ofNat 32 (6 + 2 * sizeField (s.byteAt .ibuf 5)) = 8 := by
      rw [sizeField_eq, hsize]
      rfl
    rw [← hinOff]
    rfl

end Sys2Proof.Machine
end

section
/-! PROOFS. The register block, the host's accesses and reset: what each register reads, what a write does while idle and while BUSY,
what a read leaves unchanged, and which accesses are faults (rules R120 to R151, R170, R205, R215, R217, R900, R942 to R951). -/

namespace Sys2Proof.Machine

/-- Settles O11: NOP's run commits the state it finds. -/
theorem nopOnlyCompletes : Obligations.NopOnlyCompletes := fun _ => exec_of_ok (i := .nop) rfl

/-! ### Which register an offset is -/

theorem lookupReg_cases (off : Nat) (rows : List (Nat × Reg)) :
    lookupReg off rows = .reserved ∨ (off, lookupReg off rows) ∈ rows := by
  induction rows with
  | nil => exact .inl rfl
  | cons row rows ih =>
    rw [lookupReg]
    split
    case isTrue heq =>
      rw [heq]
      exact .inr List.mem_cons_self
    case isFalse => exact ih.imp_right (List.mem_cons_of_mem row)

/-- An offset is in the FREQ window, in the window of the code words, reserved, or a single register's. -/
theorem regAt_cases (off : BitVec 12) :
    ((0x400 ≤ off.toNat ∧ off.toNat < 0x800) ∧ ∃ b, regAt off = .freq b)
      ∨ ((0x048 ≤ off.toNat ∧ off.toNat < 0x068) ∧ ∃ k, regAt off = .codeWord k)
      ∨ regAt off = .reserved ∨ (off.toNat, regAt off) ∈ registerMap := by
  rw [regAt]
  split
  case isTrue hfreq => exact .inl ⟨hfreq, _, rfl⟩
  case isFalse =>
    split
    case isTrue hword => exact .inr (.inl ⟨hword, _, rfl⟩)
    case isFalse => exact .inr (.inr (lookupReg_cases off.toNat registerMap))

theorem registerMap_offset_bounds : ∀ row ∈ registerMap, row.1 < 0x078 ∧ row.1 ≠ 0x03C := by decide

/-- The reserved offsets (rule R140). -/
theorem regAt_reserved {off : BitVec 12} (h : off = 0x03C ∨ (0x078 ≤ off.toNat ∧ off.toNat < 0x400) ∨ 0x800 ≤ off.toNat) :
    regAt off = .reserved := by
  have hoff : off.toNat = 0x03C ∨ (0x078 ≤ off.toNat ∧ off.toNat < 0x400) ∨ 0x800 ≤ off.toNat :=
    h.imp_left fun heq => congrArg BitVec.toNat heq
  rcases regAt_cases off with ⟨hfreq, -⟩ | ⟨hword, -⟩ | hreserved | hsingle
  · omega
  · omega
  · exact hreserved
  · have hbounds := registerMap_offset_bounds _ hsingle
    omega

theorem registerMap_status : ∀ row ∈ registerMap, row.2 = .status → row.1 = 0x004 := by decide

theorem regAt_ne_status {off : BitVec 12} (h : off ≠ 0x004) : regAt off ≠ .status := by
  intro hstatus
  rcases regAt_cases off with ⟨-, b, hfreq⟩ | ⟨-, k, hword⟩ | hreserved | hsingle
  · exact Reg.noConfusion (hfreq.symm.trans hstatus)
  · exact Reg.noConfusion (hword.symm.trans hstatus)
  · exact Reg.noConfusion (hreserved.symm.trans hstatus)
  · exact h (BitVec.eq_of_toNat_eq (registerMap_status _ hsingle hstatus))

/-! ### What the single registers read -/

theorem statusWord_toNat (s : State) : s.statusWord.toNat = s.busy.toNat + 2 * s.done.toNat + 4 * s.ovr.toNat + 8 * s.err.toNat
    + 16 * s.treeV.toNat + 32 * s.codeV.toNat + 256 * s.errcode.toNat := by
  simp only [State.statusWord, toNat_append_eq_add, BitVec.toNat_ofBool, BitVec.toNat_ofNat]
  omega

theorem getLsbD_eq_of_toNat {w : Word} {k : Nat} {b : Bool} (h : w.toNat / 2 ^ k % 2 = b.toNat) : w.getLsbD k = b := by
  rw [BitVec.getLsbD, Nat.testBit_eq_decide_div_mod_eq, h]
  cases b <;> rfl

/-- The flags of STATUS bit by bit, ERRCODE, and the zero bits (rule R121). -/
theorem statusWord_fields (s : State) :
    (s.statusWord.getLsbD 0 = s.busy ∧ s.statusWord.getLsbD 1 = s.done ∧ s.statusWord.getLsbD 2 = s.ovr
        ∧ s.statusWord.getLsbD 3 = s.err ∧ s.statusWord.getLsbD 4 = s.treeV ∧ s.statusWord.getLsbD 5 = s.codeV
        ∧ s.statusWord.getLsbD 6 = false ∧ s.statusWord.getLsbD 7 = false)
      ∧ s.statusWord.extractLsb' 8 8 = s.errcode ∧ s.statusWord.extractLsb' 16 16 = 0 := by
  have hword := statusWord_toNat s
  have hbusy := s.busy.toNat_le
  have hdone := s.done.toNat_le
  have hovr := s.ovr.toNat_le
  have herr := s.err.toNat_le
  have htreeV := s.treeV.toNat_le
  have hcodeV := s.codeV.toNat_le
  have herrcode := s.errcode.isLt
  have hfalse : false.toNat = 0 := rfl
  refine ⟨⟨getLsbD_eq_of_toNat ?_, getLsbD_eq_of_toNat ?_, getLsbD_eq_of_toNat ?_, getLsbD_eq_of_toNat ?_,
    getLsbD_eq_of_toNat ?_, getLsbD_eq_of_toNat ?_, getLsbD_eq_of_toNat ?_, getLsbD_eq_of_toNat ?_⟩,
    BitVec.eq_of_toNat_eq ?errcode, BitVec.eq_of_toNat_eq ?upper⟩
  case errcode =>
    rw [BitVec.extractLsb'_toNat, Nat.shiftRight_eq_div_pow, hword]
    omega
  case upper =>
    rw [BitVec.extractLsb'_toNat, Nat.shiftRight_eq_div_pow, hword]
    refine Eq.trans ?_ (BitVec.toNat_ofNat 0 16).symm
    omega
  all_goals omega

theorem err_eq_true_iff (s : State) : s.err = true ↔ s.errcode ≠ 0 := bne_iff_ne

theorem cfgWord_toNat (s : State) :
    (readReg s .cfg).toNat = s.params.magic.toNat + (if s.params.policy = .fault then 256 else 0) := by
  rw [readReg, toNat_append_eq_add, toNat_append_eq_add]
  cases s.params.policy
  · exact (Nat.add_comm _ _).trans rfl
  · exact Nat.add_comm _ _

theorem ctrlWord_toNat (s : State) : (readReg s .ctrl).toNat = s.ie.toNat := by
  rw [readReg, toNat_append_eq_add, BitVec.toNat_ofBool, BitVec.toNat_ofNat]
  omega

theorem tsizeWord_toNat (s : State) : (readReg s .tsize).toNat = presentCount s.freq := by
  have hle := presentCount_le s.freq
  rw [readReg, popcountPresent_eq, BitVec.toNat_ofNat, Nat.mod_eq_of_lt (by omega)]

theorem nbitsWords_toNat (s : State) : (readReg s .nbitsLo).toNat + 2 ^ 32 * (readReg s .nbitsHi).toNat = s.nbits.toNat := by
  simp only [readReg, toNat_append_eq_add, BitVec.extractLsb'_toNat, BitVec.toNat_ofNat, Nat.shiftRight_eq_div_pow]
  omega

theorem treeInfoWord_toNat (s : State) : (readReg s .treeInfo).toNat = s.root.toNat + 2 ^ 16 * s.nnodes.toNat := by
  simp only [readReg, toNat_append_eq_add, BitVec.toNat_ofNat]
  omega

/-- Settles O46: each offset is its register's, and each register reads its fields side by side. -/
theorem registersReadTheirFields : Obligations.RegistersReadTheirFields := by
  intro s
  obtain ⟨⟨hbusy, hdone, hovr, herr, htreeV, hcodeV, hzero6, hzero7⟩, herrcode, hupper⟩ := statusWord_fields s
  refine ⟨⟨hbusy, hdone, hovr, ?_, htreeV, hcodeV, hzero6, hzero7, herrcode, hupper⟩, ctrlWord_toNat s, cfgWord_toNat s, rfl, rfl, rfl,
    rfl, rfl, ?_, tsizeWord_toNat s, rfl, nbitsWords_toNat s, treeInfoWord_toNat s, ?_, rfl, fun off hoff => ?_⟩
  · rw [← err_eq_true_iff, ← herr]
    rfl
  · exact BitVec.toNat_setWidth_of_le (by decide)
  · exact BitVec.toNat_setWidth_of_le (by decide)
  · rw [regAt_reserved hoff]
    rfl

/-! ### Register writes -/

theorem writeReg_access_idle {s : State} {off : BitVec 12} (hidle : s.inflight = none) (hoff : registerFault .word off = none)
    (v : Word) : hostAccess (.writeReg .word off v) s = .next (writeReg s v (regAt off)) := by
  rw [hostAccess_writeReg hoff, hostWriteReg_idle hidle]

theorem padBits_eq (v : Word) : v.extractLsb' 0 3 = BitVec.ofNat 3 (v.toNat % 8) := by
  apply BitVec.eq_of_toNat_eq
  rw [BitVec.extractLsb'_toNat, Nat.shiftRight_zero, BitVec.toNat_ofNat]
  omega

theorem selBits_eq (v : Word) : v.extractLsb' 0 9 = BitVec.ofNat 9 (v.toNat % 512) := by
  apply BitVec.eq_of_toNat_eq
  rw [BitVec.extractLsb'_toNat, Nat.shiftRight_zero, BitVec.toNat_ofNat]
  omega

/-- The single registers that ignore a write (rule R140). -/
def readOnlyRegs : List Reg :=
  [.cfg, .outLen, .tsize, .errInfo, .nbitsLo, .nbitsHi, .treeInfo, .codeLen, .nodeKind, .nodeFreqLo, .nodeFreqHi, .nodeChild]

theorem writeReg_readOnly (s : State) (v : Word) : ∀ r ∈ readOnlyRegs, writeReg s v r = s := by
  simp [readOnlyRegs, writeReg]

theorem registerMap_readOnly : ∀ row ∈ registerMap,
    row.1 ∉ [0x000, 0x004, 0x008, 0x010, 0x014, 0x018, 0x020, 0x024, 0x040] → row.2 ∈ readOnlyRegs := by decide

/-- Settles O49: each offset is its register's, and every other one outside the FREQ window is read-only or reserved. -/
theorem registerWritesHaveNoOtherEffect : Obligations.RegisterWritesHaveNoOtherEffect := by
  intro s v hidle
  refine ⟨writeReg_access_idle hidle rfl v, writeReg_access_idle hidle rfl v, writeReg_access_idle hidle rfl v,
    writeReg_access_idle hidle rfl v, writeReg_access_idle hidle rfl v, writeReg_access_idle hidle rfl v, ?_, ?_,
    fun off haligned hrange hother => ?_⟩
  · rw [← padBits_eq]
    exact writeReg_access_idle hidle rfl v
  · rw [← selBits_eq]
    exact writeReg_access_idle hidle rfl v
  · rw [writeReg_access_idle hidle (registerFault_eq_none_iff.mpr ⟨rfl, haligned⟩)]
    rcases regAt_cases off with ⟨hfreq, -⟩ | ⟨-, k, hword⟩ | hreserved | hsingle
    · omega
    · rw [hword]
      rfl
    · rw [hreserved]
      rfl
    · rw [writeReg_readOnly s v _ (registerMap_readOnly _ hsingle hother)]

theorem writeRegBusy_of_ne_status (s : State) (v : Word) {r : Reg} (h : r ≠ .status) : writeRegBusy s v r = { s with ovr := true } := by
  cases r
  case status => exact absurd rfl h
  all_goals rfl

/-- Settles O50: no offset but 0x004 is STATUS's, and every other register's write sets OVR. -/
theorem busyRegisterWritesOnlySetOvr : Obligations.BusyRegisterWritesOnlySetOvr := by
  intro s off v hbusy haligned
  refine ⟨fun hoff => ?_, (hostAccess_writeReg rfl s v).trans (congrArg _ (hostWriteReg_status s v))⟩
  rw [hostAccess_writeReg (registerFault_eq_none_iff.mpr ⟨rfl, haligned⟩), hostWriteReg, if_pos hbusy,
    writeRegBusy_of_ne_status s v (regAt_ne_status hoff)]

/-! ### Reads -/

theorem hostReadReg_frame (s : State) (r : Reg) :
    hostReadReg s r = { s with rdata := (hostReadReg s r).rdata, draws := (hostReadReg s r).draws } := by
  unfold hostReadReg
  split <;> rfl

theorem hostReadReg_of_readable {s : State} {r : Reg} (h : s.busy = false ∨ readableWhileBusy r = true) :
    hostReadReg s r = { s with rdata := readReg s r } := by
  refine if_neg ?_
  rcases h with hidle | hreadable
  · simp [hidle]
  · simp [hreadable]

theorem hostReadByte_frame (s : State) (b : Buffer) (a : Nat) :
    hostReadByte s b a = { s with rdata := (hostReadByte s b a).rdata, draws := (hostReadByte s b a).draws } := by
  unfold hostReadByte
  split <;> rfl

theorem hostReadByte_idle {s : State} (h : s.busy = false) (b : Buffer) (a : Nat) :
    hostReadByte s b a = { s with rdata := (s.byteAt b a).setWidth 32 } := by
  rw [hostReadByte, h]
  rfl

theorem readReg_access_next {s t : State} {off : BitVec 12} (h : hostAccess (.readReg .word off) s = .next t) :
    t = hostReadReg s (regAt off) := by
  rw [hostAccess] at h
  split at h
  case h_1 => cases h
  case h_2 => exact (Host.Outcome.next.inj h).symm

theorem readByte_access_next {s t : State} {b : Buffer} {a : Word} (h : hostAccess (.readByte b a) s = .next t) :
    t = hostReadByte s b a.toNat := by
  rw [hostAccess] at h
  split at h
  case isTrue => cases h
  case isFalse => exact (Host.Outcome.next.inj h).symm

/-- Settles O51: a read writes what the host has read and, for a free value, the count; STATUS, CTRL, CFG and the reserved offsets
never read a free value. -/
theorem readsHaveNoSideEffect : Obligations.ReadsHaveNoSideEffect := by
  refine ⟨fun s t off h => ?_, fun s t b a h => ?_⟩
  · obtain rfl := readReg_access_next h
    refine ⟨hostReadReg_frame s _, fun hcurrent => hostReadReg_of_readable ?_, fun hreserved => ?_⟩
    · exact hcurrent.imp_right fun hoff => by rcases hoff with rfl | rfl | rfl <;> rfl
    · rw [regAt_reserved hreserved]
      exact hostReadReg_of_readable (.inr rfl)
  · obtain rfl := readByte_access_next h
    exact ⟨hostReadByte_frame s b a.toNat, fun hidle => hostReadByte_idle hidle b a.toNat⟩

/-! ### Faults of the host -/

theorem exists_registerFault {w : AccessWidth} {off : BitVec 12} (h : off.toNat % 4 ≠ 0 ∨ w ≠ .word) :
    ∃ f, registerFault w off = some f := by
  refine Option.ne_none_iff_exists'.mp fun hnone => ?_
  obtain ⟨hw, haligned⟩ := registerFault_eq_none_iff.mp hnone
  exact h.elim (fun hmisaligned => hmisaligned haligned) fun hwidth => hwidth hw

/-- A buffer access at or beyond the buffer's size is a bus error, idle or busy (rule R205). -/
theorem byteAccess_beyond {s : State} {b : Buffer} {a : Word} (h : bufferSize s.params b ≤ a.toNat) (v : Byte) :
    hostAccess (.readByte b a) s = .fault (.bufferRange b) ∧ hostAccess (.writeByte b a v) s = .fault (.bufferRange b) :=
  ⟨if_pos h, if_pos h⟩

/-- A buffer write while BUSY is a fault, in range or not (rule R951). -/
theorem writeByte_busy {s : State} (hbusy : s.busy = true) (b : Buffer) (a : Word) (v : Byte) :
    ∃ f, hostAccess (.writeByte b a v) s = .fault f := by
  by_cases hbeyond : bufferSize s.params b ≤ a.toNat
  · exact ⟨_, if_pos hbeyond⟩
  · exact ⟨.bufferHazard b, (if_neg hbeyond).trans (if_pos hbusy)⟩

/-- Settles O52: an access is checked for the bus errors first, and a byte write for the hazard then. -/
theorem hostFaultsStopTheRun : Obligations.HostFaultsStopTheRun := by
  refine ⟨fun s w off v h => ?_, fun s a v h => byteAccess_beyond (b := .ibuf) h v,
    fun s a v h => byteAccess_beyond (b := .obuf) h v, fun s b a v hbusy => writeByte_busy hbusy b a v⟩
  obtain ⟨f, hfault⟩ := exists_registerFault h
  exact ⟨⟨f, by rw [hostAccess, hfault]⟩, f, by rw [hostAccess, hfault]⟩

/-! ### Byte writes -/

theorem writeByte_access_idle {s : State} {b : Buffer} {a : Word} (hidle : s.inflight = none)
    (ha : a.toNat < bufferSize s.params b) (v : Byte) :
    hostAccess (.writeByte b a v) s = .next (hostWriteByte s a.toNat v b) := by
  have hbusy : ¬ s.busy = true := by rw [busy_eq_false hidle]; exact Bool.false_ne_true
  rw [hostAccess, if_neg (Nat.not_le.mpr ha), if_neg hbusy]

theorem hostWriteByte_byteAt_same (s : State) (a : Nat) (v : Byte) (b : Buffer) : (hostWriteByte s a v b).byteAt b a = v := by
  cases b with
  | ibuf => rw [State.byteAt_ibuf, hostWriteByte, Memory.get_write, if_pos rfl, Option.getD_some]
  | obuf => rw [State.byteAt_obuf, hostWriteByte, Memory.get_write, if_pos rfl, Option.getD_some]

/-- Every other byte of both buffers is as before. -/
theorem hostWriteByte_byteAt_other (s : State) (a : Nat) (v : Byte) {b c : Buffer} {k : Nat} (h : c ≠ b ∨ k ≠ a) :
    (hostWriteByte s a v b).byteAt c k = s.byteAt c k := by
  cases b with
  | ibuf =>
    cases c with
    | ibuf =>
      rw [State.byteAt_ibuf, State.byteAt_ibuf, hostWriteByte, Memory.get_write, if_neg (h.resolve_left (absurd rfl))]
    | obuf => rfl
  | obuf =>
    cases c with
    | ibuf => rfl
    | obuf =>
      rw [State.byteAt_obuf, State.byteAt_obuf, hostWriteByte, Memory.get_write, if_neg (h.resolve_left (absurd rfl))]

theorem hostWriteByte_frame (s : State) (a : Nat) (v : Byte) (b : Buffer) :
    hostWriteByte s a v b = { s with ibuf := (hostWriteByte s a v b).ibuf, obuf := (hostWriteByte s a v b).obuf } := by
  cases b <;> rfl

/-- Settles O53: the access is the write of the one byte. -/
theorem hostByteWritesOneByte : Obligations.HostByteWritesOneByte := fun s b _ a v hidle ha =>
  ⟨_, writeByte_access_idle hidle ha v, hostWriteByte_byteAt_same s a.toNat v b,
    fun _ hother => hostWriteByte_byteAt_other s a.toNat v hother, hostWriteByte_frame s a.toNat v b⟩

/-! ### Reset -/

/-- A state that is the reset state but for the parameters, the host's side and the model's counters. -/
def State.IsReset (t : State) : Prop :=
  t = { State.reset with params := t.params, host := t.host, rdata := t.rdata, draws := t.draws, epoch := t.epoch }

/-- Settles O55: reset and the reset event leave the reset state but for what is not the core's. -/
theorem resetLeavesTheResetValues : Obligations.ResetLeavesTheResetValues := by
  refine ⟨fun s => ⟨s.hostReset, rfl, rfl⟩, fun t ht => ?_⟩
  have hreset : t.IsReset := by
    rcases ht with rfl | ⟨s, h⟩
    · rfl
    · obtain rfl := Host.Outcome.next.inj h
      rfl
  rw [hreset]
  refine ⟨fun b => ⟨Table.entry_replicate 0 b, Table.entry_replicate 0 b, Table.entry_replicate [] b⟩, fun i hi => ?_, ?_⟩
  · exact (Vector.getElem?_replicate ..).trans (if_pos hi)
  · exact ⟨rfl, rfl, rfl, rfl, rfl, rfl, rfl, rfl, rfl, rfl, rfl, rfl, rfl, rfl, rfl, rfl, rfl, rfl, rfl, rfl, rfl⟩

end Sys2Proof.Machine
end
